-- ==== Sys2Proof/Word.lean ====
section
/-! DEFINITION. The words the block handles: bytes, queue indices, the framer's cursor, number patterns. -/
namespace Sys2Proof

/-- A byte is 8 bits, unsigned (00_scope section 6). -/
abbrev Byte := BitVec 8

/-- A queue index: `IW = 8` bits; `mod C` is the natural wrap of an 8-bit counter (R21 to R23, R135). -/
abbrev Index := BitVec 8

/-- The framer's cursor: 8 bits when `L = 256` (R25). -/
abbrev Cursor := BitVec 8

/-- The bit pattern of an `FMT` value: all 64 bits for binary64, the low 32 bits for binary32 (R34, R230; log 11). -/
abbrev Fp := BitVec 64

end Sys2Proof
end

