-- ==== Sys2Proof/Config.lean ====
section
/-! DEFINITION. The implementation parameters (00_scope R9) and the values the spec does not state. -/
namespace Sys2Proof.Config

/-- Index width in bits (R9). -/
abbrev IW : Nat := 8

/-- ByteQueue capacity in slots; at most `C - 1` bytes are held (R9, R10). -/
abbrev C : Nat := 2 ^ IW

/-- Accumulator length in slots; at most `L - 1` bytes of a sentence are held (R9). -/
abbrev L : Nat := 256

/-- Least number of comma-separated fields of a parsable sentence (R9, R201). -/
abbrev NFIELD : Nat := 10

/-- The newline that ends every host output line (R9, R184). -/
abbrev NL : Byte := 0x0A#8

/-- The 6-byte identifier of the supported sentence, `$GPGGA` (R9, R182). -/
def TAG : List Byte := [0x24#8, 0x47#8, 0x50#8, 0x47#8, 0x47#8, 0x41#8]

end Sys2Proof.Config

namespace Sys2Proof

/-- One of the two serial links; queue `q` belongs to link `q` (00_scope section 8). -/
inductive Link where
  | link0
  | link1
  deriving DecidableEq, Repr

/-- The other link: `HOST_LINK = 1 - GNSS_LINK` (R10). -/
def Link.other : Link → Link
  | .link0 => .link1
  | .link1 => .link0

/-- `SYNC_MODE`: whether a side sees the other side's index at once or after a crossing delay (R9, D2). -/
inductive SyncMode where
  | exact
  | lagged
  deriving DecidableEq, Repr

/-- `FMT`: the floating-point format of PositionFix and of the parser's arithmetic (R9, R230). -/
inductive Fmt where
  | binary32
  | binary64
  deriving DecidableEq, Repr

/-- The OPEN parameters of R9. They are fixed for a machine; `State.cfg` carries them (log 1). -/
structure Params where
  syncMode : SyncMode
  gnssLink : Link
  fmt : Fmt
  banner : Option (List Byte)
  deriving DecidableEq, Repr

/-- `HOST_LINK` (R10). -/
def Params.hostLink (p : Params) : Link := p.gnssLink.other

/-- R9's defaults; `SYNC_MODE` has none there and is `exact` here (DESIGN CHOICE, log 1). -/
def Params.default : Params :=
  { syncMode := .exact, gnssLink := .link1, fmt := .binary64, banner := none }

/-- FREE VALUE (logs 9 and 24): N.DIV100 of a pattern that is no finite value of the format, which R236 does not state. -/
opaque Config.div100OfNonValue : Fmt → Fp → Fp

/-- FREE VALUE (logs 9 and 24): N.FMT of a pattern that is no finite value of the format, which R239 does not state. -/
opaque Config.textOfNonValue : Fmt → Fp → Nat → List Byte

/-- FREE VALUE (log 10): N.DEC2F of a byte string that is no NUM, which R233 does not state. -/
opaque Config.dec2fOfNonNumeric : Fmt → List Byte → Option Fp

end Sys2Proof
end

