-- ==== Sys2Proof/Syntax.lean ====
section
/-! DEFINITION. The operations: one constructor of `Instr` per row of spec/opcode_table.json, and the stimuli by which
they are requested (30_encoding R92, R95, R104, R120). -/
namespace Sys2Proof

/-- How far a synchroniser step moves a view: the largest legal move, which the stimulus word means, or the free
choice `k` of R141 and R142, which has no word (log 8). -/
inductive Move where
  | full
  | upTo (k : Index)
  deriving DecidableEq, Repr

/-- The rows of spec/opcode_table.json, in its order. Rows that share a bit pattern (`.OK` and `.FULL`, `.SOME` and
`.NONE`, `.BYTE` and `.EMPTY`, `F.FEED.DATA` and `F.FEED.OVF`, `X.PARSE.OK` and `.ERR`) are the cases of one operation,
told apart by state (R104, log 5). -/
inductive Instr where
  | reset
  | init (q : Link)
  | arriveOk (q : Link) (b : Byte)
  | arriveFull (q : Link) (b : Byte)
  | writeOk (q : Link) (b : Byte)
  | writeFull (q : Link) (b : Byte)
  | readSome (q : Link)
  | readNone (q : Link)
  | stepByte
  | stepEmpty
  | feed (b : Byte)
  | syncw (q : Link) (mv : Move)
  | syncr (q : Link) (mv : Move)
  | reserved9 (x : BitVec 12)
  | reservedA (x : BitVec 12)
  | reservedB (x : BitVec 12)
  | reservedC (x : BitVec 12)
  | reservedD (x : BitVec 12)
  | reservedE (x : BitVec 12)
  | reservedF (x : BitVec 12)
  | portArrive (q : Link) (b : Byte)
  | portIdle (q : Link) (d : Byte)
  | portHqread
  | portHqidle
  | feedTermCr
  | feedTermLf
  | feedData (b : Byte)
  | feedOvf (b : Byte)
  | handleFix (s : List Byte)
  | handleEcho (s : List Byte)
  | parseOk (s : List Byte)
  | parseErr (s : List Byte)
  | oLine (s : List Byte)
  | dec2f (t : List Byte)
  | div100 (x : Fp)
  | neg (x : Fp)
  | fmt (x : Fp) (n : Nat)
  deriving DecidableEq, Repr

/-- What the outside applies to the block, one per step: the "assembly language" word of R120, a word on a reference
port (R95), a byte presented to F.FEED (R102), a sentence presented to D.HANDLE (R103, R121), or an operation that has
no bit pattern (format FUNC, and the partial moves of R141, R142). -/
inductive Stim where
  /-- Format S16. -/
  | word16 (w : BitVec 16)
  /-- Format P9 on the producer port of link `q`. -/
  | port9 (q : Link) (w : BitVec 9)
  /-- Format R1 on the host-queue read port. -/
  | port1 (w : BitVec 1)
  /-- Format BYTE8. -/
  | byte8 (b : Byte)
  /-- Format PREFIX48: the sentence whose first six bytes the test compares. -/
  | sentence (s : List Byte)
  /-- Format FUNC, and a partial synchroniser move. -/
  | direct (i : Instr)
  /-- Bits in none of the table's formats. -/
  | unknown (nbits w : Nat)
  deriving DecidableEq, Repr

/-- Why a stimulus is no operation. -/
inductive DecodeError where
  /-- A defined opcode with a non-zero must-be-zero or unused field: ill-formed (R108, R120, I16). -/
  | nonZeroField (w : BitVec 16)
  /-- Bits in none of the formats of 30_encoding. -/
  | unknownFormat (nbits w : Nat)
  /-- An operation that has a bit pattern, given without it. -/
  | hasBitPattern (i : Instr)
  deriving DecidableEq, Repr

/-- The agents that take steps (R6), and the environment, which may call an operation directly (R92). -/
inductive Agent where
  | prod (q : Link)
  | cons
  | boot
  | syncW (q : Link)
  | syncR (q : Link)
  | environment
  deriving DecidableEq, Repr

end Sys2Proof
end

