-- ==== Sys2Proof/Machine/State.lean ====
section
/-! DEFINITION. The state of the block as plain data (10_state R20), the reasons a step can stop, and reset. -/
namespace Sys2Proof.Machine

/-- A byte memory: the written cells, strictly rising by index. A cell that is not listed holds no value (R302, log 2). -/
abbrev Mem := List Host.Cell

/-- The producer side of a ByteQueue, all that its agent can name: `head`, and the view `tail_w` of the other side's
index (R21, R37, R273). -/
structure ProdSide where
  head : Index
  tailW : Index
  deriving DecidableEq, Repr

/-- The consumer side of a ByteQueue: `tail`, and the view `head_r` of the other side's index (R22, R38, R273). -/
structure ConsSide where
  tail : Index
  headR : Index
  deriving DecidableEq, Repr

/-- One ByteQueue: its two sides and its storage `QST` (R36, R130). -/
structure Queue where
  prod : ProdSide
  cons : ConsSide
  qst : Mem
  deriving DecidableEq, Repr

/-- One thing per link. -/
structure Pair (α : Type) where
  at0 : α
  at1 : α
  deriving DecidableEq, Repr

/-- The thing of link `q`. -/
def Pair.get {α : Type} (p : Pair α) : Link → α
  | .link0 => p.at0
  | .link1 => p.at1

/-- Replaces the thing of link `q` and no other. -/
def Pair.set {α : Type} (p : Pair α) (q : Link) (v : α) : Pair α :=
  match q with
  | .link0 => { p with at0 := v }
  | .link1 => { p with at1 := v }

/-- The PositionFix record: three `FMT` scalars (R34). -/
structure PositionFix where
  lat : Fp
  lon : Fp
  alt : Fp
  deriving DecidableEq, Repr

/-- The startup record: three `+0.0` (R35). -/
def PositionFix.zero : PositionFix := { lat := 0#64, lon := 0#64, alt := 0#64 }

/-- The event log's entries (R41). -/
inductive Event where
  | queueFull (q : Link) (b : Byte)
  | sentenceOverflow (b : Byte)
  | sentence (s : List Byte)
  | parseError (s : List Byte)
  | fixUpdate (f : PositionFix)
  deriving DecidableEq, Repr

/-- The three exceptions (R260, R261). -/
inductive Exc where
  | queueFull (q : Link) (b : Byte)
  | sentenceOverflow (b : Byte)
  | parseError (s : List Byte)
  deriving DecidableEq, Repr

/-- The entries of a script's result list (R120), and the return values of the functions applied directly (log 6). -/
inductive Res where
  | wrote (ok : Bool)
  | read (v : Option Byte)
  | parsed (r : Option PositionFix)
  | number (r : Option Fp)
  | text (t : List Byte)
  deriving DecidableEq, Repr

/-- The output pins of R95 as the last step drove them (log 7). -/
structure Ports where
  /-- `wr_ok[q]`; `none` where the step made no P.ARRIVE on the link. -/
  wrOk : Pair (Option Bool)
  /-- `ovf[q]`. -/
  ovf : Pair Bool
  /-- `some v`: `hq_rd_valid = 1` and `hq_rd_data = v`; `none`: `hq_rd_valid = 0`. -/
  hqRd : Option Byte
  /-- The bytes of the step's `tx_valid` pulses, in order. -/
  tx : List Byte
  /-- `fix_strobe`. -/
  fixStrobe : Bool
  /-- `err_strobe`. -/
  errStrobe : Bool
  /-- `err_code` (R261). -/
  errCode : BitVec 2
  deriving DecidableEq, Repr

/-- All pins idle (log 7). -/
def Ports.idle : Ports :=
  { wrOk := { at0 := none, at1 := none }, ovf := { at0 := false, at1 := false }, hqRd := none, tx := [],
    fixStrobe := false, errStrobe := false, errCode := 0#2 }

/-- Which of the agents that run for ever moves when no stimulus is pending (R322; log 4). -/
inductive Turn where
  | cons
  | syncW0
  | syncR0
  | syncW1
  | syncR1
  deriving DecidableEq, Repr

/-- The record of R20, the parameters of R9, the script language's lists (R120), the pins (R95), and the turn (log 4). -/
structure State where
  cfg : Params
  queues : Pair Queue
  cursor : Cursor
  acc : Mem
  fix : PositionFix
  fixValid : Bool
  out : List Byte
  ev : List Event
  results : List Res
  ports : Ports
  script : List Stim
  turn : Turn
  deriving DecidableEq, Repr

/-- Why the model stops with a fault. -/
inductive Fault where
  /-- Raised by Q.READ (READ, STEP, PORT.HQREAD): the cell `QST[q][a]` was never written. Safe: R68 says no run reads
  such a cell, and R302 allows a model that faults there (log 2). -/
  | unwrittenQueueCell (q : Link) (a : Index)
  /-- Raised by F.FEED.TERM (FEED, STEP): a cell of `ACC[0..cursor)` was never written. Safe, as above (log 2). -/
  | unwrittenAccCell
  deriving DecidableEq, Repr

/-- Why the model refuses a stimulus. -/
inductive Refusal where
  /-- An operation without a meaning yet; raised by `exec` only. Safe. -/
  | notModelled (mnemonic : String)
  /-- Raised by the rows RESERVED.9 to RESERVED.F: "ill-formed", "a model refuses it" (R108, R120, I16). Safe. -/
  | reservedOpcode (op : BitVec 4)
  /-- Raised by the step: the stimulus is no operation (R108, R120, I16). Safe. -/
  | illFormed (e : DecodeError)
  deriving DecidableEq, Repr

/-- Queue `q`. -/
def State.queue (s : State) (q : Link) : Queue := s.queues.get q

/-- Replaces queue `q`. -/
def State.setQueue (s : State) (q : Link) (v : Queue) : State := { s with queues := s.queues.set q v }

/-- `head[q]` (R21). -/
def State.head (s : State) (q : Link) : Index := (s.queue q).prod.head
/-- `tail[q]` (R22). -/
def State.tail (s : State) (q : Link) : Index := (s.queue q).cons.tail
/-- `tail_w[q]` (R37). -/
def State.tailW (s : State) (q : Link) : Index := (s.queue q).prod.tailW
/-- `head_r[q]` (R38). -/
def State.headR (s : State) (q : Link) : Index := (s.queue q).cons.headR
/-- `QST[q]` (R36). -/
def State.qst (s : State) (q : Link) : Mem := (s.queue q).qst

/-- An empty queue with nothing written. -/
def Queue.fresh : Queue := { prod := { head := 0#8, tailW := 0#8 }, cons := { tail := 0#8, headR := 0#8 }, qst := [] }

/-- A host output line: the text followed by `NL` (R96, R184). -/
def lineBytes (t : List Byte) : List Byte := t ++ [Config.NL]

/-- What RESET leaves on `out`: the banner line, if there is a banner (R188, R300). -/
def bannerBytes : Option (List Byte) → List Byte
  | none => []
  | some t => lineBytes t

/-- The machine with parameters `p` right after reset, nothing written and no stimulus pending (R44, R300, R302). -/
def State.resetWith (p : Params) : State :=
  { cfg := p, queues := { at0 := Queue.fresh, at1 := Queue.fresh }, cursor := 0#8, acc := [], fix := PositionFix.zero,
    fixValid := false, out := bannerBytes p.banner, ev := [], results := [], ports := Ports.idle, script := [],
    turn := .cons }

/-- The machine right after reset, with the default parameters (R9, R44; log 1). -/
def State.reset : State := State.resetWith Params.default

end Sys2Proof.Machine
end

