-- ==== Sys2Proof/Machine/Flags.lean ====
section
/-! DEFINITION. Derived conditions, none of them stored (10_state R24, R27, R31). -/
namespace Sys2Proof.Machine

/-- `count(q)`: bytes held (R24). -/
def count (s : State) (q : Link) : Nat := (s.head q - s.tail q).toNat

/-- `empty(q)` (R24). -/
def empty (s : State) (q : Link) : Bool := s.head q == s.tail q

/-- `full(q)` (R24). -/
def full (s : State) (q : Link) : Bool := s.head q + 1#8 == s.tail q

/-- `full_w(q)`, the test Q.WRITE makes (R24, R31). -/
def fullW (s : State) (q : Link) : Bool := s.head q + 1#8 == s.tailW q

/-- `empty_r(q)`, the test Q.READ makes (R24, R31). -/
def emptyR (s : State) (q : Link) : Bool := s.headR q == s.tail q

/-- The framer is idle (R27); otherwise it is accumulating. -/
def idle (s : State) : Bool := s.cursor == 0#8

/-- The accumulator is full: `cursor == L - 1` (R162, R163). -/
def accFull (s : State) : Bool := !decide (s.cursor.toNat < Config.L - 1)

end Sys2Proof.Machine
end

