-- ==== Sys2Proof/Machine/Ops.lean ====
section
/-! DEFINITION. The shared operations over memories, queues, the host output, the logs and the pins, and taking an
exception (00_scope section 7; 60_exceptions R260). No operation returns from an exception: none transfers control and
nothing is saved (R270, R271). -/
namespace Sys2Proof.Machine

/-- What an operation ends in. -/
abbrev Out := Host.Outcome State Fault Refusal

/-! Memories. -/

/-- `MemRead(sp, a, 1)`; `none` for a cell nothing has written (R61, log 2). -/
def memRead : Mem → Nat → Option Byte
  | [], _ => none
  | c :: m, a => if c.1 = a then some c.2 else memRead m a

/-- `MemWrite(sp, a, 1, v)`: replaces that one byte and no other (R61). -/
def memWrite : Mem → Nat → Byte → Mem
  | [], a, v => [(a, v)]
  | c :: m, a, v =>
    if a < c.1 then (a, v) :: c :: m
    else if a = c.1 then (a, v) :: m
    else c :: memWrite m a v

/-- The bytes at `a`, `a + 1`, and so on, `n` of them: `ACC[a .. a + n)` (R61, R161). -/
def memRun (m : Mem) (a : Nat) : Nat → Option (List Byte)
  | 0 => some []
  | n + 1 =>
    match memRead m a, memRun m (a + 1) n with
    | some b, some t => some (b :: t)
    | _, _ => none

/-- The canonical form of a memory of `size` cells: indices strictly rising and in range (log 2). -/
abbrev Mem.wf (size : Nat) (m : Mem) : Prop := m.Pairwise (fun c d => c.1 < d.1) ∧ ∀ c ∈ m, c.1 < size

/-! The two sides of a ByteQueue. The producer's operation cannot name `tail`, the consumer's cannot change `head` or a
cell (R140, R273). -/

/-- Q.WRITE on the producer side: data first, then the index (R72, R133). -/
def ProdSide.write (p : ProdSide) (m : Mem) (b : Byte) : ProdSide × Mem × Bool :=
  let next := p.head + 1#8
  if next = p.tailW then (p, m, false)
  else ({ p with head := next }, memWrite m p.head.toNat b, true)

/-- What Q.READ on the consumer side finds. -/
inductive ReadRes where
  /-- `head_r == tail`: none. -/
  | nothing
  /-- The byte at `tail`, and the side after `tail` has advanced. -/
  | got (b : Byte) (c : ConsSide)
  /-- The cell at `tail` was never written (log 2). -/
  | unwritten

/-- Q.READ on the consumer side: data first, then the index (R73, R136). -/
def ConsSide.read (c : ConsSide) (m : Mem) : ReadRes :=
  if c.headR = c.tail then .nothing
  else match memRead m c.tail.toNat with
    | some b => .got b { c with tail := c.tail + 1#8 }
    | none => .unwritten

/-- `exact` mode: the views follow the indices at once; `lagged` mode: they stay (R37, R38, R143, log 15). -/
def settle (mode : SyncMode) (v : Queue) : Queue :=
  match mode with
  | .exact => { v with prod := { v.prod with tailW := v.cons.tail }, cons := { v.cons with headR := v.prod.head } }
  | .lagged => v

/-- How far a view moves, of the `d` it may move (R141, R142, log 8). -/
def moveBy (mv : Move) (d : Index) : Index :=
  match mv with
  | .full => d
  | .upTo k => if k.toNat ≤ d.toNat then k else d

/-! The output, the logs and the pins. -/

/-- O.LINE, `emit(s)`: the whole line at once, to `out` and so to the transmit pins (R95, R184). -/
def emit (t : List Byte) (s : State) : State :=
  { s with out := s.out ++ lineBytes t, ports := { s.ports with tx := s.ports.tx ++ lineBytes t } }

/-- `ev <- ev ++ [e]` (R41). -/
def logEvent (e : Event) (s : State) : State := { s with ev := s.ev ++ [e] }

/-- Appends to the script's result list (R120, log 6). -/
def record (r : Res) (s : State) : State := { s with results := s.results ++ [r] }

/-- `wr_ok[q]` and `ovf[q]` of a P.ARRIVE whose Q.WRITE returned `ok` (R95). -/
def driveArrive (q : Link) (ok : Bool) (s : State) : State :=
  { s with ports := { s.ports with wrOk := s.ports.wrOk.set q (some ok), ovf := s.ports.ovf.set q (!ok) } }

/-- `fix_strobe` (R95). -/
def driveFix (s : State) : State := { s with ports := { s.ports with fixStrobe := true } }

/-- `err_strobe` with `err_code` (R95, R261). -/
def driveErr (code : BitVec 2) (s : State) : State :=
  { s with ports := { s.ports with errStrobe := true, errCode := code } }

/-! The exceptions. -/

/-- `UART0 Buffer Full`, `UART1 Buffer Full` (R96). -/
def qfullText (q : Link) : List Byte :=
  [0x55#8, 0x41#8, 0x52#8, 0x54#8, match q with | .link0 => 0x30#8 | .link1 => 0x31#8,
   0x20#8, 0x42#8, 0x75#8, 0x66#8, 0x66#8, 0x65#8, 0x72#8, 0x20#8, 0x46#8, 0x75#8, 0x6C#8, 0x6C#8]

/-- `NMEA Buffer Overflow` (R96). -/
def ovfText : List Byte :=
  [0x4E#8, 0x4D#8, 0x45#8, 0x41#8, 0x20#8, 0x42#8, 0x75#8, 0x66#8, 0x66#8, 0x65#8, 0x72#8, 0x20#8,
   0x4F#8, 0x76#8, 0x65#8, 0x72#8, 0x66#8, 0x6C#8, 0x6F#8, 0x77#8]

/-- `Invalid GPGGA sentence` (R96). -/
def badfixText : List Byte :=
  [0x49#8, 0x6E#8, 0x76#8, 0x61#8, 0x6C#8, 0x69#8, 0x64#8, 0x20#8, 0x47#8, 0x50#8, 0x47#8, 0x47#8, 0x41#8, 0x20#8,
   0x73#8, 0x65#8, 0x6E#8, 0x74#8, 0x65#8, 0x6E#8, 0x63#8, 0x65#8]

/-- The cause code (R261). -/
def Exc.code : Exc → BitVec 2
  | .queueFull _ _ => 1#2
  | .sentenceOverflow _ => 2#2
  | .parseError _ => 3#2

/-- The event an exception is recorded as (R41, R260). -/
def Exc.event : Exc → Event
  | .queueFull q b => .queueFull q b
  | .sentenceOverflow b => .sentenceOverflow b
  | .parseError s => .parseError s

/-- The line `raise` itself emits; ParseError's is emitted by D.HANDLE (R260, C9). -/
def Exc.line : Exc → Option (List Byte)
  | .queueFull q _ => some (qfullText q)
  | .sentenceOverflow _ => some ovfText
  | .parseError _ => none

/-- The "State change" column of R261. -/
def Exc.change : Exc → State → State
  | .queueFull _ _, s => s
  | .sentenceOverflow _, s => { s with cursor := 0#8 }
  | .parseError _, s => s

/-- The pins of an exception: QueueFull shows on `ovf[q]`, which P.ARRIVE drives, the others on `err_strobe` (R261). -/
def Exc.drive : Exc → State → State
  | .queueFull _ _, s => s
  | .sentenceOverflow b, s => driveErr (Exc.code (.sentenceOverflow b)) s
  | .parseError t, s => driveErr (Exc.code (.parseError t)) s

/-- `raise E(info)`: the event, the state change, the pins, and the line where the raiser emits it (R260). Control goes
nowhere and nothing is saved (R270). -/
def raiseExc (e : Exc) (s : State) : State :=
  let t := e.drive (e.change (logEvent e.event s))
  match e.line with
  | some l => emit l t
  | none => t

end Sys2Proof.Machine
end

