-- ==== Sys2Proof/Machine/ByteQueue.lean ====
section
/-! DEFINITION. The ByteQueue operations (40_bytequeue): Q.INIT, Q.WRITE, Q.READ, P.ARRIVE, Q.SYNCW, Q.SYNCR. -/
namespace Sys2Proof.Machine

/-- Q.INIT q: the indices and their views to 0; the cells stay (R131). -/
def qInit (q : Link) (s : State) : State :=
  s.setQueue q { prod := { head := 0#8, tailW := 0#8 }, cons := { tail := 0#8, headR := 0#8 }, qst := s.qst q }

/-- Q.WRITE q, b: the return value and the state (R133). A refused write changes nothing. -/
def qWrite (q : Link) (b : Byte) (s : State) : Bool × State :=
  let v := s.queue q
  match v.prod.write v.qst b with
  | (p, m, true) => (true, s.setQueue q (settle s.cfg.syncMode { prod := p, cons := v.cons, qst := m }))
  | (_, _, false) => (false, s)

/-- Q.READ q: the return value and the state (R136). `none` changes nothing. -/
def qRead (q : Link) (s : State) : Except Fault (Option Byte × State) :=
  let v := s.queue q
  match v.cons.read v.qst with
  | .nothing => .ok (none, s)
  | .got b c => .ok (some b, s.setQueue q (settle s.cfg.syncMode { prod := v.prod, cons := c, qst := v.qst }))
  | .unwritten => .error (.unwrittenQueueCell q v.cons.tail)

/-- P.ARRIVE q, b: the write, and QueueFull where it is refused (R139, R262). -/
def pArrive (q : Link) (b : Byte) (s : State) : State :=
  match qWrite q b s with
  | (true, t) => driveArrive q true t
  | (false, t) => raiseExc (.queueFull q b) (driveArrive q false t)

/-- Q.SYNCW q: `tail_w` catches up with `tail`, wholly or partly; in `exact` mode a no-op (R120, R141). -/
def qSyncW (q : Link) (mv : Move) (s : State) : State :=
  match s.cfg.syncMode with
  | .exact => s
  | .lagged =>
    let v := s.queue q
    s.setQueue q { v with prod := { v.prod with tailW := v.prod.tailW + moveBy mv (v.cons.tail - v.prod.tailW) } }

/-- Q.SYNCR q: `head_r` catches up with `head`, wholly or partly; in `exact` mode a no-op (R120, R142). -/
def qSyncR (q : Link) (mv : Move) (s : State) : State :=
  match s.cfg.syncMode with
  | .exact => s
  | .lagged =>
    let v := s.queue q
    s.setQueue q { v with cons := { v.cons with headR := v.cons.headR + moveBy mv (v.prod.head - v.cons.headR) } }

/-- `WRITE q, b`: Q.WRITE alone, the result recorded (R120). -/
def writeWord (q : Link) (b : Byte) (s : State) : State :=
  match qWrite q b s with
  | (ok, t) => record (.wrote ok) t

/-- `READ q`: Q.READ alone, the result recorded (R120). -/
def readWord (q : Link) (s : State) : Out :=
  match qRead q s with
  | .ok (r, t) => .next (record (.read r) t)
  | .error f => .fault f

/-! The meanings. The two rows of one word are the two cases of one operation, which decides the case itself (log 5). -/

/-- INIT (R131). -/
def execInit (q : Link) (s : State) : Out := .next (qInit q s)
/-- ARRIVE.OK: P.ARRIVE (R139). -/
def execArriveOk (q : Link) (b : Byte) (s : State) : Out := .next (pArrive q b s)
/-- ARRIVE.FULL: P.ARRIVE (R139, R262). -/
def execArriveFull (q : Link) (b : Byte) (s : State) : Out := .next (pArrive q b s)
/-- WRITE.OK: Q.WRITE alone (R133). -/
def execWriteOk (q : Link) (b : Byte) (s : State) : Out := .next (writeWord q b s)
/-- WRITE.FULL: Q.WRITE alone (R133). -/
def execWriteFull (q : Link) (b : Byte) (s : State) : Out := .next (writeWord q b s)
/-- READ.SOME: Q.READ alone (R136). -/
def execReadSome (q : Link) (s : State) : Out := readWord q s
/-- READ.NONE: Q.READ alone (R136). -/
def execReadNone (q : Link) (s : State) : Out := readWord q s
/-- SYNCW (R141). -/
def execSyncw (q : Link) (mv : Move) (s : State) : Out := .next (qSyncW q mv s)
/-- SYNCR (R142). -/
def execSyncr (q : Link) (mv : Move) (s : State) : Out := .next (qSyncR q mv s)

end Sys2Proof.Machine
end

