-- ==== Sys2Proof/Machine/Boot.lean ====
section
/-! DEFINITION. RESET (70_reset_and_hazards R300). -/
namespace Sys2Proof.Machine

/-- RESET: Q.INIT of both queues, the framer idle, the record zero and not valid, `out` and `ev` empty, then the banner
line. The cells are not written, and parameters, script, result list and turn are not the block's (R300, log 19). -/
def bootReset (s : State) : State :=
  let t := qInit .link1 (qInit .link0 s)
  let u := { t with cursor := 0#8, fix := PositionFix.zero, fixValid := false, out := [], ev := [] }
  match u.cfg.banner with
  | none => u
  | some text => emit text u

/-- RESET (R300). -/
def execReset (s : State) : Out := .next (bootReset s)

end Sys2Proof.Machine
end

