-- ==== Sys2Proof/Machine/Operands.lean ====
section
/-! DEFINITION. Operand forms: character classes, the routing test, field splitting, numeric fields, hemisphere
letters (30_encoding R91 to R103). -/
namespace Sys2Proof.Machine

/-- CR (R91). -/
def chCR : Byte := 0x0D#8
/-- LF (R91). -/
def chLF : Byte := 0x0A#8
/-- The field delimiter `,` (R91). -/
def chComma : Byte := 0x2C#8
/-- The sign `-` of a numeric field (R91). -/
def chMinus : Byte := 0x2D#8
/-- The decimal point (R91). -/
def chPoint : Byte := 0x2E#8
/-- `N` (R91). -/
def chN : Byte := 0x4E#8
/-- `S` (R91). -/
def chS : Byte := 0x53#8
/-- `E` (R91). -/
def chE : Byte := 0x45#8
/-- `W` (R91). -/
def chW : Byte := 0x57#8

/-- Byte class TERM: CR or LF; every other value is DATA (R93). -/
def isTerm (b : Byte) : Bool := b == chCR || b == chLF

/-- The digits `0` to `9` (R91, R99). -/
def isDigit (b : Byte) : Bool := decide (0x30 ≤ b.toNat ∧ b.toNat ≤ 0x39)

/-- The value of a digit: code - 0x30 (R91). -/
def digitVal (b : Byte) : Nat := b.toNat - 0x30

/-- A digit string read as a base-10 integer (R99). -/
def decimalVal (ds : List Byte) : Nat := ds.foldl (fun v b => 10 * v + digitVal b) 0

/-- The route to X.PARSE: `len(s) >= 6` and `s[0..6) = TAG` (R103). -/
def hasTag (s : List Byte) : Bool := s.take 6 == Config.TAG

/-- The sentences F.FEED can emit: 1 to `L - 1` bytes, neither CR nor LF (R170). -/
def isSentence (s : List Byte) : Bool :=
  decide (1 ≤ s.length ∧ s.length ≤ Config.L - 1) && s.all (fun b => !isTerm b)

/-- The fields of a sentence: the byte strings between its commas, in order (R98). -/
def splitFields : List Byte → List (List Byte)
  | [] => [[]]
  | b :: s =>
    if b = chComma then [] :: splitFields s
    else match splitFields s with
      | f :: fs => (b :: f) :: fs
      | [] => [[b]]

/-- A numeric field read by R99: its sign, its digits as one integer, the number of digits after the point. -/
structure Numeral where
  neg : Bool
  digits : Nat
  scale : Nat
  deriving DecidableEq, Repr

/-- Grammar NUM without its sign, and its value (R99). -/
def parseUnsigned (neg : Bool) (t : List Byte) : Option Numeral :=
  let whole := t.takeWhile isDigit
  if whole = [] then none
  else match t.dropWhile isDigit with
    | [] => some { neg := neg, digits := decimalVal whole, scale := 0 }
    | c :: frac =>
      if c = chPoint ∧ frac ≠ [] ∧ frac.all isDigit = true then
        some { neg := neg, digits := decimalVal (whole ++ frac), scale := frac.length }
      else none

/-- Grammar NUM and its value: `some` exactly for the fields that match NUM in full (R99). -/
def parseNum : List Byte → Option Numeral
  | [] => none
  | b :: t => if b = chMinus then parseUnsigned true t else parseUnsigned false (b :: t)

/-- `NUM(t)` (R99, R203). -/
def isNum (t : List Byte) : Bool := (parseNum t).isSome

/-- The latitude's sign operand: exactly the one byte `N` (keep) or `S` (negate) (R100, R204). -/
def hemiNS (f : List Byte) : Option Bool :=
  if f = [chN] then some false else if f = [chS] then some true else none

/-- The longitude's sign operand: exactly the one byte `E` (keep) or `W` (negate) (R100, R204). -/
def hemiEW (f : List Byte) : Option Bool :=
  if f = [chE] then some false else if f = [chW] then some true else none

end Sys2Proof.Machine
end

