-- ==== Sys2Proof/Machine/Numbers.lean ====
section
/-! DEFINITION. Numerics of the FixParser as pure functions of the format and the operand (44_numerics R230 to R239).
Arithmetic is exact on fractions of naturals; the one rounding is `roundMag`. -/
namespace Sys2Proof.Machine

/-- Precision `p` (R230). -/
def prec : Fmt → Nat
  | .binary32 => 24
  | .binary64 => 53

/-- Width `W` (R230). -/
def width : Fmt → Nat
  | .binary32 => 32
  | .binary64 => 64

/-- `emax`, which is also the bias (R230). -/
def emax : Fmt → Nat
  | .binary32 => 127
  | .binary64 => 1023

/-- `emin` (R230). -/
def emin (f : Fmt) : Int := 1 - (emax f : Int)

/-- The exponent field of all ones (R230). -/
def allOnes (f : Fmt) : Nat := 2 * emax f + 1

/-- The sign bit, bit `W - 1` (R230). -/
def signBit (f : Fmt) (x : Fp) : Bool := x.getLsbD (width f - 1)

/-- The exponent field `E` (R230). -/
def expField (f : Fmt) (x : Fp) : Nat := x.toNat / 2 ^ (prec f - 1) % 2 ^ (width f - prec f)

/-- The fraction field `F` (R230). -/
def fracField (f : Fmt) (x : Fp) : Nat := x.toNat % 2 ^ (prec f - 1)

/-- A pattern that is a finite value: its exponent field is not all ones (R230, R238). -/
def isFinite (f : Fmt) (x : Fp) : Bool := expField f x != allOnes f

/-- A finite value of the format: no bit above its width, and the exponent field not all ones. Any other pattern is no
operand of R236, R237 and R239 (logs 9 and 24). -/
def isFmtValue (f : Fmt) (x : Fp) : Bool := decide (x.toNat < 2 ^ width f) && isFinite f x

/-- One of the two zeros, `+0.0` and `-0.0` (R230). -/
def isZero (f : Fmt) (x : Fp) : Bool := expField f x == 0 && fracField f x == 0

/-- A non-negative rational `num / den`. -/
structure Frac where
  num : Nat
  den : Nat
  deriving DecidableEq, Repr

/-- `m * 2^k` as a fraction. -/
def scale2 (m : Nat) (k : Int) : Frac :=
  if 0 ≤ k then { num := m * 2 ^ k.toNat, den := 1 } else { num := m, den := 2 ^ (-k).toNat }

/-- The significand of a pattern as an integer of `p` bits: with the hidden one, unless `E = 0` (R230). -/
def significand (f : Fmt) (x : Fp) : Nat :=
  if expField f x = 0 then fracField f x else 2 ^ (prec f - 1) + fracField f x

/-- The exponent that goes with `significand`: `|value(x)| = significand * 2^unitExp` (R230). -/
def unitExp (f : Fmt) (x : Fp) : Int :=
  (if expField f x = 0 then emin f else (expField f x : Int) - emax f) - ((prec f : Int) - 1)

/-- `|value(x)|` of a finite pattern (R230). -/
def magnitude (f : Fmt) (x : Fp) : Frac := scale2 (significand f x) (unitExp f x)

/-- `n / d` rounded to the nearest integer, ties to the even integer (R232, R239). -/
def roundEven (n d : Nat) : Nat :=
  let m := n / d
  let r := n % d
  if 2 * r < d then m
  else if d < 2 * r then m + 1
  else if m % 2 = 0 then m else m + 1

/-- `2^e <= a` for a fraction `a`. -/
def powLe (e : Int) (a : Frac) : Bool :=
  if 0 ≤ e then decide (a.den * 2 ^ e.toNat ≤ a.num) else decide (a.den ≤ a.num * 2 ^ (-e).toNat)

/-- `floor(log2 a)` for `a > 0` (R232). -/
def floorLog2 (a : Frac) : Int :=
  let e : Int := (Nat.log2 a.num : Int) - (Nat.log2 a.den : Int)
  if powLe e a then e else e - 1

/-- OVERFLOW: `a >= (2 - 2^-p) * 2^emax` (R234). -/
def overflows (f : Fmt) (a : Frac) : Bool :=
  decide (a.den * ((2 ^ (prec f + 1) - 1) * 2 ^ (emax f - prec f)) ≤ a.num)

/-- `e = max(floor(log2 a), emin)` (R232). -/
def roundExp (f : Fmt) (a : Frac) : Int := max (floorLog2 a) (emin f)

/-- `m = a / u` rounded, with `u = 2^(e - p + 1)` (R232). -/
def roundSig (f : Fmt) (a : Frac) : Nat :=
  let k : Int := roundExp f a - prec f + 1
  if 0 ≤ k then roundEven a.num (a.den * 2 ^ k.toNat) else roundEven (a.num * 2 ^ (-k).toNat) a.den

/-- The magnitude pattern of `m * 2^(e - p + 1)`, `m <= 2^p`; `m = 2^p` gives `2^(e+1)` (R230, R232). -/
def packMag (f : Fmt) (m : Nat) (e : Int) : Nat :=
  if m < 2 ^ (prec f - 1) then m
  else if m < 2 ^ prec f then (e + emax f).toNat * 2 ^ (prec f - 1) + (m - 2 ^ (prec f - 1))
  else (e + 1 + emax f).toNat * 2 ^ (prec f - 1)

/-- `round_FMT(a)` for a magnitude `a` that is not OVERFLOW; zero gives zero (R232). -/
def roundMag (f : Fmt) (a : Frac) : Nat :=
  if a.num = 0 then 0 else packMag f (roundSig f a) (roundExp f a)

/-- A magnitude pattern with a sign bit in front (R230). -/
def withSign (f : Fmt) (neg : Bool) (mag : Nat) : Fp :=
  BitVec.ofNat 64 ((if neg then 2 ^ (width f - 1) else 0) + mag)

/-- `|val(t)|` of a numeral (R99). -/
def Numeral.magnitude (n : Numeral) : Frac := { num := n.digits, den := 10 ^ n.scale }

/-- N.DEC2F on a numeral; `none` is OVERFLOW. A zero keeps the sign it is written with (R233, R234). -/
def dec2fNumeral (f : Fmt) (n : Numeral) : Option Fp :=
  if overflows f n.magnitude then none else some (withSign f n.neg (roundMag f n.magnitude))

/-- N.DEC2F t (R233); for a `t` that is no NUM, a free value (log 10). -/
def dec2f (f : Fmt) (t : List Byte) : Option Fp :=
  match parseNum t with
  | some n => dec2fNumeral f n
  | none => Config.dec2fOfNonNumeric f t

/-- N.DIV100 x: the correctly rounded quotient by 100, with the sign of `x`; a zero is returned as it is (R236). For
a pattern that is no finite value of the format, a free value (logs 9 and 24). -/
def div100 (f : Fmt) (x : Fp) : Fp :=
  if isFmtValue f x then
    if isZero f x then x
    else
      let a := magnitude f x
      withSign f (signBit f x) (roundMag f { num := a.num, den := a.den * 100 })
  else Config.div100OfNonValue f x

/-- N.NEG x: the sign bit, bit `W - 1`, inverted, all other bits unchanged (R237). DESIGN CHOICE (log 24): so
also for a pattern that is no finite value of the format, in binary32 one with bits above bit 31 among them. -/
def negate (f : Fmt) (x : Fp) : Fp := x ^^^ (1#64 <<< (width f - 1))

/-- `v` in exactly `n` decimal digits, low digits kept, padded on the left with `0`: `dec_n` (R239). -/
def decFixed : Nat → Nat → List Byte
  | 0, _ => []
  | n + 1, v => decFixed n (v / 10) ++ [BitVec.ofNat 8 (0x30 + v % 10)]

/-- How many decimal digits `v` has, counted on fuel; zero has one. -/
def decDigits : Nat → Nat → Nat
  | 0, _ => 1
  | fuel + 1, v => if v < 10 then 1 else decDigits fuel (v / 10) + 1

/-- The decimal digits of `v` without leading zeros, `0` for zero: `dec` (R239). -/
def decText (v : Nat) : List Byte := decFixed (decDigits (Nat.log2 v + 1) v) v

/-- `M`: `a * 10^n` rounded to the nearest integer, ties to even (R239). -/
def scaledInt (a : Frac) (n : Nat) : Nat := roundEven (a.num * 10 ^ n) a.den

/-- N.FMT x, n: the C conversion `%.nf` (R239); for a pattern that is no finite value of the format, a free value
(logs 9 and 24). -/
def fmtText (f : Fmt) (x : Fp) (n : Nat) : List Byte :=
  if isFmtValue f x then
    let m := scaledInt (magnitude f x) n
    (if signBit f x then [chMinus] else []) ++ decText (m / 10 ^ n) ++ [chPoint] ++ decFixed n (m % 10 ^ n)
  else Config.textOfNonValue f x n

end Sys2Proof.Machine
end

