-- ==== Sys2Proof/Machine/FixParser.lean ====
section
/-! DEFINITION. The FixParser (43_fixparser): X.PARSE, its result function and its commit. -/
namespace Sys2Proof.Machine

/-- A latitude or longitude: the raw value divided by 100, then negated for `S` and `W` (R205). -/
def coordinate (f : Fmt) (negated : Bool) (raw : Fp) : Fp :=
  if negated then negate f (div100 f raw) else div100 f raw

/-- The numeric tests and the values (R203 to R206), from the fields the grammar looks at; `none` is `Err`. -/
def fixOfFields (f : Fmt) (lat ns lon ew alt : List Byte) : Option PositionFix :=
  match parseNum lat, hemiNS ns, parseNum lon, hemiEW ew, parseNum alt with
  | some nlat, some south, some nlon, some west, some nalt =>
    match dec2fNumeral f nlat, dec2fNumeral f nlon, dec2fNumeral f nalt with
    | some rlat, some rlon, some ralt =>
      some { lat := coordinate f south rlat, lon := coordinate f west rlon, alt := ralt }
    | _, _, _ => none
  | _, _, _, _, _ => none

/-- `parse(sentence) -> Result`, a pure function of the sentence and the format (R200, R214): at least ten fields, field
0 the tag, then fields 2, 3, 4, 5 and 9; the others are not looked at (R201, R202, R212). -/
def parseFix (f : Fmt) (s : List Byte) : Option PositionFix :=
  match splitFields s with
  | tag :: _ :: lat :: ns :: lon :: ew :: _ :: _ :: _ :: alt :: _ =>
    if tag = Config.TAG then fixOfFields f lat ns lon ew alt else none
  | _ => none

/-- The commit: the three values and `fix_valid` as one unit, and its event (R70, R207). -/
def commitFix (r : PositionFix) (s : State) : State :=
  driveFix (logEvent (.fixUpdate r) { s with fix := r, fixValid := true })

/-- X.PARSE s: commit on success, ParseError on failure (R200, R207, R209). -/
def xParse (t : List Byte) (s : State) : Option PositionFix × State :=
  match parseFix s.cfg.fmt t with
  | some r => (some r, commitFix r s)
  | none => (none, raiseExc (.parseError t) s)

/-- `PARSE "text"`: X.PARSE applied to the text, the result recorded (R121, log 6). -/
def parseWord (t : List Byte) (s : State) : State :=
  match xParse t s with
  | (r, u) => record (.parsed r) u

/-- X.PARSE.OK: X.PARSE (R200, R207). -/
def execParseOk (t : List Byte) (s : State) : Out := .next (parseWord t s)
/-- X.PARSE.ERR: X.PARSE (R209). -/
def execParseErr (t : List Byte) (s : State) : Out := .next (parseWord t s)

end Sys2Proof.Machine
end

