-- ==== Sys2Proof/Machine/Dispatcher.lean ====
section
/-! DEFINITION. The Dispatcher and the host output (42_dispatcher): D.HANDLE, O.LINE. -/
namespace Sys2Proof.Machine

/-- `Lat: ` (R97). -/
def latText : List Byte := [0x4C#8, 0x61#8, 0x74#8, 0x3A#8, 0x20#8]
/-- `, Lon: ` (R97). -/
def lonText : List Byte := [0x2C#8, 0x20#8, 0x4C#8, 0x6F#8, 0x6E#8, 0x3A#8, 0x20#8]
/-- `, Alt: ` (R97). -/
def altText : List Byte := [0x2C#8, 0x20#8, 0x41#8, 0x6C#8, 0x74#8, 0x3A#8, 0x20#8]

/-- The FIX line of a record: `Lat: %.6f, Lon: %.6f, Alt: %.2f` (R97, R208). -/
def fixText (f : Fmt) (r : PositionFix) : List Byte :=
  latText ++ fmtText f r.lat 6 ++ lonText ++ fmtText f r.lon 6 ++ altText ++ fmtText f r.alt 2

/-- `diag`: the FIX line of an `Ok`, the BADFIX line of an `Err` (R208). -/
def diagText (f : Fmt) : Option PositionFix → List Byte
  | some r => fixText f r
  | none => badfixText

/-- D.HANDLE s: the ECHO line; then, on a prefix match, X.PARSE and its diagnostic (R180). -/
def dHandle (t : List Byte) (s : State) : State :=
  let e := emit t s
  if hasTag t then
    match xParse t e with
    | (r, u) => emit (diagText s.cfg.fmt r) u
  else e

/-- D.HANDLE.FIX: D.HANDLE (R103, R180). -/
def execHandleFix (t : List Byte) (s : State) : Out := .next (dHandle t s)
/-- D.HANDLE.ECHO: D.HANDLE (R105, R180). -/
def execHandleEcho (t : List Byte) (s : State) : Out := .next (dHandle t s)
/-- O.LINE (R184). -/
def execOLine (t : List Byte) (s : State) : Out := .next (emit t s)

end Sys2Proof.Machine
end

