-- ==== Sys2Proof/Machine/Framer.lean ====
section
/-! DEFINITION. The SentenceFramer and the consumer step (41_framer): F.FEED, C.STEP. -/
namespace Sys2Proof.Machine

/-- F.FEED.TERM: emit the accumulated sentence, or ignore the terminator (R161). -/
def fTerm (s : State) : Out :=
  if idle s then .next s
  else match memRun s.acc 0 s.cursor.toNat with
    | some t => .next { dHandle t (logEvent (.sentence t) s) with cursor := 0#8 }
    | none => .fault .unwrittenAccCell

/-- F.FEED.DATA b: store and advance (R162). -/
def fData (b : Byte) (s : State) : State :=
  { s with acc := memWrite s.acc s.cursor.toNat b, cursor := s.cursor + 1#8 }

/-- F.FEED.OVF b: SentenceOverflow; everything accumulated and `b` are dropped (R163). -/
def fOvf (b : Byte) (s : State) : State := raiseExc (.sentenceOverflow b) s

/-- F.FEED b: terminator first, then room, then overflow (R102, R160, R268). -/
def fFeed (b : Byte) (s : State) : Out :=
  if isTerm b then fTerm s
  else if accFull s then .next (fOvf b s)
  else .next (fData b s)

/-- C.STEP: one Q.READ of the GNSS queue and, if it yields a byte, one F.FEED (R166). -/
def cStep (s : State) : Out :=
  match qRead s.cfg.gnssLink s with
  | .ok (some b, t) => fFeed b t
  | .ok (none, t) => .next t
  | .error f => .fault f

/-- STEP.BYTE: C.STEP (R166). -/
def execStepByte (s : State) : Out := cStep s
/-- STEP.EMPTY: C.STEP (R166). -/
def execStepEmpty (s : State) : Out := cStep s
/-- FEED: F.FEED b alone (R120, R160). -/
def execFeed (b : Byte) (s : State) : Out := fFeed b s
/-- F.FEED.TERM.CR: F.FEED of CR (R161). -/
def execFeedTermCr (s : State) : Out := fFeed chCR s
/-- F.FEED.TERM.LF: F.FEED of LF (R161). -/
def execFeedTermLf (s : State) : Out := fFeed chLF s
/-- F.FEED.DATA: F.FEED b (R162). -/
def execFeedData (b : Byte) (s : State) : Out := fFeed b s
/-- F.FEED.OVF: F.FEED b (R163). -/
def execFeedOvf (b : Byte) (s : State) : Out := fFeed b s

end Sys2Proof.Machine
end

