-- ==== Sys2Proof/Machine/Numerics.lean ====
section
/-! DEFINITION. The numeric functions applied directly (44_numerics): each changes nothing but the result list
(log 6, log 16). -/
namespace Sys2Proof.Machine

/-- N.DEC2F (R233). -/
def execDec2f (t : List Byte) (s : State) : Out := .next (record (.number (dec2f s.cfg.fmt t)) s)
/-- N.DIV100 (R236). -/
def execDiv100 (x : Fp) (s : State) : Out := .next (record (.number (some (div100 s.cfg.fmt x))) s)
/-- N.NEG (R237). -/
def execNeg (x : Fp) (s : State) : Out := .next (record (.number (some (negate s.cfg.fmt x))) s)
/-- N.FMT (R239). -/
def execFmt (x : Fp) (n : Nat) (s : State) : Out := .next (record (.text (fmtText s.cfg.fmt x n)) s)

end Sys2Proof.Machine
end

