-- ==== Sys2Proof/Machine/PortWords.lean ====
section
/-! DEFINITION. The words of the reference ports (30_encoding R95). -/
namespace Sys2Proof.Machine

/-- No request on the producer port of link `q`: `ovf[q] = rx_valid[q] and not wr_ok[q] = 0` (R95, log 7). -/
def idleArrive (q : Link) (s : State) : State :=
  { s with ports := { s.ports with wrOk := s.ports.wrOk.set q none, ovf := s.ports.ovf.set q false } }

/-- `hq_rd_valid` and `hq_rd_data` (R95). -/
def driveHq (r : Option Byte) (s : State) : State := { s with ports := { s.ports with hqRd := r } }

/-- PORT.ARRIVE: P.ARRIVE q, b (R95, R139). -/
def execPortArrive (q : Link) (b : Byte) (s : State) : Out := .next (pArrive q b s)
/-- PORT.IDLE: no operation; `rx_data` is ignored (R95). -/
def execPortIdle (q : Link) (_d : Byte) (s : State) : Out := .next (idleArrive q s)
/-- PORT.HQREAD: Q.READ HOST_LINK, the result on the pins (R95, R136). -/
def execPortHqread (s : State) : Out :=
  match qRead s.cfg.hostLink s with
  | .ok (r, t) => .next (driveHq r t)
  | .error f => .fault f
/-- PORT.HQIDLE: no operation (R95). -/
def execPortHqidle (s : State) : Out := .next (driveHq none s)

end Sys2Proof.Machine
end

