-- ==== Sys2Proof/Machine/Reserved.lean ====
section
/-! DEFINITION. The reserved stimulus opcodes: "a script that contains one is ill-formed and a model refuses it"
(30_encoding R108, R120). -/
namespace Sys2Proof.Machine

/-- RESERVED.9 (R120). -/
def execReserved9 (_x : BitVec 12) (_s : State) : Out := .refused (.reservedOpcode 0x9#4)
/-- RESERVED.A (R120). -/
def execReservedA (_x : BitVec 12) (_s : State) : Out := .refused (.reservedOpcode 0xA#4)
/-- RESERVED.B (R120). -/
def execReservedB (_x : BitVec 12) (_s : State) : Out := .refused (.reservedOpcode 0xB#4)
/-- RESERVED.C (R120). -/
def execReservedC (_x : BitVec 12) (_s : State) : Out := .refused (.reservedOpcode 0xC#4)
/-- RESERVED.D (R120). -/
def execReservedD (_x : BitVec 12) (_s : State) : Out := .refused (.reservedOpcode 0xD#4)
/-- RESERVED.E (R120). -/
def execReservedE (_x : BitVec 12) (_s : State) : Out := .refused (.reservedOpcode 0xE#4)
/-- RESERVED.F (R120). -/
def execReservedF (_x : BitVec 12) (_s : State) : Out := .refused (.reservedOpcode 0xF#4)

end Sys2Proof.Machine
end

