-- ==== Sys2Proof/Machine/Dispatch.lean ====
section
/-! DEFINITION. The dispatch: one arm per row of spec/opcode_table.json. -/
namespace Sys2Proof.Machine

def exec (i : Instr) (s : State) : Host.Outcome State Fault Refusal :=
  match i with
  | .reset => Sys2Proof.Machine.execReset s
  | .init q => Sys2Proof.Machine.execInit q s
  | .arriveOk q b => Sys2Proof.Machine.execArriveOk q b s
  | .arriveFull q b => Sys2Proof.Machine.execArriveFull q b s
  | .writeOk q b => Sys2Proof.Machine.execWriteOk q b s
  | .writeFull q b => Sys2Proof.Machine.execWriteFull q b s
  | .readSome q => Sys2Proof.Machine.execReadSome q s
  | .readNone q => Sys2Proof.Machine.execReadNone q s
  | .stepByte => Sys2Proof.Machine.execStepByte s
  | .stepEmpty => Sys2Proof.Machine.execStepEmpty s
  | .feed b => Sys2Proof.Machine.execFeed b s
  | .syncw q mv => Sys2Proof.Machine.execSyncw q mv s
  | .syncr q mv => Sys2Proof.Machine.execSyncr q mv s
  | .reserved9 x => Sys2Proof.Machine.execReserved9 x s
  | .reservedA x => Sys2Proof.Machine.execReservedA x s
  | .reservedB x => Sys2Proof.Machine.execReservedB x s
  | .reservedC x => Sys2Proof.Machine.execReservedC x s
  | .reservedD x => Sys2Proof.Machine.execReservedD x s
  | .reservedE x => Sys2Proof.Machine.execReservedE x s
  | .reservedF x => Sys2Proof.Machine.execReservedF x s
  | .portArrive q b => Sys2Proof.Machine.execPortArrive q b s
  | .portIdle q d => Sys2Proof.Machine.execPortIdle q d s
  | .portHqread => Sys2Proof.Machine.execPortHqread s
  | .portHqidle => Sys2Proof.Machine.execPortHqidle s
  | .feedTermCr => Sys2Proof.Machine.execFeedTermCr s
  | .feedTermLf => Sys2Proof.Machine.execFeedTermLf s
  | .feedData b => Sys2Proof.Machine.execFeedData b s
  | .feedOvf b => Sys2Proof.Machine.execFeedOvf b s
  | .handleFix t => Sys2Proof.Machine.execHandleFix t s
  | .handleEcho t => Sys2Proof.Machine.execHandleEcho t s
  | .parseOk t => Sys2Proof.Machine.execParseOk t s
  | .parseErr t => Sys2Proof.Machine.execParseErr t s
  | .oLine t => Sys2Proof.Machine.execOLine t s
  | .dec2f t => Sys2Proof.Machine.execDec2f t s
  | .div100 x => Sys2Proof.Machine.execDiv100 x s
  | .neg x => Sys2Proof.Machine.execNeg x s
  | .fmt x n => Sys2Proof.Machine.execFmt x n s

end Sys2Proof.Machine
end

