-- ==== Sys2Proof/WellFormed.lean ====
section
/-! DEFINITION. Which terms of `Instr` are rows with operands the table gives them. -/
namespace Sys2Proof

/-- A finite value of one of the two formats (the operand of N.DIV100, N.NEG and N.FMT: R236, R237, R239). DESIGN CHOICE
(log 24): well-formedness does not know the machine's format, so a binary64 value is well-formed on a binary32 machine
too, where it may be no value. -/
def isOperandFp (x : Fp) : Bool :=
  Machine.isFmtValue .binary32 x || Machine.isFmtValue .binary64 x

/-- The operand conditions that do not depend on state: DATA bytes (R93), sentences (R170) routed by their first six
bytes (R103), numeric fields (R99), finite numbers (R238). A reserved word is never well-formed (R120).
The step does not ask for well-formedness: what a HANDLE does on a text that is no sentence is log 23. -/
def Instr.wellFormed : Instr → Bool
  | .reset => true
  | .init _ => true
  | .arriveOk _ _ => true
  | .arriveFull _ _ => true
  | .writeOk _ _ => true
  | .writeFull _ _ => true
  | .readSome _ => true
  | .readNone _ => true
  | .stepByte => true
  | .stepEmpty => true
  | .feed _ => true
  | .syncw _ _ => true
  | .syncr _ _ => true
  | .reserved9 _ => false
  | .reservedA _ => false
  | .reservedB _ => false
  | .reservedC _ => false
  | .reservedD _ => false
  | .reservedE _ => false
  | .reservedF _ => false
  | .portArrive _ _ => true
  | .portIdle _ _ => true
  | .portHqread => true
  | .portHqidle => true
  | .feedTermCr => true
  | .feedTermLf => true
  | .feedData b => !Machine.isTerm b
  | .feedOvf b => !Machine.isTerm b
  | .handleFix s => Machine.isSentence s && Machine.hasTag s
  | .handleEcho s => Machine.isSentence s && !Machine.hasTag s
  | .parseOk _ => true
  | .parseErr _ => true
  | .oLine _ => true
  | .dec2f t => Machine.isNum t
  | .div100 x => isOperandFp x
  | .neg x => isOperandFp x
  | .fmt x _ => isOperandFp x

end Sys2Proof
end

