-- ==== Sys2Proof/Decode.lean ====
section
/-! DEFINITION. Decoding of stimuli, total, rejecting by name, and then the encoder (30_encoding R95, R102 to R104,
R120; opcode_table.json). -/
namespace Sys2Proof

/-- The link numbered by bit [8] of a word (R120). -/
def linkOfBit (b : Bool) : Link := if b then .link1 else .link0

/-- The link's number as a bit. -/
def bitOfLink : Link → Nat
  | .link0 => 0
  | .link1 => 1

/-- Bits [15:12], the opcode (R120). -/
def opField (w : BitVec 16) : Nat := (w.extractLsb' 12 4).toNat
/-- Bits [11:9], which must be zero (R120). -/
def zeroField (w : BitVec 16) : Bool := w.extractLsb' 9 3 == 0#3
/-- Bit [8], the queue `q` (R120). -/
def linkField (w : BitVec 16) : Link := linkOfBit (w.getLsbD 8)
/-- Bits [7:0], the byte `b` (R120). -/
def byteField (w : BitVec 16) : Byte := w.extractLsb' 0 8
/-- The word uses neither `q` nor `b`, and both are zero (R120). -/
def noOperand (w : BitVec 16) : Bool := w.extractLsb' 0 12 == 0#12
/-- The word uses `q` only, and the rest is zero (R120). -/
def linkOnly (w : BitVec 16) : Bool := zeroField w && byteField w == 0#8
/-- The word uses `b` only, and the rest is zero (R120). -/
def byteOnly (w : BitVec 16) : Bool := zeroField w && !w.getLsbD 8

/-- `i`, unless a field that must be zero is not (R120). -/
def orNonZero (w : BitVec 16) (ok : Bool) (i : Instr) : Except DecodeError Instr :=
  if ok then .ok i else .error (.nonZeroField w)

/-- Format S16 (R120). Where a word has two rows told apart by state, the first of them is named (R104). -/
def decode16 (w : BitVec 16) : Except DecodeError Instr :=
  match opField w with
  | 0x0 => orNonZero w (noOperand w) .reset
  | 0x1 => orNonZero w (linkOnly w) (.init (linkField w))
  | 0x2 => orNonZero w (zeroField w) (.arriveOk (linkField w) (byteField w))
  | 0x3 => orNonZero w (zeroField w) (.writeOk (linkField w) (byteField w))
  | 0x4 => orNonZero w (linkOnly w) (.readSome (linkField w))
  | 0x5 => orNonZero w (noOperand w) .stepByte
  | 0x6 => orNonZero w (byteOnly w) (.feed (byteField w))
  | 0x7 => orNonZero w (linkOnly w) (.syncw (linkField w) .full)
  | 0x8 => orNonZero w (linkOnly w) (.syncr (linkField w) .full)
  | 0x9 => .ok (.reserved9 (w.extractLsb' 0 12))
  | 0xA => .ok (.reservedA (w.extractLsb' 0 12))
  | 0xB => .ok (.reservedB (w.extractLsb' 0 12))
  | 0xC => .ok (.reservedC (w.extractLsb' 0 12))
  | 0xD => .ok (.reservedD (w.extractLsb' 0 12))
  | 0xE => .ok (.reservedE (w.extractLsb' 0 12))
  | _ => .ok (.reservedF (w.extractLsb' 0 12))

/-- Format P9, `{rx_valid, rx_data[7:0]}` on the producer port of link `q` (R95). -/
def decode9 (q : Link) (w : BitVec 9) : Instr :=
  if w.getLsbD 8 then .portArrive q (w.extractLsb' 0 8) else .portIdle q (w.extractLsb' 0 8)

/-- Format R1, `hq_rd_en` (R95). -/
def decode1 (w : BitVec 1) : Instr := if w.getLsbD 0 then .portHqread else .portHqidle

/-- Format BYTE8: the byte class, terminator first (R93, R102). -/
def decode8 (b : Byte) : Instr :=
  if b = 0x0D#8 then .feedTermCr else if b = 0x0A#8 then .feedTermLf else .feedData b

/-- Format PREFIX48: the routing test on the first six bytes (R103). DESIGN CHOICE (log 23): a text that R170 and R180
exclude (empty, over 255 bytes, or holding CR or LF) is routed like a sentence, and D.HANDLE runs on it. -/
def decodeSentence (s : List Byte) : Instr := if Machine.hasTag s then .handleFix s else .handleEcho s

/-- The rows of format FUNC as they are requested, the first of two that share a calling condition, and the partial
moves of R141 and R142; every other row has a bit pattern and is refused here (R104). -/
def decodeDirect : Instr → Except DecodeError Instr
  | .parseOk s => .ok (.parseOk s)
  | .oLine s => .ok (.oLine s)
  | .dec2f t => .ok (.dec2f t)
  | .div100 x => .ok (.div100 x)
  | .neg x => .ok (.neg x)
  | .fmt x n => .ok (.fmt x n)
  | .syncw q (.upTo k) => .ok (.syncw q (.upTo k))
  | .syncr q (.upTo k) => .ok (.syncr q (.upTo k))
  | i => .error (.hasBitPattern i)

/-- The operation a stimulus requests, or the reason it is none. -/
def decode : Stim → Except DecodeError Instr
  | .word16 w => decode16 w
  | .port9 q w => .ok (decode9 q w)
  | .port1 w => .ok (decode1 w)
  | .byte8 b => .ok (decode8 b)
  | .sentence s => .ok (decodeSentence s)
  | .direct i => decodeDirect i
  | .unknown nbits w => .error (.unknownFormat nbits w)

/-- The six bytes of a 48-bit word, `s[0]` in the most significant (R103). -/
def prefixBytes (w : Nat) : List Byte :=
  [BitVec.ofNat 8 (w / 2 ^ 40), BitVec.ofNat 8 (w / 2 ^ 32), BitVec.ofNat 8 (w / 2 ^ 24),
   BitVec.ofNat 8 (w / 2 ^ 16), BitVec.ofNat 8 (w / 2 ^ 8), BitVec.ofNat 8 w]

/-- The stimulus that bits numbered as opcode_table.json numbers them stand for: the width names the format. A P9 word
carries no link number and is taken on link 1; padded to 16 bits it is known where S16 has no word (log 12). -/
def stimOf (nbits w : Nat) : Stim :=
  match nbits with
  | 1 => .port1 (BitVec.ofNat 1 w)
  | 8 => .byte8 (BitVec.ofNat 8 w)
  | 9 => .port9 .link1 (BitVec.ofNat 9 w)
  | 16 => if 0 < w ∧ w < 0x200 then .port9 .link1 (BitVec.ofNat 9 w) else .word16 (BitVec.ofNat 16 w)
  | 48 => .sentence (prefixBytes w)
  | _ => .unknown nbits w

/-- The instruction the decoder reads from a row's bits. -/
def decodeTableWord (nbits w : Nat) : Option Instr :=
  match decode (stimOf nbits w) with
  | .ok i => some i
  | .error _ => none

/-- A 16-bit word from its fields (R120). -/
def word16Of (op : Nat) (q : Nat) (b : Byte) : Stim := .word16 (BitVec.ofNat 16 (0x1000 * op + 0x100 * q + b.toNat))

/-- A reserved word from its opcode and its other bits (R120). -/
def reservedWord (op : Nat) (x : BitVec 12) : Stim := .word16 (BitVec.ofNat 16 (0x1000 * op + x.toNat))

/-- The stimulus that requests an operation, from the encoding tables of R95, R102, R103 and R120. -/
def encode : Instr → Stim
  | .reset => word16Of 0x0 0 0
  | .init q => word16Of 0x1 (bitOfLink q) 0
  | .arriveOk q b => word16Of 0x2 (bitOfLink q) b
  | .arriveFull q b => word16Of 0x2 (bitOfLink q) b
  | .writeOk q b => word16Of 0x3 (bitOfLink q) b
  | .writeFull q b => word16Of 0x3 (bitOfLink q) b
  | .readSome q => word16Of 0x4 (bitOfLink q) 0
  | .readNone q => word16Of 0x4 (bitOfLink q) 0
  | .stepByte => word16Of 0x5 0 0
  | .stepEmpty => word16Of 0x5 0 0
  | .feed b => word16Of 0x6 0 b
  | .syncw q .full => word16Of 0x7 (bitOfLink q) 0
  | .syncw q (.upTo k) => .direct (.syncw q (.upTo k))
  | .syncr q .full => word16Of 0x8 (bitOfLink q) 0
  | .syncr q (.upTo k) => .direct (.syncr q (.upTo k))
  | .reserved9 x => reservedWord 0x9 x
  | .reservedA x => reservedWord 0xA x
  | .reservedB x => reservedWord 0xB x
  | .reservedC x => reservedWord 0xC x
  | .reservedD x => reservedWord 0xD x
  | .reservedE x => reservedWord 0xE x
  | .reservedF x => reservedWord 0xF x
  | .portArrive q b => .port9 q (BitVec.ofNat 9 (0x100 + b.toNat))
  | .portIdle q d => .port9 q (BitVec.ofNat 9 d.toNat)
  | .portHqread => .port1 1#1
  | .portHqidle => .port1 0#1
  | .feedTermCr => .byte8 0x0D#8
  | .feedTermLf => .byte8 0x0A#8
  | .feedData b => .byte8 b
  | .feedOvf b => .byte8 b
  | .handleFix s => .sentence s
  | .handleEcho s => .sentence s
  | .parseOk s => .direct (.parseOk s)
  | .parseErr s => .direct (.parseOk s)
  | .oLine s => .direct (.oLine s)
  | .dec2f t => .direct (.dec2f t)
  | .div100 x => .direct (.div100 x)
  | .neg x => .direct (.neg x)
  | .fmt x n => .direct (.fmt x n)

/-- The row the decoder names for an instruction's bits: the first of the rows that share them (R104). -/
def wordRow : Instr → Instr
  | .arriveFull q b => .arriveOk q b
  | .writeFull q b => .writeOk q b
  | .readNone q => .readSome q
  | .stepEmpty => .stepByte
  | .feedOvf b => .feedData b
  | .parseErr s => .parseOk s
  | i => i

end Sys2Proof
end

