-- ==== Sys2Proof/Machine/Rows.lean ====
section
/-! DEFINITION. Which row a state selects among those that share a bit pattern (30_encoding R104), and which agent's
operation a row is (00_scope R6, 30_encoding R92). -/
namespace Sys2Proof.Machine

/-- The row whose `cond` in opcode_table.json the state meets (R104). -/
def selectRow (s : State) : Instr → Instr
  | .arriveOk q b => if fullW s q then .arriveFull q b else .arriveOk q b
  | .arriveFull q b => if fullW s q then .arriveFull q b else .arriveOk q b
  | .writeOk q b => if fullW s q then .writeFull q b else .writeOk q b
  | .writeFull q b => if fullW s q then .writeFull q b else .writeOk q b
  | .readSome q => if emptyR s q then .readNone q else .readSome q
  | .readNone q => if emptyR s q then .readNone q else .readSome q
  | .stepByte => if emptyR s s.cfg.gnssLink then .stepEmpty else .stepByte
  | .stepEmpty => if emptyR s s.cfg.gnssLink then .stepEmpty else .stepByte
  | .feedData b => if accFull s then .feedOvf b else .feedData b
  | .feedOvf b => if accFull s then .feedOvf b else .feedData b
  | .parseOk t => if (parseFix s.cfg.fmt t).isSome then .parseOk t else .parseErr t
  | .parseErr t => if (parseFix s.cfg.fmt t).isSome then .parseOk t else .parseErr t
  | i => i

/-- The agent whose operation a row is (R92, R273): Q.READ HOST_LINK is the environment's. DESIGN CHOICE (log 22): an
O.LINE applied alone is the environment's, where R92 says only "the emitting agent"; so are the port words that request
nothing and the refused words, to which R92 gives no agent. -/
def agentOf (p : Params) : Instr → Agent
  | .reset => .boot
  | .init _ => .boot
  | .arriveOk q _ => .prod q
  | .arriveFull q _ => .prod q
  | .writeOk q _ => .prod q
  | .writeFull q _ => .prod q
  | .readSome q => if q = p.gnssLink then .cons else .environment
  | .readNone q => if q = p.gnssLink then .cons else .environment
  | .stepByte => .cons
  | .stepEmpty => .cons
  | .feed _ => .cons
  | .syncw q _ => .syncW q
  | .syncr q _ => .syncR q
  | .reserved9 _ => .environment
  | .reservedA _ => .environment
  | .reservedB _ => .environment
  | .reservedC _ => .environment
  | .reservedD _ => .environment
  | .reservedE _ => .environment
  | .reservedF _ => .environment
  | .portArrive q _ => .prod q
  | .portIdle _ _ => .environment
  | .portHqread => .environment
  | .portHqidle => .environment
  | .feedTermCr => .cons
  | .feedTermLf => .cons
  | .feedData _ => .cons
  | .feedOvf _ => .cons
  | .handleFix _ => .cons
  | .handleEcho _ => .cons
  | .parseOk _ => .cons
  | .parseErr _ => .cons
  | .oLine _ => .environment
  | .dec2f _ => .cons
  | .div100 _ => .cons
  | .neg _ => .cons
  | .fmt _ _ => .cons

end Sys2Proof.Machine
end

