-- ==== Sys2Proof/Machine/Step.lean ====
section
/-! DEFINITION. One step of the machine: the next stimulus, or the turn of an agent that runs for ever (00_scope R6,
60_exceptions R269, 70_reset_and_hazards R322). -/
namespace Sys2Proof.Machine

/-- The operation of a background turn: C.STEP, or a full synchroniser move (R322, log 4). -/
def Turn.op : Turn → Instr
  | .cons => .stepByte
  | .syncW0 => .syncw .link0 .full
  | .syncR0 => .syncr .link0 .full
  | .syncW1 => .syncw .link1 .full
  | .syncR1 => .syncr .link1 .full

/-- Whose turn comes after (log 4). -/
def Turn.after : Turn → Turn
  | .cons => .syncW0
  | .syncW0 => .syncR0
  | .syncR0 => .syncW1
  | .syncW1 => .syncR1
  | .syncR1 => .cons

/-- The state in which the stimulus at the head of the script runs: it is taken off and the pins are idle (log 3, log 7). -/
def State.takeStim (s : State) (rest : List Stim) : State := { s with script := rest, ports := Ports.idle }

/-- The state in which the agent whose turn it is runs: the turn is passed on and the pins are idle (log 4, log 7). -/
def State.takeTurn (s : State) : State := { s with turn := s.turn.after, ports := Ports.idle }

/-- One atomic step of one agent (R6): the operation of the next stimulus, by the row the state selects (R104), or, with
no stimulus pending, the operation of the agent whose turn it is. -/
def step (s : State) : Host.Outcome State Fault Refusal :=
  match s.script with
  | [] => exec (selectRow s.takeTurn s.turn.op) s.takeTurn
  | x :: rest =>
    match decode x with
    | .ok i => exec (selectRow (s.takeStim rest) i) (s.takeStim rest)
    | .error e => .refused (.illFormed e)

/-- The state whose very next step runs the instruction of these bits: its stimulus is put in front of the script
(log 3, log 12). -/
def State.withFetchWord (s : State) (nbits w : Nat) : State := { s with script := stimOf nbits w :: s.script }

end Sys2Proof.Machine
end

