-- ==== Sys2Proof/Machine/Readings.lean ====
section
/-! DEFINITION. The grammar and the number formats said a second way, for claims to compare the parser and the
arithmetic with: the grammar as a shape (30_encoding R99, R111), values as rationals (44_numerics R230). -/
namespace Sys2Proof.Machine

/-! The grammar. -/

/-- A DIGIT (R99). -/
def IsDigitByte (b : Byte) : Prop := 0x30 ≤ b.toNat ∧ b.toNat ≤ 0x39

/-- `NUM := [ '-' ] DIGIT { DIGIT } [ '.' DIGIT { DIGIT } ]`, with the digits before and after the point (R99). -/
def NumShape (neg : Bool) (whole frac t : List Byte) : Prop :=
  whole ≠ [] ∧ (∀ b ∈ whole ++ frac, IsDigitByte b) ∧
    t = (if neg then [0x2D#8] else []) ++ whole ++ (if frac = [] then [] else 0x2E#8 :: frac)

/-- Fields joined by commas (R98, R111). -/
def joinFields : List (List Byte) → List Byte
  | [] => []
  | [f] => f
  | f :: fs => f ++ 0x2C#8 :: joinFields fs

/-- The fields of the position-fix sentence whose content is examined (R94): latitude, its letter, longitude, its
letter, altitude. -/
structure FixFields where
  lat : List Byte
  ns : List Byte
  lon : List Byte
  ew : List Byte
  alt : List Byte

/-- `GGA := TAG ',' IGN ',' NUM ',' NS ',' NUM ',' EW ',' IGN ',' IGN ',' IGN ',' NUM { ',' IGN }` (R111), the numeric
fields left to `NumShape`. -/
def GgaShape (g : FixFields) (s : List Byte) : Prop :=
  ∃ time quality sats hdop : List Byte, ∃ rest : List (List Byte),
    let fields := [[0x24#8, 0x47#8, 0x50#8, 0x47#8, 0x47#8, 0x41#8], time, g.lat, g.ns, g.lon, g.ew, quality, sats, hdop,
      g.alt] ++ rest
    s = joinFields fields ∧ (∀ f ∈ fields, 0x2C#8 ∉ f) ∧
      (g.ns = [0x4E#8] ∨ g.ns = [0x53#8]) ∧ (g.ew = [0x45#8] ∨ g.ew = [0x57#8])

/-- Some reading of a field as a NUM (R99). -/
def IsNumField (t : List Byte) : Prop := ∃ neg whole frac, NumShape neg whole frac t

/-! Values. -/

/-- A fraction as a rational. -/
def Frac.toRat (a : Frac) : ℚ := (a.num : ℚ) / (a.den : ℚ)

/-- `val(t)` of a numeral: `(-1)^neg * digits / 10^scale` (R99). -/
def Numeral.value (n : Numeral) : ℚ := (if n.neg then -1 else 1) * ((n.digits : ℚ) / 10 ^ n.scale)

/-- The value of a finite pattern (R230). -/
def valueOf (f : Fmt) (x : Fp) : ℚ :=
  (if signBit f x then -1 else 1) * ((significand f x : ℚ) * (2 : ℚ) ^ unitExp f x)

/-- The unit of the last place of a pattern: the weight of the lowest bit of its significand (R230, R232). -/
def ulp (f : Fmt) (x : Fp) : ℚ := (2 : ℚ) ^ unitExp f x

/-- The integer a string of decimal digits reads as, most significant first (R99, R239). -/
def readDigits : List Byte → Nat → Nat
  | [], v => v
  | b :: t, v => readDigits t (10 * v + (b.toNat - 0x30))

end Sys2Proof.Machine
end

