-- ==== Sys2Proof/Machine/Script.lean ====
section
/-! DEFINITION. The pseudo-operations of the script language and their expansions (30_encoding R121). -/
namespace Sys2Proof.Machine

/-- `SEND q, "text"`: `ARRIVE q, b` for each byte in order (R121). -/
def sendOps (q : Link) (text : List Byte) : List Instr := text.map (fun b => .arriveOk q b)

/-- `FEEDS "text"`: `FEED b` for each byte in order (R121). -/
def feedOps (text : List Byte) : List Instr := text.map (fun b => .feed b)

/-- `DRAIN`: `SYNCR GNSS_LINK`, then `STEP` until a `STEP` finds the queue empty: one for each byte held, and the one
that finds it empty (R121). -/
def drainOps (s : State) : List Instr :=
  .syncr s.cfg.gnssLink .full :: List.replicate (count s s.cfg.gnssLink + 1) .stepByte

/-- The stimuli of a list of operations. -/
def scriptOf (is : List Instr) : List Stim := is.map encode

end Sys2Proof.Machine
end

