-- ==== Sys2Proof/Safety.lean ====
section
/-! DEFINITION. What holds in every good state, what an observer may see, and the frames claims are stated in. -/
namespace Sys2Proof.Machine

/-! Good states. -/

/-- The bytes at indices `a`, `a + 1`, … of a queue's storage, `n` of them, round the index circle. -/
def heldFrom (m : Mem) (a : Index) : Nat → Option (List Byte)
  | 0 => some []
  | n + 1 =>
    match memRead m a.toNat, heldFrom m (a + 1#8) n with
    | some b, some t => some (b :: t)
    | _, _ => none

/-- The bytes a queue holds, oldest first: `QST[tail], QST[tail + 1 mod C], …, QST[head - 1 mod C]` (R71). -/
def Queue.held (v : Queue) : Option (List Byte) := heldFrom v.qst v.cons.tail (v.prod.head - v.cons.tail).toNat

/-- The span of the four indices in the direction of increasing index (R39). -/
def Queue.span (v : Queue) : Nat :=
  (v.cons.tail - v.prod.tailW).toNat + (v.cons.headR - v.cons.tail).toNat + (v.prod.head - v.cons.headR).toNat

/-- A good queue: the view invariant (R39), every held cell written (R68), the storage in its canonical form, and in
`exact` mode the views equal to the indices (R37, R38). -/
structure QueueInv (mode : SyncMode) (v : Queue) : Prop where
  span : v.span ≤ Config.C - 1
  written : ∃ t, v.held = some t
  cells : Mem.wf Config.C v.qst
  views : mode = .exact → v.prod.tailW = v.cons.tail ∧ v.cons.headR = v.prod.head

/-- A good framer: the bytes before the cursor are written and none is a terminator (R26); canonical storage. -/
structure FramerInv (s : State) : Prop where
  collected : ∃ t, memRun s.acc 0 s.cursor.toNat = some t ∧ ∀ b ∈ t, isTerm b = false
  cells : Mem.wf Config.L s.acc

/-- A pattern of the format that is a finite value: no bit above the width, the exponent field not all ones (R230, R238). -/
abbrev IsValue (f : Fmt) (x : Fp) : Prop := x.toNat < 2 ^ width f ∧ isFinite f x = true

/-- A good record: three finite values of the format (R34), still the startup record while `fix_valid` is 0 (R35). -/
structure FixInv (s : State) : Prop where
  lat : IsValue s.cfg.fmt s.fix.lat
  lon : IsValue s.cfg.fmt s.fix.lon
  alt : IsValue s.cfg.fmt s.fix.alt
  unset : s.fixValid = false → s.fix = PositionFix.zero

/-- A good state. A safe run is one of good states only; none of them faults. -/
structure Inv (s : State) : Prop where
  queues : ∀ q, QueueInv s.cfg.syncMode (s.queue q)
  framer : FramerInv s
  record : FixInv s

/-! Observation (R8). -/

/-- The line an event shows as (R96, R186). -/
def lineOf (f : Fmt) : Event → List Byte
  | .queueFull q _ => qfullText q
  | .sentenceOverflow _ => ovfText
  | .sentence s => s
  | .parseError _ => badfixText
  | .fixUpdate r => fixText f r

/-- The output that belongs to a log: the banner line, then one line per event in order (R186). -/
def outOf (p : Params) (evs : List Event) : List Byte :=
  bannerBytes p.banner ++ evs.flatMap (fun e => lineBytes (lineOf p.fmt e))

/-- An operation of the block itself, not one of its inner functions applied alone (R121; log 16). -/
def isBlockOp : Instr → Bool
  | .handleFix _ => false
  | .handleEcho _ => false
  | .parseOk _ => false
  | .parseErr _ => false
  | .oLine _ => false
  | _ => true

/-- The events whose line is the second line of a C.STEP (R185). -/
def isSecondLine : Event → Bool
  | .parseError _ => true
  | .fixUpdate _ => true
  | _ => false

/-- The events whose line is a producer's (R185). -/
def isProducerLine : Event → Bool
  | .queueFull _ _ => true
  | _ => false

/-- `Placed evs seen`: `seen` is `evs` with producer lines placed anywhere between a sentence's ECHO line and the second
line of its step (R185; log 13). -/
inductive Placed (evs : List Event) : List Event → Prop where
  | asLogged : Placed evs evs
  | between (before after : List Event) (d p : Event) (hd : isSecondLine d = true) (hp : isProducerLine p = true)
      (h : Placed evs (before ++ d :: p :: after)) : Placed evs (before ++ p :: d :: after)

/-- What the host may have been sent in a state reached by operations of the block (R8, R76, R185). -/
def mayObserve (s : State) (seen : List Byte) : Prop := ∃ evs, Placed s.ev evs ∧ seen = outOf s.cfg evs

/-! Frames. -/

/-- Queue `q` is as before: its indices, its views, and every cell. -/
def KeepsQueue (q : Link) (s t : State) : Prop :=
  t.head q = s.head q ∧ t.tail q = s.tail q ∧ t.tailW q = s.tailW q ∧ t.headR q = s.headR q ∧
    ∀ a, memRead (t.qst q) a = memRead (s.qst q) a

/-- The framer is as before: its cursor and every cell of the accumulator. -/
def KeepsFramer (s t : State) : Prop := t.cursor = s.cursor ∧ ∀ a, memRead t.acc a = memRead s.acc a

/-- The record is as before. -/
def KeepsFix (s t : State) : Prop := t.fix = s.fix ∧ t.fixValid = s.fixValid

/-- The output and the event log are as before. -/
def KeepsLogs (s t : State) : Prop := t.out = s.out ∧ t.ev = s.ev

/-- The parameters, the script and the turn are as before. -/
def KeepsModel (s t : State) : Prop := t.cfg = s.cfg ∧ t.script = s.script ∧ t.turn = s.turn

/-! Runs. -/

/-- The operations one after another, stopping at the first fault or refusal. -/
def execAll : List Instr → State → Out
  | [], s => .next s
  | i :: is, s =>
    match exec i s with
    | .next t => execAll is t
    | .fault f => .fault f
    | .refused r => .refused r

/-- What the two sides and the synchronisers of one queue do. -/
inductive QueueOp where
  | write (b : Byte)
  | read
  | syncw (mv : Move)
  | syncr (mv : Move)

/-- The operation on queue `q`. -/
def QueueOp.instr (q : Link) : QueueOp → Instr
  | .write b => .writeOk q b
  | .read => .readSome q
  | .syncw mv => .syncw q mv
  | .syncr mv => .syncr q mv

/-- A run of operations on queue `q`: the bytes the writes that returned `true` stored, the bytes the reads returned,
each in order, and the last state. -/
def queueRun (q : Link) : List QueueOp → State → Option (List Byte × List Byte × State)
  | [], s => some ([], [], s)
  | o :: os, s =>
    match exec (o.instr q) s with
    | .next t =>
      match queueRun q os t, o, t.results.getLast? with
      | some (taken, given, u), .write b, some (.wrote true) => some (b :: taken, given, u)
      | some (taken, given, u), .read, some (.read (some v)) => some (taken, v :: given, u)
      | r, _, _ => r
    | _ => none

end Sys2Proof.Machine
end

