-- ==== Sys2Proof/Certificates/Slice0/Obligations.lean ====
section
/-! DEFINITION. The statements for the provers, family by family of the opcode table. -/
open Sys2Proof Sys2Proof.Machine

/-! Encoding and the step. -/

/-- Words written out from the tables of R95, R102, R103 and R120 decode to their operations. -/
def Obligations.SpecWordsDecodeToTheirOperations : Prop :=
  decode (.word16 0x0000#16) = .ok .reset ∧
  decode (.word16 0x1100#16) = .ok (.init .link1) ∧
  decode (.word16 0x2124#16) = .ok (.arriveOk .link1 0x24#8) ∧
  decode (.word16 0x2068#16) = .ok (.arriveOk .link0 0x68#8) ∧
  decode (.word16 0x31EE#16) = .ok (.writeOk .link1 0xEE#8) ∧
  decode (.word16 0x4100#16) = .ok (.readSome .link1) ∧
  decode (.word16 0x5000#16) = .ok .stepByte ∧
  decode (.word16 0x600D#16) = .ok (.feed 0x0D#8) ∧
  decode (.word16 0x7100#16) = .ok (.syncw .link1 .full) ∧
  decode (.word16 0x8000#16) = .ok (.syncr .link0 .full) ∧
  decode (.word16 0x9001#16) = .ok (.reserved9 0x001#12) ∧
  decode (.port9 .link0 0b101000001#9) = .ok (.portArrive .link0 0x41#8) ∧
  decode (.port9 .link0 0b001000001#9) = .ok (.portIdle .link0 0x41#8) ∧
  decode (.port1 1#1) = .ok .portHqread ∧
  decode (.port1 0#1) = .ok .portHqidle ∧
  decode (.byte8 0x0D#8) = .ok .feedTermCr ∧
  decode (.byte8 0x0A#8) = .ok .feedTermLf ∧
  decode (.byte8 0x0B#8) = .ok (.feedData 0x0B#8) ∧
  decode (.sentence (prefixBytes 0x244750474741)) = .ok (.handleFix [0x24#8, 0x47#8, 0x50#8, 0x47#8, 0x47#8, 0x41#8])

/-- Decoding what the encoder writes gives the instruction back, whatever its operands: itself, or the first of the two
rows that share its bits (R104). -/
def Obligations.EveryWellFormedRowRoundTrips : Prop :=
  ∀ i : Instr, i.wellFormed = true → decode (encode i) = .ok (wordRow i)

/-- Every stimulus that is an operation is the one the encoder writes for it: no bit of a word is dropped. -/
def Obligations.EveryStimulusRoundTrips : Prop :=
  ∀ (x : Stim) (i : Instr), decode x = .ok i → encode i = x

/-- A word of a defined opcode with a non-zero must-be-zero field, or a non-zero `q` or `b` that its operation does not
use, is refused by name (R120). -/
def Obligations.WordsWithNonZeroUnusedFieldsAreRefused : Prop :=
  ∀ (s : State) (w : BitVec 16) (rest : List Stim), s.script = .word16 w :: rest → w.toNat / 0x1000 ≤ 8 →
    (w.toNat / 0x200 % 8 ≠ 0 ∨
      (w.toNat / 0x1000 ∉ [1, 2, 3, 4, 7, 8] ∧ w.toNat / 0x100 % 2 ≠ 0) ∨
      (w.toNat / 0x1000 ∉ [2, 3, 6] ∧ w.toNat % 0x100 ≠ 0)) →
    step s = .refused (.illFormed (.nonZeroField w))

/-- The rows RESERVED.9 to RESERVED.F refuse, and so does a step whose word has such an opcode (R108, R120). -/
def Obligations.ReservedOpcodesAreRefused : Prop :=
  (∀ (x : BitVec 12) (s : State),
    exec (.reserved9 x) s = .refused (.reservedOpcode 0x9#4) ∧ exec (.reservedA x) s = .refused (.reservedOpcode 0xA#4) ∧
    exec (.reservedB x) s = .refused (.reservedOpcode 0xB#4) ∧ exec (.reservedC x) s = .refused (.reservedOpcode 0xC#4) ∧
    exec (.reservedD x) s = .refused (.reservedOpcode 0xD#4) ∧ exec (.reservedE x) s = .refused (.reservedOpcode 0xE#4) ∧
    exec (.reservedF x) s = .refused (.reservedOpcode 0xF#4)) ∧
  (∀ (s : State) (w : BitVec 16) (rest : List Stim), s.script = .word16 w :: rest → 9 ≤ w.toNat / 0x1000 →
    step s = .refused (.reservedOpcode (BitVec.ofNat 4 (w.toNat / 0x1000))))

/-- A step whose next stimulus decodes to an operation is that operation, in the state with the stimulus taken off the
script and the pins idle (logs 3 and 7). -/
def Obligations.StepRunsTheDecodedOperation : Prop :=
  ∀ (s : State) (x : Stim) (rest : List Stim) (i : Instr), s.script = x :: rest → decode x = .ok i →
    step s = exec i { s with script := rest, ports := Ports.idle }

/-- With no stimulus pending a step is the operation of the agent whose turn it is: C.STEP, or a full synchroniser move
(log 4, the model's choice of a fair schedule). -/
def Obligations.StepWithoutStimulusTakesTheTurn : Prop :=
  ∀ s : State, s.script = [] →
    (s.turn = .cons → step s = exec .stepByte { s with turn := .syncW0, ports := Ports.idle }) ∧
    (s.turn = .syncW0 → step s = exec (.syncw .link0 .full) { s with turn := .syncR0, ports := Ports.idle }) ∧
    (s.turn = .syncR0 → step s = exec (.syncr .link0 .full) { s with turn := .syncW1, ports := Ports.idle }) ∧
    (s.turn = .syncW1 → step s = exec (.syncw .link1 .full) { s with turn := .syncR1, ports := Ports.idle }) ∧
    (s.turn = .syncR1 → step s = exec (.syncr .link1 .full) { s with turn := .cons, ports := Ports.idle })

/-! RESET and INIT. -/

/-- RESET from any state: every value of R44, the banner line, the cells not written, and nothing outside the block's
own state changed (R300; log 19 for the last). -/
def Obligations.ResetLeavesTheSpecValues : Prop :=
  ∀ s : State, ∃ t, exec .reset s = .next t ∧
    (∀ q, t.head q = 0#8 ∧ t.tail q = 0#8 ∧ t.tailW q = 0#8 ∧ t.headR q = 0#8 ∧
      ∀ a, memRead (t.qst q) a = memRead (s.qst q) a) ∧
    t.cursor = 0#8 ∧ (∀ a, memRead t.acc a = memRead s.acc a) ∧
    t.fix = { lat := 0#64, lon := 0#64, alt := 0#64 } ∧ t.fixValid = false ∧ t.ev = [] ∧
    (s.cfg.banner = none → t.out = []) ∧ (∀ text, s.cfg.banner = some text → t.out = text ++ [0x0A#8]) ∧
    t.results = s.results ∧ KeepsModel s t

/-- Q.INIT empties one queue in whatever state it is, touches nothing else, and applied twice does what it does once
(R131). -/
def Obligations.InitEmptiesOneQueue : Prop :=
  ∀ (q : Link) (s : State), ∃ t, exec (.init q) s = .next t ∧ exec (.init q) t = .next t ∧
    t.head q = 0#8 ∧ t.tail q = 0#8 ∧ t.tailW q = 0#8 ∧ t.headR q = 0#8 ∧
    (∀ a, memRead (t.qst q) a = memRead (s.qst q) a) ∧
    empty t q = true ∧ full t q = false ∧ count t q = 0 ∧
    KeepsQueue q.other s t ∧ KeepsFramer s t ∧ KeepsFix s t ∧ KeepsLogs s t ∧ KeepsModel s t ∧
    t.results = s.results ∧ t.ports = s.ports

/-! Q.WRITE, Q.READ, P.ARRIVE and the crossing. -/

/-- Q.WRITE alone, both cases (R133): refused, nothing but the result changes; accepted, the byte is stored at `head`,
`head` advances, every other cell and register stays; in `exact` mode the view `head_r` follows at once (R143). -/
def Obligations.WriteStoresAndAdvancesOrRefuses : Prop :=
  ∀ (q : Link) (b : Byte) (s : State) (i : Instr), i = .writeOk q b ∨ i = .writeFull q b →
    (s.head q + 1#8 = s.tailW q → exec i s = .next { s with results := s.results ++ [.wrote false] }) ∧
    (s.head q + 1#8 ≠ s.tailW q → ∃ t, exec i s = .next t ∧
      memRead (t.qst q) (s.head q).toNat = some b ∧
      (∀ a, a ≠ (s.head q).toNat → memRead (t.qst q) a = memRead (s.qst q) a) ∧
      t.head q = s.head q + 1#8 ∧ t.tail q = s.tail q ∧
      (s.cfg.syncMode = .lagged → t.tailW q = s.tailW q ∧ t.headR q = s.headR q) ∧
      (s.cfg.syncMode = .exact → t.tailW q = s.tail q ∧ t.headR q = s.head q + 1#8) ∧
      t.results = s.results ++ [.wrote true] ∧
      (QueueInv s.cfg.syncMode (s.queue q) → count t q = count s q + 1 ∧ empty t q = false) ∧
      KeepsQueue q.other s t ∧ KeepsFramer s t ∧ KeepsFix s t ∧ KeepsLogs s t ∧ KeepsModel s t ∧ t.ports = s.ports)

/-- Q.READ alone, both cases (R136): empty, nothing but the result changes; otherwise the byte at `tail` is returned,
`tail` advances, no cell is cleared, every other register stays; in `exact` mode the view `tail_w` follows (R143). -/
def Obligations.ReadTakesTheOldestByteOrNone : Prop :=
  ∀ (q : Link) (s : State) (i : Instr), i = .readSome q ∨ i = .readNone q →
    (s.headR q = s.tail q → exec i s = .next { s with results := s.results ++ [.read none] }) ∧
    (∀ v, s.headR q ≠ s.tail q → memRead (s.qst q) (s.tail q).toNat = some v → ∃ t, exec i s = .next t ∧
      t.tail q = s.tail q + 1#8 ∧ t.head q = s.head q ∧
      (s.cfg.syncMode = .lagged → t.tailW q = s.tailW q ∧ t.headR q = s.headR q) ∧
      (s.cfg.syncMode = .exact → t.tailW q = s.tail q + 1#8 ∧ t.headR q = s.head q) ∧
      (∀ a, memRead (t.qst q) a = memRead (s.qst q) a) ∧
      t.results = s.results ++ [.read (some v)] ∧
      (QueueInv s.cfg.syncMode (s.queue q) → count s q = count t q + 1 ∧ full t q = false) ∧
      KeepsQueue q.other s t ∧ KeepsFramer s t ∧ KeepsFix s t ∧ KeepsLogs s t ∧ KeepsModel s t ∧ t.ports = s.ports)

/-- The host-queue read port: Q.READ HOST_LINK with the result on the pins, both cases; idle words do nothing but drive
the pins (R95, R136; log 7 for the idle pins). -/
def Obligations.HostPortReadsTheHostQueue : Prop :=
  ∀ (s : State) (h : Link), h = s.cfg.hostLink →
    (s.headR h = s.tail h → exec .portHqread s = .next { s with ports := { s.ports with hqRd := none } }) ∧
    (∀ v, s.headR h ≠ s.tail h → memRead (s.qst h) (s.tail h).toNat = some v → ∃ t, exec .portHqread s = .next t ∧
      t.tail h = s.tail h + 1#8 ∧ t.head h = s.head h ∧ (∀ a, memRead (t.qst h) a = memRead (s.qst h) a) ∧
      t.ports = { s.ports with hqRd := some v } ∧ t.results = s.results ∧
      (s.cfg.syncMode = .lagged → t.tailW h = s.tailW h ∧ t.headR h = s.headR h) ∧
      (s.cfg.syncMode = .exact → t.tailW h = s.tail h + 1#8 ∧ t.headR h = s.head h) ∧
      KeepsQueue h.other s t ∧ KeepsFramer s t ∧ KeepsFix s t ∧ KeepsLogs s t ∧ KeepsModel s t) ∧
    exec .portHqidle s = .next { s with ports := { s.ports with hqRd := none } } ∧
    (∀ q d, exec (.portIdle q d) s =
      .next { s with ports := { s.ports with wrOk := s.ports.wrOk.set q none, ovf := s.ports.ovf.set q false } })

/-- The model's one fault (log 2, the model's choice): a read of a cell nothing has written, by each operation that
reads one. -/
def Obligations.UnwrittenCellsFault : Prop :=
  ∀ (s : State),
    (∀ q, s.headR q ≠ s.tail q → memRead (s.qst q) (s.tail q).toNat = none →
      exec (.readSome q) s = .fault (.unwrittenQueueCell q (s.tail q)) ∧
      exec (.readNone q) s = .fault (.unwrittenQueueCell q (s.tail q)) ∧
      (q = s.cfg.hostLink → exec .portHqread s = .fault (.unwrittenQueueCell q (s.tail q))) ∧
      (q = s.cfg.gnssLink → exec .stepByte s = .fault (.unwrittenQueueCell q (s.tail q)) ∧
        exec .stepEmpty s = .fault (.unwrittenQueueCell q (s.tail q)))) ∧
    (s.cursor ≠ 0#8 → (∃ a < s.cursor.toNat, memRead s.acc a = none) →
      exec (.feed 0x0D#8) s = .fault .unwrittenAccCell ∧ exec (.feed 0x0A#8) s = .fault .unwrittenAccCell ∧
      exec .feedTermCr s = .fault .unwrittenAccCell ∧ exec .feedTermLf s = .fault .unwrittenAccCell)

/-- P.ARRIVE with the write accepted: the byte is stored and `head` advances; no line, no event, `wr_ok` is 1 (R139). -/
def Obligations.ArriveStoresTheByte : Prop :=
  ∀ (q : Link) (b : Byte) (s : State) (i : Instr), i = .arriveOk q b ∨ i = .arriveFull q b ∨ i = .portArrive q b →
    s.head q + 1#8 ≠ s.tailW q → ∃ t, exec i s = .next t ∧
      memRead (t.qst q) (s.head q).toNat = some b ∧
      (∀ a, a ≠ (s.head q).toNat → memRead (t.qst q) a = memRead (s.qst q) a) ∧
      t.head q = s.head q + 1#8 ∧ t.tail q = s.tail q ∧
      (s.cfg.syncMode = .lagged → t.tailW q = s.tailW q ∧ t.headR q = s.headR q) ∧
      (s.cfg.syncMode = .exact → t.tailW q = s.tail q ∧ t.headR q = s.head q + 1#8) ∧
      t.ports = { s.ports with wrOk := s.ports.wrOk.set q (some true), ovf := s.ports.ovf.set q false } ∧
      KeepsQueue q.other s t ∧ KeepsFramer s t ∧ KeepsFix s t ∧ KeepsLogs s t ∧ KeepsModel s t ∧ t.results = s.results

/-- QueueFull: the byte is dropped, the event recorded, the link's line emitted, `ovf` driven, nothing else changed
(R139, R262, R261, R270). -/
def Obligations.ArriveAtAFullQueueRaisesQueueFull : Prop :=
  ∀ (q : Link) (b : Byte) (s : State) (i : Instr), i = .arriveOk q b ∨ i = .arriveFull q b ∨ i = .portArrive q b →
    s.head q + 1#8 = s.tailW q → ∃ t line, exec i s = .next t ∧
      (q = .link0 → line = [0x55#8, 0x41#8, 0x52#8, 0x54#8, 0x30#8, 0x20#8, 0x42#8, 0x75#8, 0x66#8, 0x66#8, 0x65#8,
        0x72#8, 0x20#8, 0x46#8, 0x75#8, 0x6C#8, 0x6C#8, 0x0A#8]) ∧
      (q = .link1 → line = [0x55#8, 0x41#8, 0x52#8, 0x54#8, 0x31#8, 0x20#8, 0x42#8, 0x75#8, 0x66#8, 0x66#8, 0x65#8,
        0x72#8, 0x20#8, 0x46#8, 0x75#8, 0x6C#8, 0x6C#8, 0x0A#8]) ∧
      t.out = s.out ++ line ∧ t.ev = s.ev ++ [.queueFull q b] ∧
      t.ports = { s.ports with
        wrOk := s.ports.wrOk.set q (some false), ovf := s.ports.ovf.set q true, tx := s.ports.tx ++ line } ∧
      (∀ r, KeepsQueue r s t) ∧ KeepsFramer s t ∧ KeepsFix s t ∧ KeepsModel s t ∧ t.results = s.results

/-- Q.SYNCW in `lagged` mode: `tail_w` moves forward by the chosen `k`, or all the way for the word; nothing else
changes (R141). In `exact` mode the word is a no-op (R120). -/
def Obligations.SyncwMovesOnlyTheProducersView : Prop :=
  ∀ (q : Link) (mv : Move) (s : State), (s.cfg.syncMode = .exact → exec (.syncw q mv) s = .next s) ∧
    (s.cfg.syncMode = .lagged → ∃ t, exec (.syncw q mv) s = .next t ∧
    (∀ k, mv = .upTo k → k.toNat ≤ (s.tail q - s.tailW q).toNat → t.tailW q = s.tailW q + k) ∧
    (mv = .full → t.tailW q = s.tail q) ∧
    t.head q = s.head q ∧ t.tail q = s.tail q ∧ t.headR q = s.headR q ∧
    (∀ a, memRead (t.qst q) a = memRead (s.qst q) a) ∧
    KeepsQueue q.other s t ∧ KeepsFramer s t ∧ KeepsFix s t ∧ KeepsLogs s t ∧ KeepsModel s t ∧
    t.results = s.results ∧ t.ports = s.ports)

/-- Q.SYNCR in `lagged` mode, the mirror image (R142). In `exact` mode the word is a no-op (R120). -/
def Obligations.SyncrMovesOnlyTheConsumersView : Prop :=
  ∀ (q : Link) (mv : Move) (s : State), (s.cfg.syncMode = .exact → exec (.syncr q mv) s = .next s) ∧
    (s.cfg.syncMode = .lagged → ∃ t, exec (.syncr q mv) s = .next t ∧
    (∀ k, mv = .upTo k → k.toNat ≤ (s.head q - s.headR q).toNat → t.headR q = s.headR q + k) ∧
    (mv = .full → t.headR q = s.head q) ∧
    t.head q = s.head q ∧ t.tail q = s.tail q ∧ t.tailW q = s.tailW q ∧
    (∀ a, memRead (t.qst q) a = memRead (s.qst q) a) ∧
    KeepsQueue q.other s t ∧ KeepsFramer s t ∧ KeepsFix s t ∧ KeepsLogs s t ∧ KeepsModel s t ∧
    t.results = s.results ∧ t.ports = s.ports)

/-- In `exact` mode Q.WRITE returns `false` if and only if the queue holds `C - 1` bytes (R134). -/
def Obligations.ExactWriteFailsExactlyWhenFull : Prop :=
  ∀ (q : Link) (b : Byte) (s : State) (i : Instr), i = .writeOk q b ∨ i = .writeFull q b →
    s.cfg.syncMode = .exact → QueueInv .exact (s.queue q) →
    ∃ t ok, exec i s = .next t ∧ t.results = s.results ++ [.wrote ok] ∧ (ok = false ↔ count s q = 255)

/-- What stays true in `lagged` mode: a full queue refuses, an empty one returns none, and the views are pessimistic
about room and content (R39, R144). -/
def Obligations.LaggedViewsArePessimistic : Prop :=
  ∀ (q : Link) (s : State), QueueInv s.cfg.syncMode (s.queue q) →
    (count s q = 255 → ∀ b, exec (.writeFull q b) s = .next { s with results := s.results ++ [.wrote false] }) ∧
    (count s q = 0 → exec (.readNone q) s = .next { s with results := s.results ++ [.read none] }) ∧
    count s q ≤ (s.head q - s.tailW q).toNat ∧ (s.headR q - s.tail q).toNat ≤ count s q

/-- FIFO order (R71): from an empty good queue, whatever its producer, its consumer and its synchronisers do, the bytes
accepted are the bytes returned, in order, followed by the bytes still held. -/
def Obligations.QueueReturnsAcceptedBytesInOrder : Prop :=
  ∀ (q : Link) (s : State) (ops : List QueueOp), QueueInv s.cfg.syncMode (s.queue q) → s.head q = s.tail q →
    ∃ taken given u rest, queueRun q ops s = some (taken, given, u) ∧ (u.queue q).held = some rest ∧
      taken = given ++ rest

/-- `exact` is `lagged` with a full move of every view after each operation (R143). -/
def Obligations.ExactIsLaggedWithFullMoves : Prop :=
  ∀ (i : Instr) (s t : State), s.cfg.syncMode = .exact →
    (∀ q, s.tailW q = s.tail q ∧ s.headR q = s.head q) → exec i s = .next t →
    ∃ u v, exec i { s with cfg := { s.cfg with syncMode := .lagged } } = .next u ∧
      execAll [.syncw .link0 .full, .syncr .link0 .full, .syncw .link1 .full, .syncr .link1 .full] u = .next v ∧
      t = { v with cfg := s.cfg }

/-! F.FEED and C.STEP. -/

/-- A terminator, CR or LF alike (R161): with nothing accumulated it is ignored; with bytes accumulated it is the
sentence event and D.HANDLE of the sentence, in the same step, and the cursor to 0. -/
def Obligations.TerminatorEmitsTheSentenceOrIsIgnored : Prop :=
  ∀ (s : State) (i : Instr), i = .feedTermCr ∨ i = .feedTermLf ∨ i = .feed 0x0D#8 ∨ i = .feed 0x0A#8 →
    (s.cursor = 0#8 → exec i s = .next s) ∧
    (∀ x, s.cursor ≠ 0#8 → memRun s.acc 0 s.cursor.toNat = some x →
      ∃ u, exec (if x.take 6 = [0x24#8, 0x47#8, 0x50#8, 0x47#8, 0x47#8, 0x41#8] then .handleFix x else .handleEcho x)
          { s with ev := s.ev ++ [.sentence x] } = .next u ∧
        exec i s = .next { u with cursor := 0#8 })

/-- A DATA byte with room: stored at the cursor, which advances by one without wrapping (R162). -/
def Obligations.DataByteIsStored : Prop :=
  ∀ (s : State) (b : Byte) (i : Instr), i = .feedData b ∨ i = .feedOvf b ∨ i = .feed b →
    b ≠ 0x0D#8 → b ≠ 0x0A#8 → s.cursor.toNat < 255 → ∃ t, exec i s = .next t ∧
      memRead t.acc s.cursor.toNat = some b ∧
      (∀ a, a ≠ s.cursor.toNat → memRead t.acc a = memRead s.acc a) ∧
      t.cursor.toNat = s.cursor.toNat + 1 ∧
      (∀ q, KeepsQueue q s t) ∧ KeepsFix s t ∧ KeepsLogs s t ∧ KeepsModel s t ∧ t.results = s.results ∧ t.ports = s.ports

/-- A DATA byte with the accumulator full: SentenceOverflow; the byte is dropped with everything accumulated, the line
is `NMEA Buffer Overflow`, `err_code` is 2 (R163, R263, R261). -/
def Obligations.FullAccumulatorOverflows : Prop :=
  ∀ (s : State) (b : Byte) (i : Instr), i = .feedData b ∨ i = .feedOvf b ∨ i = .feed b →
    b ≠ 0x0D#8 → b ≠ 0x0A#8 → s.cursor.toNat = 255 → ∃ t line, exec i s = .next t ∧
      line = [0x4E#8, 0x4D#8, 0x45#8, 0x41#8, 0x20#8, 0x42#8, 0x75#8, 0x66#8, 0x66#8, 0x65#8, 0x72#8, 0x20#8, 0x4F#8,
        0x76#8, 0x65#8, 0x72#8, 0x66#8, 0x6C#8, 0x6F#8, 0x77#8, 0x0A#8] ∧
      t.cursor = 0#8 ∧ (∀ a, memRead t.acc a = memRead s.acc a) ∧
      t.out = s.out ++ line ∧ t.ev = s.ev ++ [.sentenceOverflow b] ∧
      t.ports = { s.ports with errStrobe := true, errCode := 2#2, tx := s.ports.tx ++ line } ∧
      (∀ q, KeepsQueue q s t) ∧ KeepsFix s t ∧ KeepsModel s t ∧ t.results = s.results

/-- Feeding `"ABC\r\n"` to an idle framer emits exactly one sentence, `"ABC"`; feeding `"\r\n\r\n"` emits none (R169). -/
def Obligations.AbcIsOneSentenceAndBlankLinesAreNone : Prop :=
  ∀ s : State, s.cursor = 0#8 →
    (∃ t, execAll (feedOps [0x41#8, 0x42#8, 0x43#8, 0x0D#8, 0x0A#8]) s = .next t ∧
      t.ev = s.ev ++ [.sentence [0x41#8, 0x42#8, 0x43#8]] ∧ t.out = s.out ++ [0x41#8, 0x42#8, 0x43#8, 0x0A#8] ∧
      t.cursor = 0#8) ∧
    execAll (feedOps [0x0D#8, 0x0A#8, 0x0D#8, 0x0A#8]) s = .next s

/-- The accumulator holds exactly the bytes fed since the cursor was last 0, in order (R26, R63). -/
def Obligations.AccumulatorHoldsTheBytesFed : Prop :=
  ∀ (s : State) (bs : List Byte), s.cursor = 0#8 → (∀ b ∈ bs, b ≠ 0x0D#8 ∧ b ≠ 0x0A#8) → bs.length ≤ 255 →
    ∃ t, execAll (feedOps bs) s = .next t ∧ t.cursor.toNat = bs.length ∧ memRun t.acc 0 bs.length = some bs ∧
      KeepsLogs s t

/-- Run law (R167): `n` DATA bytes from `cursor = c0` raise exactly `(c0 + n) / L` SentenceOverflows, emit no sentence,
and leave `cursor = (c0 + n) mod L`. -/
def Obligations.FramerRunLaw : Prop :=
  ∀ (s : State) (bs : List Byte), (∀ b ∈ bs, b ≠ 0x0D#8 ∧ b ≠ 0x0A#8) →
    ∃ t evs, execAll (feedOps bs) s = .next t ∧
      t.cursor.toNat = (s.cursor.toNat + bs.length) % 256 ∧
      t.ev = s.ev ++ evs ∧ evs.length = (s.cursor.toNat + bs.length) / 256 ∧
      ∀ e ∈ evs, ∃ b ∈ bs, e = .sentenceOverflow b

/-- Residue law (R168): an overlong line of `n` DATA bytes and its terminator leave the framer idle; the last `n mod L`
bytes are emitted as a sentence, and nothing is emitted if there are none. -/
def Obligations.FramerResidueLaw : Prop :=
  ∀ (s : State) (bs : List Byte) (c : Byte), s.cursor = 0#8 → (∀ b ∈ bs, b ≠ 0x0D#8 ∧ b ≠ 0x0A#8) →
    256 ≤ bs.length → (c = 0x0D#8 ∨ c = 0x0A#8) →
    ∃ t overflows rest, execAll (feedOps (bs ++ [c])) s = .next t ∧ t.cursor = 0#8 ∧
      t.ev = s.ev ++ overflows ++ rest ∧ overflows.length = bs.length / 256 ∧
      (∀ e ∈ overflows, ∃ b, e = .sentenceOverflow b) ∧
      (bs.length % 256 = 0 → rest = []) ∧
      (bs.length % 256 ≠ 0 → ∃ more, rest = .sentence (bs.drop (bs.length - bs.length % 256)) :: more ∧
        ∀ e ∈ more, ∀ x, e ≠ .sentence x)

/-- Every sentence an operation emits has 1 to 255 bytes and neither CR nor LF (R170). -/
def Obligations.SentencesHaveOneTo255DataBytes : Prop :=
  ∀ (i : Instr) (s t : State), Inv s → exec i s = .next t → ∀ x, .sentence x ∈ t.ev →
    .sentence x ∈ s.ev ∨ (1 ≤ x.length ∧ x.length ≤ 255 ∧ 0x0D#8 ∉ x ∧ 0x0A#8 ∉ x)

/-- C.STEP (R166): with the GNSS queue empty as seen nothing changes; otherwise it is Q.READ GNSS_LINK, whose byte is
fed to the framer, and the result is not recorded. -/
def Obligations.StepFeedsOneByteOrNothing : Prop :=
  ∀ (s : State) (i : Instr) (g : Link), i = .stepByte ∨ i = .stepEmpty → g = s.cfg.gnssLink →
    (s.headR g = s.tail g → exec i s = .next s) ∧
    (∀ b, s.headR g ≠ s.tail g → memRead (s.qst g) (s.tail g).toNat = some b →
      ∃ u, exec (.readSome g) s = .next u ∧ exec i s = exec (.feed b) { u with results := s.results })

/-- C.STEP with a byte waiting completes in every good state (R79, R166). -/
def Obligations.StepCompletesInGoodStates : Prop :=
  ∀ (s : State) (i : Instr), i = .stepByte ∨ i = .stepEmpty → Inv s →
    ∃ t, exec i s = .next t ∧
      (s.headR s.cfg.gnssLink ≠ s.tail s.cfg.gnssLink → t.tail s.cfg.gnssLink = s.tail s.cfg.gnssLink + 1#8)

/-! D.HANDLE, X.PARSE, O.LINE. -/

/-- A sentence whose first six bytes are not the tag is echoed, and nothing more (R105, R180); a text that is no sentence
(R170) likewise, by the model's choice (log 23). -/
def Obligations.OtherSentencesAreOnlyEchoed : Prop :=
  ∀ (x : List Byte) (s : State) (i : Instr), i = .handleEcho x ∨ i = .handleFix x →
    x.take 6 ≠ [0x24#8, 0x47#8, 0x50#8, 0x47#8, 0x47#8, 0x41#8] →
    exec i s = .next { s with out := s.out ++ x ++ [0x0A#8], ports := { s.ports with tx := s.ports.tx ++ x ++ [0x0A#8] } }

/-- A tag sentence that parses: the ECHO line, then the FIX line of the values just committed; the record and
`fix_valid` change together (R180, R183, R97, R207). That a text which is no sentence (R170) is handled alike is the
model's choice (log 23). -/
def Obligations.ParsedSentenceIsCommittedAndPrinted : Prop :=
  ∀ (x : List Byte) (s : State) (i : Instr) (r : PositionFix), i = .handleFix x ∨ i = .handleEcho x →
    x.take 6 = [0x24#8, 0x47#8, 0x50#8, 0x47#8, 0x47#8, 0x41#8] → parseFix s.cfg.fmt x = some r →
    ∃ t line, exec i s = .next t ∧
      line = [0x4C#8, 0x61#8, 0x74#8, 0x3A#8, 0x20#8] ++ fmtText s.cfg.fmt t.fix.lat 6 ++
        [0x2C#8, 0x20#8, 0x4C#8, 0x6F#8, 0x6E#8, 0x3A#8, 0x20#8] ++ fmtText s.cfg.fmt t.fix.lon 6 ++
        [0x2C#8, 0x20#8, 0x41#8, 0x6C#8, 0x74#8, 0x3A#8, 0x20#8] ++ fmtText s.cfg.fmt t.fix.alt 2 ++ [0x0A#8] ∧
      t.out = s.out ++ x ++ [0x0A#8] ++ line ∧ t.fix = r ∧ t.fixValid = true ∧ t.ev = s.ev ++ [.fixUpdate r] ∧
      t.ports = { s.ports with fixStrobe := true, tx := s.ports.tx ++ x ++ [0x0A#8] ++ line } ∧
      (∀ q, KeepsQueue q s t) ∧ KeepsFramer s t ∧ KeepsModel s t ∧ t.results = s.results

/-- A tag sentence that does not parse: the ECHO line, then `Invalid GPGGA sentence`; ParseError is recorded and the
record stays (R180, R209, R264). That a text which is no sentence (R170) is handled alike is the model's choice (log 23). -/
def Obligations.BadSentenceLeavesTheRecord : Prop :=
  ∀ (x : List Byte) (s : State) (i : Instr), i = .handleFix x ∨ i = .handleEcho x →
    x.take 6 = [0x24#8, 0x47#8, 0x50#8, 0x47#8, 0x47#8, 0x41#8] → parseFix s.cfg.fmt x = none →
    ∃ t line, exec i s = .next t ∧
      line = [0x49#8, 0x6E#8, 0x76#8, 0x61#8, 0x6C#8, 0x69#8, 0x64#8, 0x20#8, 0x47#8, 0x50#8, 0x47#8, 0x47#8, 0x41#8,
        0x20#8, 0x73#8, 0x65#8, 0x6E#8, 0x74#8, 0x65#8, 0x6E#8, 0x63#8, 0x65#8, 0x0A#8] ∧
      t.out = s.out ++ x ++ [0x0A#8] ++ line ∧ KeepsFix s t ∧ t.ev = s.ev ++ [.parseError x] ∧
      t.ports = { s.ports with errStrobe := true, errCode := 3#2, tx := s.ports.tx ++ x ++ [0x0A#8] ++ line } ∧
      (∀ q, KeepsQueue q s t) ∧ KeepsFramer s t ∧ KeepsModel s t ∧ t.results = s.results

/-- X.PARSE applied alone: the commit of the three values and `fix_valid` as one unit on success, ParseError and an
unchanged record on failure; no line either way (R207, R209, C9). -/
def Obligations.ParseCommitsOrRaisesParseError : Prop :=
  ∀ (x : List Byte) (s : State) (i : Instr), i = .parseOk x ∨ i = .parseErr x →
    (∀ r, parseFix s.cfg.fmt x = some r → exec i s = .next { s with
      fix := r, fixValid := true, ev := s.ev ++ [.fixUpdate r], results := s.results ++ [.parsed (some r)],
      ports := { s.ports with fixStrobe := true } }) ∧
    (parseFix s.cfg.fmt x = none → exec i s = .next { s with
      ev := s.ev ++ [.parseError x], results := s.results ++ [.parsed none],
      ports := { s.ports with errStrobe := true, errCode := 3#2 } })

/-- The parser accepts exactly the sentences of the grammar whose numeric fields do not overflow, and yields their
values: raw field divided by 100, negated for `S` and `W`, altitude unmodified (R111, R200 to R205, R212). -/
def Obligations.ParserAcceptsExactlyTheGrammar : Prop :=
  ∀ (f : Fmt) (x : List Byte) (r : PositionFix), parseFix f x = some r ↔
    ∃ g rlat rlon ralt, GgaShape g x ∧ IsNumField g.lat ∧ IsNumField g.lon ∧ IsNumField g.alt ∧
      dec2f f g.lat = some rlat ∧ dec2f f g.lon = some rlon ∧ dec2f f g.alt = some ralt ∧
      r = { lat := if g.ns = [0x53#8] then negate f (div100 f rlat) else div100 f rlat,
            lon := if g.ew = [0x57#8] then negate f (div100 f rlon) else div100 f rlon,
            alt := ralt }

/-- Grammar NUM and its value: a field is read as a numeral exactly when it has the shape, with the integer of all its
digits and the number of digits after the point (R99). -/
def Obligations.NumeralsAreReadByTheirShape : Prop :=
  ∀ (t : List Byte) (n : Numeral), parseNum t = some n ↔
    ∃ whole frac, NumShape n.neg whole frac t ∧ n.digits = readDigits (whole ++ frac) 0 ∧ n.scale = frac.length

/-- The fields of a sentence are the byte strings between its commas (R98). -/
def Obligations.FieldsAreTheStringsBetweenCommas : Prop :=
  ∀ s : List Byte, joinFields (splitFields s) = s ∧ (∀ f ∈ splitFields s, 0x2C#8 ∉ f) ∧
    (splitFields s).length = s.count 0x2C#8 + 1

/-- O.LINE hands over the bytes of the line followed by 0x0A, whole and in order, and changes nothing else (R184). -/
def Obligations.LineGoesOutWhole : Prop :=
  ∀ (x : List Byte) (s : State), exec (.oLine x) s =
    .next { s with out := s.out ++ x ++ [0x0A#8], ports := { s.ports with tx := s.ports.tx ++ x ++ [0x0A#8] } }

/-! Numerics. -/

/-- The numeric functions applied alone record their value and change nothing else (R233, R236, R237, R239; log 6); N.NEG
inverts bit `W - 1` and no other. That they run on operands that are no value of the format is logs 9, 10 and 24. -/
def Obligations.NumericFunctionsOnlyRecordTheirValue : Prop :=
  ∀ (s : State) (t : List Byte) (x : Fp) (n : Nat),
    exec (.dec2f t) s = .next { s with results := s.results ++ [.number (dec2f s.cfg.fmt t)] } ∧
    exec (.div100 x) s = .next { s with results := s.results ++ [.number (some (div100 s.cfg.fmt x))] } ∧
    (s.cfg.fmt = .binary32 → exec (.neg x) s =
      .next { s with results := s.results ++ [.number (some (x ^^^ 0x0000000080000000#64))] }) ∧
    (s.cfg.fmt = .binary64 → exec (.neg x) s =
      .next { s with results := s.results ++ [.number (some (x ^^^ 0x8000000000000000#64))] }) ∧
    exec (.fmt x n) s = .next { s with results := s.results ++ [.text (fmtText s.cfg.fmt x n)] }

/-- N.NEG keeps the magnitude, changes the sign, and undoes itself (R237); on patterns that are no finite value of the
format this is the model's choice (log 24), and `valueOf` is the formula of R230 on the pattern's fields. -/
def Obligations.NegateChangesTheSignAlone : Prop :=
  ∀ (f : Fmt) (x : Fp), negate f (negate f x) = x ∧ signBit f (negate f x) = !signBit f x ∧
    expField f (negate f x) = expField f x ∧ fracField f (negate f x) = fracField f x ∧
    valueOf f (negate f x) = -valueOf f x

/-- N.DEC2F of a numeric field that does not overflow is a finite value of the format with the field's sign, and no
value of the format is nearer; of two equally near, the one with the even significand (R232, R233). -/
def Obligations.Dec2fIsTheNearestValue : Prop :=
  ∀ (f : Fmt) (t : List Byte) (n : Numeral) (x : Fp), parseNum t = some n → dec2f f t = some x →
    IsValue f x ∧ signBit f x = n.neg ∧
      (∀ y, IsValue f y → |valueOf f x - n.value| ≤ |valueOf f y - n.value|) ∧
      (∀ y, IsValue f y → valueOf f y ≠ valueOf f x → |valueOf f x - n.value| = |valueOf f y - n.value| →
        significand f x % 2 = 0)

/-- N.DEC2F overflows exactly from `(2 - 2^-p) * 2^emax` on (R234). -/
def Obligations.Dec2fOverflowsExactlyFromTheThreshold : Prop :=
  ∀ (f : Fmt) (t : List Byte) (n : Numeral), parseNum t = some n →
    (dec2f f t = none ↔ (2 - (2 : ℚ) ^ (-(prec f : Int))) * (2 : ℚ) ^ emax f ≤ |n.value|)

/-- In binary64 no field of a sentence can overflow (R206). -/
def Obligations.Binary64FieldsNeverOverflow : Prop :=
  ∀ (t : List Byte) (n : Numeral), parseNum t = some n → t.length ≤ 255 → ∃ x, dec2f .binary64 t = some x

/-- N.DIV100 of a finite value: a finite value with the operand's sign, within half a unit of the last place of the
exact quotient; a zero is returned as it is (R236, R242). -/
def Obligations.Div100IsWithinHalfAnUlp : Prop :=
  ∀ (f : Fmt) (x : Fp), IsValue f x →
    IsValue f (div100 f x) ∧ signBit f (div100 f x) = signBit f x ∧
      |valueOf f (div100 f x) - valueOf f x / 100| ≤ ulp f (div100 f x) / 2 ∧
      (valueOf f x = 0 → div100 f x = x)

/-- N.FMT: a sign if the sign bit is set, the integer digits without a leading zero, a point, exactly `n` digits; the
digits are the magnitude to within half a unit of the last digit, ties to even (R239, R242). -/
def Obligations.DecimalTextIsCorrectlyRounded : Prop :=
  ∀ (f : Fmt) (x : Fp) (n : Nat), IsValue f x → ∃ whole frac,
    fmtText f x n = (if signBit f x then [0x2D#8] else []) ++ whole ++ [0x2E#8] ++ frac ∧
    whole ≠ [] ∧ (∀ b ∈ whole ++ frac, IsDigitByte b) ∧ frac.length = n ∧
    (whole.head? = some 0x30#8 → whole = [0x30#8]) ∧
    |(readDigits (whole ++ frac) 0 : ℚ) - |valueOf f x| * 10 ^ n| ≤ 1 / 2 ∧
    (|(readDigits (whole ++ frac) 0 : ℚ) - |valueOf f x| * 10 ^ n| = 1 / 2 → readDigits (whole ++ frac) 0 % 2 = 0)

/-! The whole machine. -/

/-- The good states include the state right after reset, whatever the parameters. -/
def Obligations.ResetStateIsGood : Prop :=
  ∀ p : Params, Inv (State.resetWith p)

/-- Every step keeps good states good: the view invariant (R39), held cells written (R68), canonical memories, the
framer invariant (R26), a finite record (R34, R206), and `exact` views equal to the indices (R37, R38). -/
def Obligations.EveryStepKeepsGoodStates : Prop :=
  ∀ s t : State, Inv s → step s = .next t → Inv t

/-- A storage cell is never read before it is written: no step from a good state faults (R68). -/
def Obligations.NoStepFromAGoodStateFaults : Prop :=
  ∀ (s : State) (f : Fault), Inv s → step s ≠ .fault f

/-- A step never changes a parameter (R9, R33). -/
def Obligations.NoStepChangesAParameter : Prop :=
  ∀ s t : State, step s = .next t → t.cfg = s.cfg

/-- A producer's operation writes only its own queue's `head` and cells, `out`, `ev`, results and pins (R28, R273). -/
def Obligations.ProducersWriteOnlyTheirSide : Prop :=
  ∀ (i : Instr) (s t : State) (q : Link), agentOf s.cfg i = .prod q → exec i s = .next t →
    KeepsQueue q.other s t ∧ t.tail q = s.tail q ∧
    (∀ a, a ≠ (s.head q).toNat → memRead (t.qst q) a = memRead (s.qst q) a) ∧
    (s.cfg.syncMode = .lagged → t.tailW q = s.tailW q ∧ t.headR q = s.headR q) ∧
    KeepsFramer s t ∧ KeepsFix s t ∧ KeepsModel s t

/-- The consumer's operations write no `head`, no queue cell and nothing of the host-link queue (R28, R166, R273). -/
def Obligations.TheConsumerWritesNoHeadAndNoCell : Prop :=
  ∀ (i : Instr) (s t : State), agentOf s.cfg i = .cons → exec i s = .next t →
    (∀ q, t.head q = s.head q ∧ (∀ a, memRead (t.qst q) a = memRead (s.qst q) a) ∧
      (s.cfg.syncMode = .lagged → t.tailW q = s.tailW q ∧ t.headR q = s.headR q)) ∧
    KeepsQueue s.cfg.hostLink s t ∧ KeepsModel s t

/-- No agent of the block drains the host-link queue: only RESET, INIT and the environment's own reads of it move its
`tail` (R147, R314). -/
def Obligations.NothingDrainsTheHostQueue : Prop :=
  ∀ (i : Instr) (s t : State) (h : Link), h = s.cfg.hostLink → exec i s = .next t →
    i ≠ .reset → i ≠ .init h → i ≠ .readSome h → i ≠ .readNone h → i ≠ .portHqread → t.tail h = s.tail h

/-- The record changes only by a commit, all of it at once, with its event last in the log (R34, R70, R207). -/
def Obligations.TheRecordChangesOnlyByACommit : Prop :=
  ∀ (i : Instr) (s t : State), i ≠ .reset → exec i s = .next t →
    KeepsFix s t ∨ (t.fixValid = true ∧ ∃ evs, t.ev = s.ev ++ evs ++ [.fixUpdate t.fix])

/-- One operation raises at most one exception (R268), and the log only grows. -/
def Obligations.AtMostOneExceptionPerOperation : Prop :=
  ∀ (i : Instr) (s t : State), i ≠ .reset → exec i s = .next t → ∃ evs, t.ev = s.ev ++ evs ∧
    (evs.filter (fun e => match e with
      | .queueFull _ _ => true | .sentenceOverflow _ => true | .parseError _ => true | _ => false)).length ≤ 1

/-- The pins report the step (R95, R261): the transmit pins carry what `out` grew by, `fix_strobe` pulses with a
FixUpdate, `err_strobe` with SentenceOverflow (code 2) and ParseError (code 3). -/
def Obligations.ThePinsReportTheOperation : Prop :=
  ∀ (i : Instr) (s t : State), i ≠ .reset → s.ports = Ports.idle → exec i s = .next t →
    t.out = s.out ++ t.ports.tx ∧ ∃ evs, t.ev = s.ev ++ evs ∧
      (t.ports.fixStrobe = true ↔ ∃ r, .fixUpdate r ∈ evs) ∧
      (t.ports.errStrobe = true ↔ (∃ b, .sentenceOverflow b ∈ evs) ∨ ∃ x, .parseError x ∈ evs) ∧
      (t.ports.errCode = 2#2 ↔ ∃ b, .sentenceOverflow b ∈ evs) ∧
      (t.ports.errCode = 3#2 ↔ ∃ x, .parseError x ∈ evs)

/-- The log of the model carries its output: every operation of the block keeps `out` equal to the banner line followed
by one line per event, in order. The order is the model's choice (log 13: both lines of a C.STEP are appended at once);
the counts of R186 and its order of the ECHO lines follow, and what an observer may see instead is `mayObserve` (R185).
`isBlockOp` leaves out HANDLE, PARSE and O.LINE applied alone (log 16). -/
def Obligations.OutputIsTheLinesOfTheLog : Prop :=
  ∀ (i : Instr) (s t : State), isBlockOp i = true → s.out = outOf s.cfg s.ev → exec i s = .next t →
    t.out = outOf t.cfg t.ev

/-- A producer's line may fall between the two lines of a C.STEP: with a QueueFull right after a FIX or BADFIX line,
either order of the two lines may be observed (R185; log 13). -/
def Obligations.AProducerLineMayFallBetween : Prop :=
  ∀ (s t : State) (evs : List Event) (d : Event) (q : Link) (b : Byte), isSecondLine d = true →
    s.ev = evs ++ [d] → s.head q + 1#8 = s.tailW q → exec (.arriveFull q b) s = .next t →
    mayObserve t (outOf s.cfg (evs ++ [d, .queueFull q b])) ∧ mayObserve t (outOf s.cfg (evs ++ [.queueFull q b, d]))

/-- With no stimulus pending the agents that run for ever take their turns, and within ten steps the GNSS queue of a good
state, if it holds bytes, holds fewer (R322, R77; log 4, the model's choice of a fair schedule). -/
def Obligations.BackgroundTurnsDrainTheGnssQueue : Prop :=
  ∀ s : State, Inv s → s.script = [] → s.head s.cfg.gnssLink ≠ s.tail s.cfg.gnssLink →
    ∃ t : State, Host.Core.run Sys2Proof.core 10 s = .next t ∧
      count t s.cfg.gnssLink < count s s.cfg.gnssLink

/-- DRAIN empties the GNSS queue of a good state, and at the end a C.STEP changes nothing (R121, R323). -/
def Obligations.DrainReachesQuiescence : Prop :=
  ∀ s : State, Inv s → ∃ t, execAll (drainOps s) s = .next t ∧
    t.head s.cfg.gnssLink = t.tail s.cfg.gnssLink ∧ t.headR s.cfg.gnssLink = t.tail s.cfg.gnssLink ∧
    exec .stepByte t = .next t
end

