-- ==== Sys2Proof/Laws/Memory.lean ====
section
/-! SUPPORT. The laws of the byte memories: read after write, and the canonical form (20_memory R61). -/
namespace Sys2Proof.Machine

/-- A read after a write to the same cell gives the byte written. -/
@[simp] theorem memRead_memWrite_same (m : Mem) (a : Nat) (v : Byte) : memRead (memWrite m a v) a = some v := by
  induction m with
  | nil => simp [memWrite, memRead]
  | cons c m ih =>
    simp only [memWrite]
    split
    · simp [memRead]
    · split
      · simp [memRead]
      · have h : c.1 ≠ a := fun h => by simp_all
        simp [memRead, h, ih]

/-- A write leaves every other cell alone. -/
theorem memRead_memWrite_other (m : Mem) {a b : Nat} (h : b ≠ a) (v : Byte) :
    memRead (memWrite m a v) b = memRead m b := by
  have h' : a ≠ b := Ne.symm h
  induction m with
  | nil => simp [memWrite, memRead, h']
  | cons c m ih =>
    simp only [memWrite]
    split
    · simp [memRead, h']
    · split
      · rename_i hc
        have hcb : c.1 ≠ b := hc ▸ h'
        simp [memRead, h', hcb]
      · simp [memRead, ih]

/-- The indices a written memory lists. -/
theorem mem_of_mem_memWrite {m : Mem} {a : Nat} {v : Byte} {c : Host.Cell} (h : c ∈ memWrite m a v) :
    c.1 = a ∨ c ∈ m := by
  induction m with
  | nil => simp_all [memWrite]
  | cons d m ih =>
    simp only [memWrite] at h
    split at h
    · rcases List.mem_cons.1 h with h | h
      · exact .inl (by rw [h])
      · exact .inr h
    · split at h
      · rcases List.mem_cons.1 h with h | h
        · exact .inl (by rw [h])
        · exact .inr (List.mem_cons_of_mem _ h)
      · rcases List.mem_cons.1 h with h | h
        · exact .inr (by simp [h])
        · exact (ih h).imp_right (List.mem_cons_of_mem _)

/-- A write keeps the canonical form. -/
theorem memWrite_wf {size : Nat} {m : Mem} {a : Nat} (h : Mem.wf size m) (ha : a < size) (v : Byte) :
    Mem.wf size (memWrite m a v) := by
  refine ⟨?_, fun c hc => (mem_of_mem_memWrite hc).elim (fun e => e ▸ ha) (h.2 c)⟩
  have hp := h.1
  clear h ha
  induction m with
  | nil => simp [memWrite]
  | cons d m ih =>
    obtain ⟨hd, hm⟩ := List.pairwise_cons.1 hp
    simp only [memWrite]
    split
    · rename_i h1
      refine List.pairwise_cons.2 ⟨fun c hc => ?_, hp⟩
      rcases List.mem_cons.1 hc with hc | hc
      · rw [hc]; exact h1
      · exact Nat.lt_trans h1 (hd c hc)
    · split
      · rename_i _ h2
        exact List.pairwise_cons.2 ⟨fun c hc => by rw [h2]; exact hd c hc, hm⟩
      · rename_i h1 h2
        refine List.pairwise_cons.2 ⟨fun c hc => ?_, ih hm⟩
        rcases mem_of_mem_memWrite hc with hc | hc
        · rw [hc]; omega
        · exact hd c hc

/-- The empty memory is in canonical form. -/
theorem Mem.wf_nil (size : Nat) : Mem.wf size [] := ⟨List.Pairwise.nil, fun c hc => absurd hc (by simp)⟩

/-- A run of reads sees a memory through its reads only. -/
theorem memRun_congr {m m' : Mem} (n a : Nat) (h : ∀ i, a ≤ i → i < a + n → memRead m' i = memRead m i) :
    memRun m' a n = memRun m a n := by
  induction n generalizing a with
  | zero => rfl
  | succ n ih =>
    simp only [memRun]
    rw [h a (by omega) (by omega), ih (a + 1) (fun i h1 h2 => h i (by omega) (by omega))]

/-- A run of reads, one byte longer. -/
theorem memRun_succ_last (m : Mem) (a n : Nat) :
    memRun m a (n + 1) = match memRun m a n, memRead m (a + n) with
      | some t, some b => some (t ++ [b])
      | _, _ => none := by
  induction n generalizing a with
  | zero => simp only [memRun, Nat.add_zero]; cases memRead m a <;> rfl
  | succ n ih =>
    rw [memRun, ih (a + 1), memRun]
    have e : a + 1 + n = a + (n + 1) := by omega
    rw [e]
    cases memRead m a <;> cases memRun m (a + 1) n <;> cases memRead m (a + (n + 1)) <;> simp

/-- A run of `n` reads gives `n` bytes. -/
theorem memRun_length {m : Mem} {a n : Nat} {t : List Byte} (h : memRun m a n = some t) : t.length = n := by
  induction n generalizing a t with
  | zero => simp_all [memRun]
  | succ n ih =>
    simp only [memRun] at h
    split at h
    · rename_i b u _ hu
      cases h
      simp [ih hu]
    · cases h

end Sys2Proof.Machine
end

