-- ==== Sys2Proof/Laws/Numbers.lean ====
section
/-! SUPPORT. What the shared numeric operations do (44_numerics R232, R239). -/
namespace Sys2Proof.Machine

/-- The operands R236, R237 and R239 are for. -/
theorem isFmtValue_iff {f : Fmt} {x : Fp} : isFmtValue f x = true ↔ IsValue f x := by
  simp [isFmtValue, IsValue]

/-- N.DIV100 of a zero is that zero (R236). -/
theorem div100_zero {f : Fmt} {x : Fp} (h : IsValue f x) (h0 : isZero f x = true) : div100 f x = x := by
  simp [div100, isFmtValue_iff.2 h, h0]

/-- N.DIV100 of another value is the rounded quotient with its sign (R236). -/
theorem div100_value {f : Fmt} {x : Fp} (h : IsValue f x) (h0 : isZero f x = false) :
    div100 f x = withSign f (signBit f x)
      (roundMag f { num := (magnitude f x).num, den := (magnitude f x).den * 100 }) := by
  simp [div100, isFmtValue_iff.2 h, h0]

/-- N.FMT of a value (R239). -/
theorem fmtText_value {f : Fmt} {x : Fp} (h : IsValue f x) (n : Nat) :
    fmtText f x n = (if signBit f x then [chMinus] else []) ++ decText (scaledInt (magnitude f x) n / 10 ^ n) ++
      [chPoint] ++ decFixed n (scaledInt (magnitude f x) n % 10 ^ n) := by
  simp [fmtText, isFmtValue_iff.2 h]

/-- Rounding is to within half a unit, and to the even integer when exactly half a unit away (R232). -/
theorem roundEven_spec (n d : Nat) (hd : 0 < d) :
    2 * (roundEven n d * d) ≤ 2 * n + d ∧ 2 * n ≤ 2 * (roundEven n d * d) + d ∧
      ((2 * (roundEven n d * d) = 2 * n + d ∨ 2 * n = 2 * (roundEven n d * d) + d) → roundEven n d % 2 = 0) := by
  have hn : d * (n / d) + n % d = n := Nat.div_add_mod n d
  have hr : n % d < d := Nat.mod_lt n hd
  have e (k : Nat) : k * d = d * k := Nat.mul_comm k d
  simp only [roundEven]
  split
  · rw [e]; refine ⟨by omega, by omega, fun h => ?_⟩; omega
  · split
    · rw [e, Nat.mul_add]; refine ⟨by omega, by omega, fun h => ?_⟩; omega
    · split
      · rw [e]; exact ⟨by omega, by omega, fun _ => by assumption⟩
      · rw [e, Nat.mul_add]; exact ⟨by omega, by omega, fun _ => by omega⟩

/-- An integer is its own rounding. -/
theorem roundEven_exact (m d : Nat) (hd : 0 < d) : roundEven (m * d) d = m := by
  simp [roundEven, Nat.mul_div_cancel _ hd, hd]

/-- A larger numerator does not round lower. -/
theorem roundEven_mono {a b d : Nat} (hd : 0 < d) (h : a ≤ b) : roundEven a d ≤ roundEven b d := by
  by_contra hlt
  obtain ⟨ha1, -, ha3⟩ := roundEven_spec a d hd
  obtain ⟨-, hb2, hb3⟩ := roundEven_spec b d hd
  have h1 : (roundEven b d + 1) * d ≤ roundEven a d * d := Nat.mul_le_mul_right d (by omega)
  rw [Nat.add_mul, Nat.one_mul] at h1
  have hab : a = b := by omega
  subst hab
  omega

/-- `dec_n` has exactly `n` digits (R239). -/
@[simp] theorem decFixed_length (n v : Nat) : (decFixed n v).length = n := by
  induction n generalizing v with
  | zero => rfl
  | succ n ih => simp [decFixed, ih]

/-- Every byte of `dec_n` is a digit (R239). -/
theorem decFixed_digits {n v : Nat} {b : Byte} (h : b ∈ decFixed n v) : IsDigitByte b := by
  induction n generalizing v with
  | zero => cases h
  | succ n ih =>
    simp only [decFixed, List.mem_append, List.mem_singleton] at h
    rcases h with h | rfl
    · exact ih h
    · simp only [IsDigitByte, BitVec.toNat_ofNat]
      omega

/-- Reading digits after others. -/
theorem readDigits_append (s t : List Byte) (v : Nat) : readDigits (s ++ t) v = readDigits t (readDigits s v) := by
  induction s generalizing v with
  | nil => rfl
  | cons b s ih => exact ih _

/-- `dec_n` reads back as the low `n` digits (R239). -/
theorem readDigits_decFixed (n v w : Nat) : readDigits (decFixed n v) w = w * 10 ^ n + v % 10 ^ n := by
  induction n generalizing v w with
  | zero => simp [decFixed, readDigits, Nat.mod_one]
  | succ n ih =>
    have hb : (BitVec.ofNat 8 (0x30 + v % 10)).toNat - 0x30 = v % 10 := by
      simp only [BitVec.toNat_ofNat]
      omega
    simp only [decFixed, readDigits_append, ih, readDigits, hb]
    have : v % 10 ^ (n + 1) = v % 10 + 10 * (v / 10 % 10 ^ n) := by
      rw [Nat.pow_succ, Nat.mul_comm (10 ^ n) 10, Nat.mod_mul]
    rw [this, Nat.pow_succ]
    ring

/-- The digits of a numeral are read as they are by the parser (R99). -/
theorem decimalVal_eq_readDigits (t : List Byte) : decimalVal t = readDigits t 0 := by
  have h (v : Nat) : t.foldl (fun v b => 10 * v + digitVal b) v = readDigits t v := by
    induction t generalizing v with
    | nil => rfl
    | cons b t ih => exact ih _
  exact h 0

/-- Enough digits: `v` is below the power of ten that `decDigits` counts. -/
theorem lt_pow_decDigits {fuel v : Nat} (h : v < 10 ^ fuel) : v < 10 ^ decDigits fuel v := by
  induction fuel generalizing v with
  | zero => simp_all [decDigits]
  | succ k ih =>
    simp only [decDigits]
    split
    · omega
    · have := ih (v := v / 10) (by rw [Nat.pow_succ] at h; omega)
      rw [Nat.pow_succ]
      omega

/-- `dec` reads back as the integer (R239). -/
theorem readDigits_decText (v : Nat) : readDigits (decText v) 0 = v := by
  have h2 : v < 2 ^ (Nat.log2 v + 1) := Nat.lt_log2_self
  have h10 : 2 ^ (Nat.log2 v + 1) ≤ 10 ^ (Nat.log2 v + 1) := Nat.pow_le_pow_left (by omega) _
  rw [decText, readDigits_decFixed, Nat.mod_eq_of_lt (lt_pow_decDigits (by omega))]
  omega

end Sys2Proof.Machine
end

