-- ==== Sys2Proof/Laws/State.lean ====
section
/-! SUPPORT. What each update of the state does to each field, one lemma per field per update. -/
namespace Sys2Proof.Machine

@[simp] theorem Pair.get_set_same {α : Type} (p : Pair α) (q : Link) (v : α) : (p.set q v).get q = v := by
  cases q <;> rfl

theorem Pair.get_set_other {α : Type} (p : Pair α) {q r : Link} (h : r ≠ q) (v : α) : (p.set q v).get r = p.get r := by
  cases q <;> cases r <;> first | rfl | exact absurd rfl h

@[simp] theorem Pair.get_set_link0 {α : Type} (p : Pair α) (v : α) : (p.set .link0 v).get .link1 = p.get .link1 := rfl
@[simp] theorem Pair.get_set_link1 {α : Type} (p : Pair α) (v : α) : (p.set .link1 v).get .link0 = p.get .link0 := rfl

theorem Pair.ext_get {α : Type} {p r : Pair α} (h : ∀ q, p.get q = r.get q) : p = r := by
  cases p; cases r
  have h0 := h .link0
  have h1 := h .link1
  simp only [Pair.get] at h0 h1
  rw [h0, h1]

theorem Link.eq_of_ne_of_ne {q r x : Link} (h : r ≠ q) (hx : x ≠ q) : r = x := by
  cases q <;> cases r <;> cases x <;> first | rfl | exact absurd rfl h | exact absurd rfl hx

@[simp] theorem setQueue_cfg (s : State) (q : Link) (v : Queue) : (s.setQueue q v).cfg = s.cfg := rfl
@[simp] theorem setQueue_queues (s : State) (q : Link) (v : Queue) : (s.setQueue q v).queues = s.queues.set q v := rfl
@[simp] theorem setQueue_cursor (s : State) (q : Link) (v : Queue) : (s.setQueue q v).cursor = s.cursor := rfl
@[simp] theorem setQueue_acc (s : State) (q : Link) (v : Queue) : (s.setQueue q v).acc = s.acc := rfl
@[simp] theorem setQueue_fix (s : State) (q : Link) (v : Queue) : (s.setQueue q v).fix = s.fix := rfl
@[simp] theorem setQueue_fixValid (s : State) (q : Link) (v : Queue) : (s.setQueue q v).fixValid = s.fixValid := rfl
@[simp] theorem setQueue_out (s : State) (q : Link) (v : Queue) : (s.setQueue q v).out = s.out := rfl
@[simp] theorem setQueue_ev (s : State) (q : Link) (v : Queue) : (s.setQueue q v).ev = s.ev := rfl
@[simp] theorem setQueue_results (s : State) (q : Link) (v : Queue) : (s.setQueue q v).results = s.results := rfl
@[simp] theorem setQueue_ports (s : State) (q : Link) (v : Queue) : (s.setQueue q v).ports = s.ports := rfl
@[simp] theorem setQueue_script (s : State) (q : Link) (v : Queue) : (s.setQueue q v).script = s.script := rfl
@[simp] theorem setQueue_turn (s : State) (q : Link) (v : Queue) : (s.setQueue q v).turn = s.turn := rfl

@[simp] theorem emit_cfg (x : List Byte) (s : State) : (emit x s).cfg = s.cfg := rfl
@[simp] theorem emit_queues (x : List Byte) (s : State) : (emit x s).queues = s.queues := rfl
@[simp] theorem emit_cursor (x : List Byte) (s : State) : (emit x s).cursor = s.cursor := rfl
@[simp] theorem emit_acc (x : List Byte) (s : State) : (emit x s).acc = s.acc := rfl
@[simp] theorem emit_fix (x : List Byte) (s : State) : (emit x s).fix = s.fix := rfl
@[simp] theorem emit_fixValid (x : List Byte) (s : State) : (emit x s).fixValid = s.fixValid := rfl
@[simp] theorem emit_out (x : List Byte) (s : State) : (emit x s).out = s.out ++ lineBytes x := rfl
@[simp] theorem emit_ev (x : List Byte) (s : State) : (emit x s).ev = s.ev := rfl
@[simp] theorem emit_results (x : List Byte) (s : State) : (emit x s).results = s.results := rfl
@[simp] theorem emit_ports (x : List Byte) (s : State) : (emit x s).ports = { s.ports with tx := s.ports.tx ++ lineBytes x } := rfl
@[simp] theorem emit_script (x : List Byte) (s : State) : (emit x s).script = s.script := rfl
@[simp] theorem emit_turn (x : List Byte) (s : State) : (emit x s).turn = s.turn := rfl

@[simp] theorem logEvent_cfg (e : Event) (s : State) : (logEvent e s).cfg = s.cfg := rfl
@[simp] theorem logEvent_queues (e : Event) (s : State) : (logEvent e s).queues = s.queues := rfl
@[simp] theorem logEvent_cursor (e : Event) (s : State) : (logEvent e s).cursor = s.cursor := rfl
@[simp] theorem logEvent_acc (e : Event) (s : State) : (logEvent e s).acc = s.acc := rfl
@[simp] theorem logEvent_fix (e : Event) (s : State) : (logEvent e s).fix = s.fix := rfl
@[simp] theorem logEvent_fixValid (e : Event) (s : State) : (logEvent e s).fixValid = s.fixValid := rfl
@[simp] theorem logEvent_out (e : Event) (s : State) : (logEvent e s).out = s.out := rfl
@[simp] theorem logEvent_ev (e : Event) (s : State) : (logEvent e s).ev = s.ev ++ [e] := rfl
@[simp] theorem logEvent_results (e : Event) (s : State) : (logEvent e s).results = s.results := rfl
@[simp] theorem logEvent_ports (e : Event) (s : State) : (logEvent e s).ports = s.ports := rfl
@[simp] theorem logEvent_script (e : Event) (s : State) : (logEvent e s).script = s.script := rfl
@[simp] theorem logEvent_turn (e : Event) (s : State) : (logEvent e s).turn = s.turn := rfl

@[simp] theorem record_cfg (r : Res) (s : State) : (record r s).cfg = s.cfg := rfl
@[simp] theorem record_queues (r : Res) (s : State) : (record r s).queues = s.queues := rfl
@[simp] theorem record_cursor (r : Res) (s : State) : (record r s).cursor = s.cursor := rfl
@[simp] theorem record_acc (r : Res) (s : State) : (record r s).acc = s.acc := rfl
@[simp] theorem record_fix (r : Res) (s : State) : (record r s).fix = s.fix := rfl
@[simp] theorem record_fixValid (r : Res) (s : State) : (record r s).fixValid = s.fixValid := rfl
@[simp] theorem record_out (r : Res) (s : State) : (record r s).out = s.out := rfl
@[simp] theorem record_ev (r : Res) (s : State) : (record r s).ev = s.ev := rfl
@[simp] theorem record_results (r : Res) (s : State) : (record r s).results = s.results ++ [r] := rfl
@[simp] theorem record_ports (r : Res) (s : State) : (record r s).ports = s.ports := rfl
@[simp] theorem record_script (r : Res) (s : State) : (record r s).script = s.script := rfl
@[simp] theorem record_turn (r : Res) (s : State) : (record r s).turn = s.turn := rfl

@[simp] theorem driveArrive_cfg (q : Link) (ok : Bool) (s : State) : (driveArrive q ok s).cfg = s.cfg := rfl
@[simp] theorem driveArrive_queues (q : Link) (ok : Bool) (s : State) : (driveArrive q ok s).queues = s.queues := rfl
@[simp] theorem driveArrive_cursor (q : Link) (ok : Bool) (s : State) : (driveArrive q ok s).cursor = s.cursor := rfl
@[simp] theorem driveArrive_acc (q : Link) (ok : Bool) (s : State) : (driveArrive q ok s).acc = s.acc := rfl
@[simp] theorem driveArrive_fix (q : Link) (ok : Bool) (s : State) : (driveArrive q ok s).fix = s.fix := rfl
@[simp] theorem driveArrive_fixValid (q : Link) (ok : Bool) (s : State) : (driveArrive q ok s).fixValid = s.fixValid := rfl
@[simp] theorem driveArrive_out (q : Link) (ok : Bool) (s : State) : (driveArrive q ok s).out = s.out := rfl
@[simp] theorem driveArrive_ev (q : Link) (ok : Bool) (s : State) : (driveArrive q ok s).ev = s.ev := rfl
@[simp] theorem driveArrive_results (q : Link) (ok : Bool) (s : State) : (driveArrive q ok s).results = s.results := rfl
@[simp] theorem driveArrive_ports (q : Link) (ok : Bool) (s : State) : (driveArrive q ok s).ports = { s.ports with wrOk := s.ports.wrOk.set q (some ok), ovf := s.ports.ovf.set q (!ok) } := rfl
@[simp] theorem driveArrive_script (q : Link) (ok : Bool) (s : State) : (driveArrive q ok s).script = s.script := rfl
@[simp] theorem driveArrive_turn (q : Link) (ok : Bool) (s : State) : (driveArrive q ok s).turn = s.turn := rfl

@[simp] theorem idleArrive_cfg (q : Link) (s : State) : (idleArrive q s).cfg = s.cfg := rfl
@[simp] theorem idleArrive_queues (q : Link) (s : State) : (idleArrive q s).queues = s.queues := rfl
@[simp] theorem idleArrive_cursor (q : Link) (s : State) : (idleArrive q s).cursor = s.cursor := rfl
@[simp] theorem idleArrive_acc (q : Link) (s : State) : (idleArrive q s).acc = s.acc := rfl
@[simp] theorem idleArrive_fix (q : Link) (s : State) : (idleArrive q s).fix = s.fix := rfl
@[simp] theorem idleArrive_fixValid (q : Link) (s : State) : (idleArrive q s).fixValid = s.fixValid := rfl
@[simp] theorem idleArrive_out (q : Link) (s : State) : (idleArrive q s).out = s.out := rfl
@[simp] theorem idleArrive_ev (q : Link) (s : State) : (idleArrive q s).ev = s.ev := rfl
@[simp] theorem idleArrive_results (q : Link) (s : State) : (idleArrive q s).results = s.results := rfl
@[simp] theorem idleArrive_ports (q : Link) (s : State) : (idleArrive q s).ports = { s.ports with wrOk := s.ports.wrOk.set q none, ovf := s.ports.ovf.set q false } := rfl
@[simp] theorem idleArrive_script (q : Link) (s : State) : (idleArrive q s).script = s.script := rfl
@[simp] theorem idleArrive_turn (q : Link) (s : State) : (idleArrive q s).turn = s.turn := rfl

@[simp] theorem driveHq_cfg (r : Option Byte) (s : State) : (driveHq r s).cfg = s.cfg := rfl
@[simp] theorem driveHq_queues (r : Option Byte) (s : State) : (driveHq r s).queues = s.queues := rfl
@[simp] theorem driveHq_cursor (r : Option Byte) (s : State) : (driveHq r s).cursor = s.cursor := rfl
@[simp] theorem driveHq_acc (r : Option Byte) (s : State) : (driveHq r s).acc = s.acc := rfl
@[simp] theorem driveHq_fix (r : Option Byte) (s : State) : (driveHq r s).fix = s.fix := rfl
@[simp] theorem driveHq_fixValid (r : Option Byte) (s : State) : (driveHq r s).fixValid = s.fixValid := rfl
@[simp] theorem driveHq_out (r : Option Byte) (s : State) : (driveHq r s).out = s.out := rfl
@[simp] theorem driveHq_ev (r : Option Byte) (s : State) : (driveHq r s).ev = s.ev := rfl
@[simp] theorem driveHq_results (r : Option Byte) (s : State) : (driveHq r s).results = s.results := rfl
@[simp] theorem driveHq_ports (r : Option Byte) (s : State) : (driveHq r s).ports = { s.ports with hqRd := r } := rfl
@[simp] theorem driveHq_script (r : Option Byte) (s : State) : (driveHq r s).script = s.script := rfl
@[simp] theorem driveHq_turn (r : Option Byte) (s : State) : (driveHq r s).turn = s.turn := rfl

@[simp] theorem driveFix_cfg (s : State) : (driveFix s).cfg = s.cfg := rfl
@[simp] theorem driveFix_queues (s : State) : (driveFix s).queues = s.queues := rfl
@[simp] theorem driveFix_cursor (s : State) : (driveFix s).cursor = s.cursor := rfl
@[simp] theorem driveFix_acc (s : State) : (driveFix s).acc = s.acc := rfl
@[simp] theorem driveFix_fix (s : State) : (driveFix s).fix = s.fix := rfl
@[simp] theorem driveFix_fixValid (s : State) : (driveFix s).fixValid = s.fixValid := rfl
@[simp] theorem driveFix_out (s : State) : (driveFix s).out = s.out := rfl
@[simp] theorem driveFix_ev (s : State) : (driveFix s).ev = s.ev := rfl
@[simp] theorem driveFix_results (s : State) : (driveFix s).results = s.results := rfl
@[simp] theorem driveFix_ports (s : State) : (driveFix s).ports = { s.ports with fixStrobe := true } := rfl
@[simp] theorem driveFix_script (s : State) : (driveFix s).script = s.script := rfl
@[simp] theorem driveFix_turn (s : State) : (driveFix s).turn = s.turn := rfl

@[simp] theorem driveErr_cfg (c : BitVec 2) (s : State) : (driveErr c s).cfg = s.cfg := rfl
@[simp] theorem driveErr_queues (c : BitVec 2) (s : State) : (driveErr c s).queues = s.queues := rfl
@[simp] theorem driveErr_cursor (c : BitVec 2) (s : State) : (driveErr c s).cursor = s.cursor := rfl
@[simp] theorem driveErr_acc (c : BitVec 2) (s : State) : (driveErr c s).acc = s.acc := rfl
@[simp] theorem driveErr_fix (c : BitVec 2) (s : State) : (driveErr c s).fix = s.fix := rfl
@[simp] theorem driveErr_fixValid (c : BitVec 2) (s : State) : (driveErr c s).fixValid = s.fixValid := rfl
@[simp] theorem driveErr_out (c : BitVec 2) (s : State) : (driveErr c s).out = s.out := rfl
@[simp] theorem driveErr_ev (c : BitVec 2) (s : State) : (driveErr c s).ev = s.ev := rfl
@[simp] theorem driveErr_results (c : BitVec 2) (s : State) : (driveErr c s).results = s.results := rfl
@[simp] theorem driveErr_ports (c : BitVec 2) (s : State) : (driveErr c s).ports = { s.ports with errStrobe := true, errCode := c } := rfl
@[simp] theorem driveErr_script (c : BitVec 2) (s : State) : (driveErr c s).script = s.script := rfl
@[simp] theorem driveErr_turn (c : BitVec 2) (s : State) : (driveErr c s).turn = s.turn := rfl

@[simp] theorem commitFix_cfg (r : PositionFix) (s : State) : (commitFix r s).cfg = s.cfg := rfl
@[simp] theorem commitFix_queues (r : PositionFix) (s : State) : (commitFix r s).queues = s.queues := rfl
@[simp] theorem commitFix_cursor (r : PositionFix) (s : State) : (commitFix r s).cursor = s.cursor := rfl
@[simp] theorem commitFix_acc (r : PositionFix) (s : State) : (commitFix r s).acc = s.acc := rfl
@[simp] theorem commitFix_fix (r : PositionFix) (s : State) : (commitFix r s).fix = r := rfl
@[simp] theorem commitFix_fixValid (r : PositionFix) (s : State) : (commitFix r s).fixValid = true := rfl
@[simp] theorem commitFix_out (r : PositionFix) (s : State) : (commitFix r s).out = s.out := rfl
@[simp] theorem commitFix_ev (r : PositionFix) (s : State) : (commitFix r s).ev = s.ev ++ [.fixUpdate r] := rfl
@[simp] theorem commitFix_results (r : PositionFix) (s : State) : (commitFix r s).results = s.results := rfl
@[simp] theorem commitFix_ports (r : PositionFix) (s : State) : (commitFix r s).ports = { s.ports with fixStrobe := true } := rfl
@[simp] theorem commitFix_script (r : PositionFix) (s : State) : (commitFix r s).script = s.script := rfl
@[simp] theorem commitFix_turn (r : PositionFix) (s : State) : (commitFix r s).turn = s.turn := rfl

@[simp] theorem fData_cfg (b : Byte) (s : State) : (fData b s).cfg = s.cfg := rfl
@[simp] theorem fData_queues (b : Byte) (s : State) : (fData b s).queues = s.queues := rfl
@[simp] theorem fData_cursor (b : Byte) (s : State) : (fData b s).cursor = s.cursor + 1#8 := rfl
@[simp] theorem fData_acc (b : Byte) (s : State) : (fData b s).acc = memWrite s.acc s.cursor.toNat b := rfl
@[simp] theorem fData_fix (b : Byte) (s : State) : (fData b s).fix = s.fix := rfl
@[simp] theorem fData_fixValid (b : Byte) (s : State) : (fData b s).fixValid = s.fixValid := rfl
@[simp] theorem fData_out (b : Byte) (s : State) : (fData b s).out = s.out := rfl
@[simp] theorem fData_ev (b : Byte) (s : State) : (fData b s).ev = s.ev := rfl
@[simp] theorem fData_results (b : Byte) (s : State) : (fData b s).results = s.results := rfl
@[simp] theorem fData_ports (b : Byte) (s : State) : (fData b s).ports = s.ports := rfl
@[simp] theorem fData_script (b : Byte) (s : State) : (fData b s).script = s.script := rfl
@[simp] theorem fData_turn (b : Byte) (s : State) : (fData b s).turn = s.turn := rfl

@[simp] theorem qInit_cfg (q : Link) (s : State) : (qInit q s).cfg = s.cfg := rfl
@[simp] theorem qInit_queues (q : Link) (s : State) : (qInit q s).queues = s.queues.set q { prod := { head := 0#8, tailW := 0#8 }, cons := { tail := 0#8, headR := 0#8 }, qst := s.qst q } := rfl
@[simp] theorem qInit_cursor (q : Link) (s : State) : (qInit q s).cursor = s.cursor := rfl
@[simp] theorem qInit_acc (q : Link) (s : State) : (qInit q s).acc = s.acc := rfl
@[simp] theorem qInit_fix (q : Link) (s : State) : (qInit q s).fix = s.fix := rfl
@[simp] theorem qInit_fixValid (q : Link) (s : State) : (qInit q s).fixValid = s.fixValid := rfl
@[simp] theorem qInit_out (q : Link) (s : State) : (qInit q s).out = s.out := rfl
@[simp] theorem qInit_ev (q : Link) (s : State) : (qInit q s).ev = s.ev := rfl
@[simp] theorem qInit_results (q : Link) (s : State) : (qInit q s).results = s.results := rfl
@[simp] theorem qInit_ports (q : Link) (s : State) : (qInit q s).ports = s.ports := rfl
@[simp] theorem qInit_script (q : Link) (s : State) : (qInit q s).script = s.script := rfl
@[simp] theorem qInit_turn (q : Link) (s : State) : (qInit q s).turn = s.turn := rfl

@[simp] theorem takeStim_cfg (s : State) (xs : List Stim) : (s.takeStim xs).cfg = s.cfg := rfl
@[simp] theorem takeStim_queues (s : State) (xs : List Stim) : (s.takeStim xs).queues = s.queues := rfl
@[simp] theorem takeStim_cursor (s : State) (xs : List Stim) : (s.takeStim xs).cursor = s.cursor := rfl
@[simp] theorem takeStim_acc (s : State) (xs : List Stim) : (s.takeStim xs).acc = s.acc := rfl
@[simp] theorem takeStim_fix (s : State) (xs : List Stim) : (s.takeStim xs).fix = s.fix := rfl
@[simp] theorem takeStim_fixValid (s : State) (xs : List Stim) : (s.takeStim xs).fixValid = s.fixValid := rfl
@[simp] theorem takeStim_out (s : State) (xs : List Stim) : (s.takeStim xs).out = s.out := rfl
@[simp] theorem takeStim_ev (s : State) (xs : List Stim) : (s.takeStim xs).ev = s.ev := rfl
@[simp] theorem takeStim_results (s : State) (xs : List Stim) : (s.takeStim xs).results = s.results := rfl
@[simp] theorem takeStim_ports (s : State) (xs : List Stim) : (s.takeStim xs).ports = Ports.idle := rfl
@[simp] theorem takeStim_script (s : State) (xs : List Stim) : (s.takeStim xs).script = xs := rfl
@[simp] theorem takeStim_turn (s : State) (xs : List Stim) : (s.takeStim xs).turn = s.turn := rfl

@[simp] theorem takeTurn_cfg (s : State) : (s.takeTurn).cfg = s.cfg := rfl
@[simp] theorem takeTurn_queues (s : State) : (s.takeTurn).queues = s.queues := rfl
@[simp] theorem takeTurn_cursor (s : State) : (s.takeTurn).cursor = s.cursor := rfl
@[simp] theorem takeTurn_acc (s : State) : (s.takeTurn).acc = s.acc := rfl
@[simp] theorem takeTurn_fix (s : State) : (s.takeTurn).fix = s.fix := rfl
@[simp] theorem takeTurn_fixValid (s : State) : (s.takeTurn).fixValid = s.fixValid := rfl
@[simp] theorem takeTurn_out (s : State) : (s.takeTurn).out = s.out := rfl
@[simp] theorem takeTurn_ev (s : State) : (s.takeTurn).ev = s.ev := rfl
@[simp] theorem takeTurn_results (s : State) : (s.takeTurn).results = s.results := rfl
@[simp] theorem takeTurn_ports (s : State) : (s.takeTurn).ports = Ports.idle := rfl
@[simp] theorem takeTurn_script (s : State) : (s.takeTurn).script = s.script := rfl
@[simp] theorem takeTurn_turn (s : State) : (s.takeTurn).turn = s.turn.after := rfl

@[simp] theorem emit_queue (x : List Byte) (s : State) (l : Link) : (emit x s).queue l = s.queue l := rfl
@[simp] theorem logEvent_queue (e : Event) (s : State) (l : Link) : (logEvent e s).queue l = s.queue l := rfl
@[simp] theorem record_queue (r : Res) (s : State) (l : Link) : (record r s).queue l = s.queue l := rfl
@[simp] theorem driveArrive_queue (q : Link) (ok : Bool) (s : State) (l : Link) : (driveArrive q ok s).queue l = s.queue l := rfl
@[simp] theorem idleArrive_queue (q : Link) (s : State) (l : Link) : (idleArrive q s).queue l = s.queue l := rfl
@[simp] theorem driveHq_queue (r : Option Byte) (s : State) (l : Link) : (driveHq r s).queue l = s.queue l := rfl
@[simp] theorem driveFix_queue (s : State) (l : Link) : (driveFix s).queue l = s.queue l := rfl
@[simp] theorem driveErr_queue (c : BitVec 2) (s : State) (l : Link) : (driveErr c s).queue l = s.queue l := rfl
@[simp] theorem commitFix_queue (r : PositionFix) (s : State) (l : Link) : (commitFix r s).queue l = s.queue l := rfl
@[simp] theorem fData_queue (b : Byte) (s : State) (l : Link) : (fData b s).queue l = s.queue l := rfl
@[simp] theorem takeStim_queue (s : State) (xs : List Stim) (l : Link) : (s.takeStim xs).queue l = s.queue l := rfl
@[simp] theorem takeTurn_queue (s : State) (l : Link) : (s.takeTurn).queue l = s.queue l := rfl

@[simp] theorem setQueue_queue_same (s : State) (q : Link) (v : Queue) : (s.setQueue q v).queue q = v :=
  Pair.get_set_same _ _ _

theorem setQueue_queue_other (s : State) {q r : Link} (h : r ≠ q) (v : Queue) : (s.setQueue q v).queue r = s.queue r :=
  Pair.get_set_other _ h _

@[simp] theorem qInit_queue_same (q : Link) (s : State) :
    (qInit q s).queue q = { prod := { head := 0#8, tailW := 0#8 }, cons := { tail := 0#8, headR := 0#8 }, qst := s.qst q } :=
  Pair.get_set_same _ _ _

theorem qInit_queue_other {q r : Link} (h : r ≠ q) (s : State) : (qInit q s).queue r = s.queue r :=
  Pair.get_set_other _ h _

/-- A queue whose record is unchanged is unchanged. -/
theorem keepsQueue_of_queue_eq {s t : State} {q : Link} (h : t.queue q = s.queue q) : KeepsQueue q s t := by
  simp [KeepsQueue, State.head, State.tail, State.tailW, State.headR, State.qst, h]

end Sys2Proof.Machine
end

