-- ==== Sys2Proof/Laws/Ops.lean ====
section
/-! SUPPORT. One lemma per shared operation: everything it can do. -/
namespace Sys2Proof.Machine

/-- Everything Q.WRITE can do (R133). -/
theorem qWrite_cases (q : Link) (b : Byte) (s : State) :
    (s.head q + 1#8 = s.tailW q ∧ qWrite q b s = (false, s)) ∨
    (s.head q + 1#8 ≠ s.tailW q ∧ qWrite q b s = (true, s.setQueue q (settle s.cfg.syncMode
      { prod := { head := s.head q + 1#8, tailW := s.tailW q }, cons := (s.queue q).cons,
        qst := memWrite (s.qst q) (s.head q).toNat b }))) := by
  simp only [qWrite, ProdSide.write, State.head, State.tailW, State.qst]
  by_cases h : (s.queue q).prod.head + 1#8 = (s.queue q).prod.tailW
  · exact .inl ⟨h, by simp [h]⟩
  · exact .inr ⟨h, by simp [h]⟩

/-- Everything Q.READ can do (R136). -/
theorem qRead_cases (q : Link) (s : State) :
    (s.headR q = s.tail q ∧ qRead q s = .ok (none, s)) ∨
    (s.headR q ≠ s.tail q ∧ ∃ b, memRead (s.qst q) (s.tail q).toNat = some b ∧
      qRead q s = .ok (some b, s.setQueue q (settle s.cfg.syncMode
        { prod := (s.queue q).prod, cons := { tail := s.tail q + 1#8, headR := s.headR q }, qst := s.qst q }))) ∨
    (s.headR q ≠ s.tail q ∧ memRead (s.qst q) (s.tail q).toNat = none ∧
      qRead q s = .error (.unwrittenQueueCell q (s.tail q))) := by
  simp only [qRead, ConsSide.read, State.headR, State.tail, State.qst]
  by_cases h : (s.queue q).cons.headR = (s.queue q).cons.tail
  · exact .inl ⟨h, by simp [h]⟩
  · refine .inr ?_
    cases hm : memRead (s.queue q).qst (s.queue q).cons.tail.toNat with
    | some b => exact .inl ⟨h, b, rfl, by simp [h]⟩
    | none => exact .inr ⟨h, rfl, by simp [h]⟩

/-- Everything P.ARRIVE can do (R139, R262). -/
theorem pArrive_cases (q : Link) (b : Byte) (s : State) :
    (s.head q + 1#8 = s.tailW q ∧ pArrive q b s = raiseExc (.queueFull q b) (driveArrive q false s)) ∨
    (s.head q + 1#8 ≠ s.tailW q ∧ pArrive q b s = driveArrive q true (s.setQueue q (settle s.cfg.syncMode
      { prod := { head := s.head q + 1#8, tailW := s.tailW q }, cons := (s.queue q).cons,
        qst := memWrite (s.qst q) (s.head q).toNat b }))) := by
  rcases qWrite_cases q b s with ⟨h, e⟩ | ⟨h, e⟩
  · exact .inl ⟨h, by simp only [pArrive, e]⟩
  · exact .inr ⟨h, by simp only [pArrive, e]⟩

/-- `exact` mode: the views take the indices' values. -/
@[simp] theorem settle_exact (v : Queue) :
    settle .exact v = { prod := { head := v.prod.head, tailW := v.cons.tail },
                        cons := { tail := v.cons.tail, headR := v.prod.head }, qst := v.qst } := rfl

/-- `lagged` mode: the views stay. -/
@[simp] theorem settle_lagged (v : Queue) : settle .lagged v = v := rfl

/-- Neither mode moves an index or a cell. -/
theorem settle_keeps (mode : SyncMode) (v : Queue) :
    (settle mode v).prod.head = v.prod.head ∧ (settle mode v).cons.tail = v.cons.tail ∧ (settle mode v).qst = v.qst := by
  cases mode <;> exact ⟨rfl, rfl, rfl⟩

/-- QueueFull: one event, one line (R262). -/
theorem raise_queueFull (q : Link) (b : Byte) (s : State) :
    raiseExc (.queueFull q b) s = emit (qfullText q) (logEvent (.queueFull q b) s) := rfl

/-- SentenceOverflow: one event, the cursor to 0, one line, `err_code` 2 (R263). -/
theorem raise_sentenceOverflow (b : Byte) (s : State) :
    raiseExc (.sentenceOverflow b) s =
      emit ovfText (driveErr 2#2 { logEvent (.sentenceOverflow b) s with cursor := 0#8 }) := rfl

/-- ParseError: one event, `err_code` 3, no line of its own (R264, C9). -/
theorem raise_parseError (x : List Byte) (s : State) :
    raiseExc (.parseError x) s = driveErr 3#2 (logEvent (.parseError x) s) := rfl

/-- Everything X.PARSE can do (R200, R207, R209). -/
theorem xParse_cases (x : List Byte) (s : State) :
    (∃ r, parseFix s.cfg.fmt x = some r ∧ xParse x s = (some r, commitFix r s)) ∨
    (parseFix s.cfg.fmt x = none ∧ xParse x s = (none, driveErr 3#2 (logEvent (.parseError x) s))) := by
  cases h : parseFix s.cfg.fmt x with
  | some r => exact .inl ⟨r, rfl, by simp only [xParse, h]⟩
  | none => exact .inr ⟨rfl, by simp only [xParse, h, raise_parseError]⟩

/-- Everything D.HANDLE can do (R180). -/
theorem dHandle_cases (x : List Byte) (s : State) :
    (hasTag x = false ∧ dHandle x s = emit x s) ∨
    (hasTag x = true ∧ ∃ r, parseFix s.cfg.fmt x = some r ∧
      dHandle x s = emit (fixText s.cfg.fmt r) (commitFix r (emit x s))) ∨
    (hasTag x = true ∧ parseFix s.cfg.fmt x = none ∧
      dHandle x s = emit badfixText (driveErr 3#2 (logEvent (.parseError x) (emit x s)))) := by
  cases ht : hasTag x with
  | false => exact .inl ⟨rfl, by simp [dHandle, ht]⟩
  | true =>
    refine .inr ?_
    rcases xParse_cases x (emit x s) with ⟨r, hr, e⟩ | ⟨hr, e⟩
    · exact .inl ⟨rfl, r, hr, by simp [dHandle, ht, e, diagText]⟩
    · exact .inr ⟨rfl, hr, by simp [dHandle, ht, e, diagText]⟩

/-- Everything F.FEED can do (R160 to R163). -/
theorem fFeed_cases (b : Byte) (s : State) :
    (isTerm b = true ∧ s.cursor = 0#8 ∧ fFeed b s = .next s) ∨
    (isTerm b = true ∧ s.cursor ≠ 0#8 ∧ ∃ x, memRun s.acc 0 s.cursor.toNat = some x ∧
      fFeed b s = .next { dHandle x (logEvent (.sentence x) s) with cursor := 0#8 }) ∨
    (isTerm b = true ∧ s.cursor ≠ 0#8 ∧ memRun s.acc 0 s.cursor.toNat = none ∧
      fFeed b s = .fault .unwrittenAccCell) ∨
    (isTerm b = false ∧ s.cursor.toNat < Config.L - 1 ∧ fFeed b s = .next (fData b s)) ∨
    (isTerm b = false ∧ s.cursor.toNat = Config.L - 1 ∧ fFeed b s = .next (fOvf b s)) := by
  cases hb : isTerm b with
  | true =>
    by_cases hc : s.cursor = 0#8
    · exact .inl ⟨rfl, hc, by simp [fFeed, hb, fTerm, idle, hc]⟩
    · refine .inr ?_
      cases hm : memRun s.acc 0 s.cursor.toNat with
      | some x => exact .inl ⟨rfl, hc, x, rfl, by simp [fFeed, hb, fTerm, idle, hc, hm]⟩
      | none => exact .inr (.inl ⟨rfl, hc, rfl, by simp [fFeed, hb, fTerm, idle, hc, hm]⟩)
  | false =>
    refine .inr (.inr (.inr ?_))
    have hlt := s.cursor.isLt
    by_cases hc : s.cursor.toNat < Config.L - 1
    · have ha : accFull s = false := by simp only [accFull, hc, decide_true, Bool.not_true]
      exact .inl ⟨rfl, hc, by simp [fFeed, hb, ha]⟩
    · have ha : accFull s = true := by simp only [accFull, hc, decide_false, Bool.not_false]
      exact .inr ⟨rfl, by simp only [Config.L] at *; omega, by simp [fFeed, hb, ha]⟩

/-- Everything C.STEP can do (R166). -/
theorem cStep_cases (s : State) :
    (s.headR s.cfg.gnssLink = s.tail s.cfg.gnssLink ∧ cStep s = .next s) ∨
    (s.headR s.cfg.gnssLink ≠ s.tail s.cfg.gnssLink ∧
      ∃ b, memRead (s.qst s.cfg.gnssLink) (s.tail s.cfg.gnssLink).toNat = some b ∧
        cStep s = fFeed b (s.setQueue s.cfg.gnssLink (settle s.cfg.syncMode
          { prod := (s.queue s.cfg.gnssLink).prod,
            cons := { tail := s.tail s.cfg.gnssLink + 1#8, headR := s.headR s.cfg.gnssLink },
            qst := s.qst s.cfg.gnssLink }))) ∨
    (s.headR s.cfg.gnssLink ≠ s.tail s.cfg.gnssLink ∧
      memRead (s.qst s.cfg.gnssLink) (s.tail s.cfg.gnssLink).toNat = none ∧
      cStep s = .fault (.unwrittenQueueCell s.cfg.gnssLink (s.tail s.cfg.gnssLink))) := by
  rcases qRead_cases s.cfg.gnssLink s with ⟨h, e⟩ | ⟨h, b, hb, e⟩ | ⟨h, hb, e⟩
  · exact .inl ⟨h, by simp only [cStep, e]⟩
  · exact .inr (.inl ⟨h, b, hb, by simp only [cStep, e]⟩)
  · exact .inr (.inr ⟨h, hb, by simp only [cStep, e]⟩)

/-- RESET, whatever the banner (R300). -/
theorem bootReset_eq (s : State) : ∃ tx, bootReset s =
    { s with queues := { at0 := { Queue.fresh with qst := s.qst .link0 }, at1 := { Queue.fresh with qst := s.qst .link1 } },
             cursor := 0#8, fix := PositionFix.zero, fixValid := false, out := bannerBytes s.cfg.banner, ev := [],
             ports := { s.ports with tx := tx } } := by
  cases hb : s.cfg.banner with
  | none => exact ⟨s.ports.tx, by simp only [bootReset, qInit, State.setQueue, hb]; rfl⟩
  | some t => exact ⟨s.ports.tx ++ lineBytes t, by simp only [bootReset, qInit, State.setQueue, hb]; rfl⟩

/-- A synchroniser step in `lagged` mode moves one view (R141). -/
theorem qSyncW_lagged {s : State} (h : s.cfg.syncMode = .lagged) (q : Link) (mv : Move) :
    qSyncW q mv s = s.setQueue q { s.queue q with prod := { head := s.head q, tailW := s.tailW q + moveBy mv (s.tail q - s.tailW q) } } := by
  simp only [qSyncW, h]; rfl

/-- A synchroniser step in `lagged` mode moves one view (R142). -/
theorem qSyncR_lagged {s : State} (h : s.cfg.syncMode = .lagged) (q : Link) (mv : Move) :
    qSyncR q mv s = s.setQueue q { s.queue q with cons := { tail := s.tail q, headR := s.headR q + moveBy mv (s.head q - s.headR q) } } := by
  simp only [qSyncR, h]; rfl

/-- In `exact` mode the synchroniser words change nothing (R120). -/
theorem qSync_exact {s : State} (h : s.cfg.syncMode = .exact) (q : Link) (mv : Move) :
    qSyncW q mv s = s ∧ qSyncR q mv s = s := by
  constructor
  · simp only [qSyncW, h]
  · simp only [qSyncR, h]

/-- A view never moves past the index it follows (R141, R142). -/
theorem moveBy_le (mv : Move) (d : Index) : (moveBy mv d).toNat ≤ d.toNat := by
  cases mv with
  | full => exact Nat.le_refl _
  | upTo k => simp only [moveBy]; split <;> omega

end Sys2Proof.Machine
end

