-- ==== Sys2Proof/Laws/PerInstr.lean ====
section
/-! SUPPORT. A fact of every instruction as syntax, one lemma per constructor: the row the decoder names has the same
bits and the same well-formedness, and is the row the decoder names for itself. -/
namespace Sys2Proof.Laws.WordRow

/-- What `wordRow` keeps. -/
def Statement (i : Instr) : Prop :=
  wordRow (wordRow i) = wordRow i ∧ encode (wordRow i) = encode i ∧ (wordRow i).wellFormed = i.wellFormed

theorem reset : Statement (.reset) := ⟨rfl, rfl, rfl⟩
theorem init (q : Link) : Statement (.init q) := ⟨rfl, rfl, rfl⟩
theorem arriveOk (q : Link) (b : Byte) : Statement (.arriveOk q b) := ⟨rfl, rfl, rfl⟩
theorem arriveFull (q : Link) (b : Byte) : Statement (.arriveFull q b) := ⟨rfl, rfl, rfl⟩
theorem writeOk (q : Link) (b : Byte) : Statement (.writeOk q b) := ⟨rfl, rfl, rfl⟩
theorem writeFull (q : Link) (b : Byte) : Statement (.writeFull q b) := ⟨rfl, rfl, rfl⟩
theorem readSome (q : Link) : Statement (.readSome q) := ⟨rfl, rfl, rfl⟩
theorem readNone (q : Link) : Statement (.readNone q) := ⟨rfl, rfl, rfl⟩
theorem stepByte : Statement (.stepByte) := ⟨rfl, rfl, rfl⟩
theorem stepEmpty : Statement (.stepEmpty) := ⟨rfl, rfl, rfl⟩
theorem feed (b : Byte) : Statement (.feed b) := ⟨rfl, rfl, rfl⟩
theorem syncw (q : Link) (mv : Move) : Statement (.syncw q mv) := ⟨rfl, rfl, rfl⟩
theorem syncr (q : Link) (mv : Move) : Statement (.syncr q mv) := ⟨rfl, rfl, rfl⟩
theorem reserved9 (x : BitVec 12) : Statement (.reserved9 x) := ⟨rfl, rfl, rfl⟩
theorem reservedA (x : BitVec 12) : Statement (.reservedA x) := ⟨rfl, rfl, rfl⟩
theorem reservedB (x : BitVec 12) : Statement (.reservedB x) := ⟨rfl, rfl, rfl⟩
theorem reservedC (x : BitVec 12) : Statement (.reservedC x) := ⟨rfl, rfl, rfl⟩
theorem reservedD (x : BitVec 12) : Statement (.reservedD x) := ⟨rfl, rfl, rfl⟩
theorem reservedE (x : BitVec 12) : Statement (.reservedE x) := ⟨rfl, rfl, rfl⟩
theorem reservedF (x : BitVec 12) : Statement (.reservedF x) := ⟨rfl, rfl, rfl⟩
theorem portArrive (q : Link) (b : Byte) : Statement (.portArrive q b) := ⟨rfl, rfl, rfl⟩
theorem portIdle (q : Link) (d : Byte) : Statement (.portIdle q d) := ⟨rfl, rfl, rfl⟩
theorem portHqread : Statement (.portHqread) := ⟨rfl, rfl, rfl⟩
theorem portHqidle : Statement (.portHqidle) := ⟨rfl, rfl, rfl⟩
theorem feedTermCr : Statement (.feedTermCr) := ⟨rfl, rfl, rfl⟩
theorem feedTermLf : Statement (.feedTermLf) := ⟨rfl, rfl, rfl⟩
theorem feedData (b : Byte) : Statement (.feedData b) := ⟨rfl, rfl, rfl⟩
theorem feedOvf (b : Byte) : Statement (.feedOvf b) := ⟨rfl, rfl, rfl⟩
theorem handleFix (s : List Byte) : Statement (.handleFix s) := ⟨rfl, rfl, rfl⟩
theorem handleEcho (s : List Byte) : Statement (.handleEcho s) := ⟨rfl, rfl, rfl⟩
theorem parseOk (s : List Byte) : Statement (.parseOk s) := ⟨rfl, rfl, rfl⟩
theorem parseErr (s : List Byte) : Statement (.parseErr s) := ⟨rfl, rfl, rfl⟩
theorem oLine (s : List Byte) : Statement (.oLine s) := ⟨rfl, rfl, rfl⟩
theorem dec2f (t : List Byte) : Statement (.dec2f t) := ⟨rfl, rfl, rfl⟩
theorem div100 (x : Fp) : Statement (.div100 x) := ⟨rfl, rfl, rfl⟩
theorem neg (x : Fp) : Statement (.neg x) := ⟨rfl, rfl, rfl⟩
theorem fmt (x : Fp) (n : Nat) : Statement (.fmt x n) := ⟨rfl, rfl, rfl⟩

end Sys2Proof.Laws.WordRow
end

