-- ==== Sys2Proof/Laws/Queue.lean ====
section
/-! SUPPORT. The bytes a queue holds (20_memory R71) and the bytes of a run of cells, by their reads. -/
namespace Sys2Proof.Machine

/-- A run of reads succeeds exactly when every read does. -/
theorem memRun_some_iff {m : Mem} {a n : Nat} :
    (∃ t, memRun m a n = some t) ↔ ∀ i, i < n → ∃ b, memRead m (a + i) = some b := by
  induction n generalizing a with
  | zero => simp [memRun]
  | succ n ih =>
    constructor
    · rintro ⟨t, h⟩ i hi
      simp only [memRun] at h
      split at h
      · rename_i b u hb hu
        rcases i with _ | i
        · exact ⟨b, hb⟩
        · obtain ⟨c, hc⟩ := ih.1 ⟨u, hu⟩ i (by omega)
          exact ⟨c, by rw [← hc]; congr 1; omega⟩
      · cases h
    · intro h
      obtain ⟨b, hb⟩ := h 0 (by omega)
      obtain ⟨u, hu⟩ := (ih (a := a + 1)).2 fun i hi => by
        obtain ⟨c, hc⟩ := h (i + 1) (by omega)
        exact ⟨c, by rw [← hc]; congr 1; omega⟩
      exact ⟨b :: u, by simp only [memRun, show memRead m a = some b from hb, hu]⟩

/-- The held bytes are defined exactly when every cell of them is written. -/
theorem heldFrom_some_iff {m : Mem} {a : Index} {n : Nat} :
    (∃ t, heldFrom m a n = some t) ↔ ∀ i, i < n → ∃ b, memRead m (a + BitVec.ofNat 8 i).toNat = some b := by
  have e (a : Index) (i : Nat) : a + 1#8 + BitVec.ofNat 8 i = a + BitVec.ofNat 8 (i + 1) := by
    rw [BitVec.ofNat_add, BitVec.add_assoc]
    congr 1
    exact BitVec.add_comm _ _
  induction n generalizing a with
  | zero => simp [heldFrom]
  | succ n ih =>
    constructor
    · rintro ⟨t, h⟩ i hi
      simp only [heldFrom] at h
      split at h
      · rename_i b u hb hu
        rcases i with _ | i
        · exact ⟨b, by simpa using hb⟩
        · obtain ⟨c, hc⟩ := ih.1 ⟨u, hu⟩ i (by omega)
          exact ⟨c, by rw [← hc, e]⟩
      · cases h
    · intro h
      obtain ⟨b, hb⟩ := h 0 (by omega)
      obtain ⟨u, hu⟩ := (ih (a := a + 1#8)).2 fun i hi => by
        obtain ⟨c, hc⟩ := h (i + 1) (by omega)
        exact ⟨c, by rw [← hc, e]⟩
      exact ⟨b :: u, by simp only [heldFrom, show memRead m a.toNat = some b by simpa using hb, hu]⟩

/-- The held bytes see a memory through their cells only. -/
theorem heldFrom_congr {m m' : Mem} (n : Nat) (a : Index)
    (h : ∀ i, i < n → memRead m' (a + BitVec.ofNat 8 i).toNat = memRead m (a + BitVec.ofNat 8 i).toNat) :
    heldFrom m' a n = heldFrom m a n := by
  induction n generalizing a with
  | zero => rfl
  | succ n ih =>
    have h0 := h 0 (by omega)
    simp only [BitVec.add_zero] at h0
    simp only [heldFrom]
    rw [h0, ih (a + 1#8)]
    intro i hi
    have := h (i + 1) (by omega)
    rwa [BitVec.ofNat_add, BitVec.add_comm (BitVec.ofNat 8 i), ← BitVec.add_assoc] at this

/-- The held bytes, one longer: the newest byte stands last. -/
theorem heldFrom_succ_last (m : Mem) (a : Index) (n : Nat) :
    heldFrom m a (n + 1) = match heldFrom m a n, memRead m (a + BitVec.ofNat 8 n).toNat with
      | some t, some b => some (t ++ [b])
      | _, _ => none := by
  induction n generalizing a with
  | zero =>
    simp only [heldFrom, BitVec.add_zero]
    cases memRead m a.toNat <;> rfl
  | succ n ih =>
    have e : a + 1#8 + BitVec.ofNat 8 n = a + BitVec.ofNat 8 (n + 1) := by
      rw [BitVec.ofNat_add, BitVec.add_assoc]
      congr 1
      exact BitVec.add_comm _ _
    rw [heldFrom, ih (a + 1#8), heldFrom, e]
    cases memRead m a.toNat <;> cases heldFrom m (a + 1#8) n <;>
      cases memRead m (a + BitVec.ofNat 8 (n + 1)).toNat <;> simp

/-- The cells `0` to `n - 1` filled by a function. -/
theorem memRead_table (f : Nat → Byte) (n a : Nat) :
    memRead ((List.range n).map (fun i => (i, f i))) a = if a < n then some (f a) else none := by
  have h (l : List Nat) : memRead (l.map (fun i => (i, f i))) a = if a ∈ l then some (f a) else none := by
    induction l with
    | nil => simp [memRead]
    | cons i l ih =>
      simp only [List.map_cons, memRead, ih, List.mem_cons]
      by_cases hi : i = a
      · simp [hi]
      · simp [hi, Ne.symm hi]
  simp [h]

/-- Such cells are in canonical form. -/
theorem table_wf (f : Nat → Byte) {n size : Nat} (h : n ≤ size) :
    Mem.wf size ((List.range n).map (fun i => (i, f i))) := by
  refine ⟨List.pairwise_map.2 List.pairwise_lt_range, fun c hc => ?_⟩
  obtain ⟨i, hi, rfl⟩ := List.mem_map.1 hc
  exact Nat.lt_of_lt_of_le (List.mem_range.1 hi) h

/-- A run of such cells. -/
theorem memRun_table (f : Nat → Byte) (n : Nat) (a k : Nat) (h : a + k ≤ n) :
    memRun ((List.range n).map (fun i => (i, f i))) a k = some ((List.range' a k).map f) := by
  induction k generalizing a with
  | zero => rfl
  | succ k ih =>
    simp only [memRun, memRead_table, ih (a + 1) (by omega), show a < n by omega, if_true, List.range'_succ, List.map_cons]

end Sys2Proof.Machine
end

