-- ==== Sys2Proof/Laws/Step.lean ====
section
/-! SUPPORT. The rows of one word are one operation, and what a step runs (30_encoding R104). -/
namespace Sys2Proof.Machine

/-- The row the state selects does what every row of the word does. -/
@[simp] theorem exec_selectRow (s u : State) (i : Instr) : exec (selectRow u i) s = exec i s := by
  cases i <;> simp only [selectRow] <;> first | rfl | (split <;> rfl)

/-- The row the decoder names does what every row of the word does. -/
theorem exec_wordRow (s : State) (i : Instr) : exec (wordRow i) s = exec i s := by
  cases i <;> rfl

/-- A step with a stimulus that is an operation. -/
theorem step_stim {s : State} {x : Stim} {rest : List Stim} {i : Instr} (h : s.script = x :: rest)
    (hd : decode x = .ok i) : step s = exec i (s.takeStim rest) := by
  simp only [step, h, hd, exec_selectRow]

/-- A step with a stimulus that is none. -/
theorem step_illFormed {s : State} {x : Stim} {rest : List Stim} {e : DecodeError} (h : s.script = x :: rest)
    (hd : decode x = .error e) : step s = .refused (.illFormed e) := by
  simp only [step, h, hd]

/-- A step with no stimulus pending. -/
theorem step_turn {s : State} (h : s.script = []) : step s = exec s.turn.op s.takeTurn := by
  simp only [step, h, exec_selectRow]

/-- Everything a step that goes on can be: an operation, in a state with the pins idle and the script or the turn
passed on. -/
theorem step_next_cases {s t : State} (h : step s = .next t) :
    (∃ x rest i, s.script = x :: rest ∧ decode x = .ok i ∧ exec i (s.takeStim rest) = .next t) ∨
    (s.script = [] ∧ exec s.turn.op s.takeTurn = .next t) := by
  cases hs : s.script with
  | nil => exact .inr ⟨rfl, (step_turn hs) ▸ h⟩
  | cons x rest =>
    cases hd : decode x with
    | ok i => exact .inl ⟨x, rest, i, rfl, hd, (step_stim hs hd) ▸ h⟩
    | error e => rw [step_illFormed hs hd] at h; cases h

end Sys2Proof.Machine
end

