-- ==== Sys2Proof/Tests/Slice0.lean ====
section
/-! SUPPORT. Tests. Expected values are the spec's: its encoding tables, the examples of its rules, the vectors of
95_test_vectors (named Q, F, P, DV or by section). Then a state or operands that meet the hypotheses of each statement of
Certificates/Slice0/Obligations.lean, clause by clause. -/
namespace Sys2Proof.Tests
open Sys2Proof.Machine
set_option Elab.async false

/-! Helpers. -/

/-- The next state, if there is one. -/
def after : Out → Option State
  | .next t => some t
  | _ => none

/-- Cells `0` to `n - 1`, cell `i` holding `i`. -/
def cells (n : Nat) : Mem := (List.range n).map (fun i => (i, BitVec.ofNat 8 i))

/-- Cells `0` to `n - 1`, each holding `A`. -/
def cellsA (n : Nat) : Mem := (List.range n).map (fun i => (i, 0x41#8))

/-- A queue from its four indices and its cells. -/
def queueAt (head tailW tail headR : Index) (m : Mem) : Queue :=
  { prod := { head := head, tailW := tailW }, cons := { tail := tail, headR := headR }, qst := m }

/-- A queue whose views equal its indices. -/
def settled (head tail : Index) (m : Mem) : Queue := queueAt head tail tail head m

/-- Reset, with one queue as given. -/
def withQueue (q : Link) (v : Queue) : State := State.reset.setQueue q v

/-- `lagged` mode. -/
def lagged (s : State) : State := { s with cfg := { s.cfg with syncMode := .lagged } }

/-- `binary32`. -/
def single (s : State) : State := { s with cfg := { s.cfg with fmt := .binary32 } }

/-- A stimulus at the head of the script. -/
def given (x : Stim) (s : State) : State := { s with script := x :: s.script }

/-- GNP's example sentence `EX` (95_test_vectors section 1.7). -/
def ex : List Byte :=
  [0x24#8, 0x47#8, 0x50#8, 0x47#8, 0x47#8, 0x41#8, 0x2C#8, 0x31#8, 0x32#8, 0x33#8, 0x35#8, 0x31#8, 0x39#8, 0x2C#8,
   0x34#8, 0x38#8, 0x30#8, 0x37#8, 0x2E#8, 0x30#8, 0x33#8, 0x38#8, 0x2C#8, 0x4E#8, 0x2C#8, 0x30#8, 0x31#8, 0x31#8,
   0x33#8, 0x31#8, 0x2E#8, 0x30#8, 0x30#8, 0x30#8, 0x2C#8, 0x45#8, 0x2C#8, 0x31#8, 0x2C#8, 0x30#8, 0x38#8, 0x2C#8,
   0x30#8, 0x2E#8, 0x39#8, 0x2C#8, 0x35#8, 0x34#8, 0x35#8, 0x2E#8, 0x34#8, 0x2C#8, 0x4D#8, 0x2C#8, 0x34#8, 0x36#8,
   0x2E#8, 0x39#8, 0x2C#8, 0x4D#8, 0x2C#8, 0x2C#8, 0x2A#8, 0x34#8, 0x37#8]

/-- The FIX line of `EX` in binary64 (section 1.7). -/
def exLine : List Byte :=
  [0x4C#8, 0x61#8, 0x74#8, 0x3A#8, 0x20#8, 0x34#8, 0x38#8, 0x2E#8, 0x30#8, 0x37#8, 0x30#8, 0x33#8, 0x38#8, 0x30#8,
   0x2C#8, 0x20#8, 0x4C#8, 0x6F#8, 0x6E#8, 0x3A#8, 0x20#8, 0x31#8, 0x31#8, 0x2E#8, 0x33#8, 0x31#8, 0x30#8, 0x30#8,
   0x30#8, 0x30#8, 0x2C#8, 0x20#8, 0x41#8, 0x6C#8, 0x74#8, 0x3A#8, 0x20#8, 0x35#8, 0x34#8, 0x35#8, 0x2E#8, 0x34#8,
   0x30#8]

/-- `EX` with its altitude field empty (section 1.9). -/
def exNoAlt : List Byte :=
  [0x24#8, 0x47#8, 0x50#8, 0x47#8, 0x47#8, 0x41#8, 0x2C#8, 0x31#8, 0x32#8, 0x33#8, 0x35#8, 0x31#8, 0x39#8, 0x2C#8,
   0x34#8, 0x38#8, 0x30#8, 0x37#8, 0x2E#8, 0x30#8, 0x33#8, 0x38#8, 0x2C#8, 0x4E#8, 0x2C#8, 0x30#8, 0x31#8, 0x31#8,
   0x33#8, 0x31#8, 0x2E#8, 0x30#8, 0x30#8, 0x30#8, 0x2C#8, 0x45#8, 0x2C#8, 0x31#8, 0x2C#8, 0x30#8, 0x38#8, 0x2C#8,
   0x30#8, 0x2E#8, 0x39#8, 0x2C#8, 0x2C#8, 0x4D#8, 0x2C#8, 0x34#8, 0x36#8, 0x2E#8, 0x39#8, 0x2C#8, 0x4D#8, 0x2C#8,
   0x2C#8, 0x2A#8, 0x34#8, 0x37#8]

/-- The record of `EX` in binary64 (section 1.7). -/
def exFix : PositionFix := { lat := 0x40480902363B256F#64, lon := 0x40269EB851EB851F#64, alt := 0x40810B3333333333#64 }

/-! WellFormed refuses an ill-formed term of each check. -/

theorem test_wellFormed_reserved9 : Instr.wellFormed (.reserved9 0x001#12) = false := by decide +kernel
theorem test_wellFormed_reservedA : Instr.wellFormed (.reservedA 0x001#12) = false := by decide +kernel
theorem test_wellFormed_reservedB : Instr.wellFormed (.reservedB 0x001#12) = false := by decide +kernel
theorem test_wellFormed_reservedC : Instr.wellFormed (.reservedC 0x001#12) = false := by decide +kernel
theorem test_wellFormed_reservedD : Instr.wellFormed (.reservedD 0x001#12) = false := by decide +kernel
theorem test_wellFormed_reservedE : Instr.wellFormed (.reservedE 0x001#12) = false := by decide +kernel
theorem test_wellFormed_reservedF : Instr.wellFormed (.reservedF 0x001#12) = false := by decide +kernel
theorem test_wellFormed_feedData_cr : Instr.wellFormed (.feedData 0x0D#8) = false := by decide +kernel
theorem test_wellFormed_feedData_lf : Instr.wellFormed (.feedData 0x0A#8) = false := by decide +kernel
theorem test_wellFormed_feedOvf_cr : Instr.wellFormed (.feedOvf 0x0D#8) = false := by decide +kernel
theorem test_wellFormed_handleFix_noTag : Instr.wellFormed (.handleFix [0x41#8]) = false := by decide +kernel
theorem test_wellFormed_handleFix_withCr : Instr.wellFormed (.handleFix (ex ++ [0x0D#8])) = false := by decide +kernel
theorem test_wellFormed_handleFix_tooLong : Instr.wellFormed (.handleFix (ex ++ List.replicate 191 0x41#8)) = false := by decide +kernel
theorem test_wellFormed_handleFix_longest : Instr.wellFormed (.handleFix (ex ++ List.replicate 190 0x41#8)) = true := by decide +kernel
theorem test_wellFormed_handleEcho_empty : Instr.wellFormed (.handleEcho []) = false := by decide +kernel
theorem test_wellFormed_handleEcho_tag : Instr.wellFormed (.handleEcho ex) = false := by decide +kernel
theorem test_wellFormed_dec2f_plus : Instr.wellFormed (.dec2f [0x2B#8, 0x35#8]) = false := by decide +kernel
theorem test_wellFormed_dec2f_trailingPoint : Instr.wellFormed (.dec2f [0x35#8, 0x2E#8]) = false := by decide +kernel
theorem test_wellFormed_div100_nan : Instr.wellFormed (.div100 0x7FF8000000000000#64) = false := by decide +kernel
theorem test_wellFormed_neg_infinity : Instr.wellFormed (.neg 0x7FF0000000000000#64) = false := by decide +kernel
theorem test_wellFormed_fmt_infinity : Instr.wellFormed (.fmt 0xFFF0000000000000#64 6) = false := by decide +kernel

/-! Decoding: words written out bit by bit from R95, R102, R103 and R120. -/

theorem test_decode_reset : decode (.word16 0b0000000000000000#16) = .ok (.reset) := by rfl
theorem test_decode_init : decode (.word16 0b0001000100000000#16) = .ok (.init .link1) := by rfl
theorem test_decode_arriveOk : decode (.word16 0b0010000100100100#16) = .ok (.arriveOk .link1 0x24#8) := by rfl
theorem test_decode_writeOk : decode (.word16 0b0011000011101110#16) = .ok (.writeOk .link0 0xEE#8) := by rfl
theorem test_decode_readSome : decode (.word16 0b0100000100000000#16) = .ok (.readSome .link1) := by rfl
theorem test_decode_stepByte : decode (.word16 0b0101000000000000#16) = .ok (.stepByte) := by rfl
theorem test_decode_feed : decode (.word16 0b0110000001000001#16) = .ok (.feed 0x41#8) := by rfl
theorem test_decode_syncw : decode (.word16 0b0111000100000000#16) = .ok (.syncw .link1 .full) := by rfl
theorem test_decode_syncr : decode (.word16 0b1000000000000000#16) = .ok (.syncr .link0 .full) := by rfl
theorem test_decode_reserved9 : decode (.word16 0b1001000000000001#16) = .ok (.reserved9 0x001#12) := by rfl
theorem test_decode_reservedA : decode (.word16 0b1010000000000001#16) = .ok (.reservedA 0x001#12) := by rfl
theorem test_decode_reservedB : decode (.word16 0b1011000000000001#16) = .ok (.reservedB 0x001#12) := by rfl
theorem test_decode_reservedC : decode (.word16 0b1100000000000001#16) = .ok (.reservedC 0x001#12) := by rfl
theorem test_decode_reservedD : decode (.word16 0b1101000000000001#16) = .ok (.reservedD 0x001#12) := by rfl
theorem test_decode_reservedE : decode (.word16 0b1110000000000001#16) = .ok (.reservedE 0x001#12) := by rfl
theorem test_decode_reservedF : decode (.word16 0b1111000000000001#16) = .ok (.reservedF 0x001#12) := by rfl
theorem test_decode_portArrive : decode (.port9 .link0 0b101000001#9) = .ok (.portArrive .link0 0x41#8) := by rfl
theorem test_decode_portIdle : decode (.port9 .link1 0b011111111#9) = .ok (.portIdle .link1 0xFF#8) := by rfl
theorem test_decode_portHqread : decode (.port1 0b1#1) = .ok (.portHqread) := by rfl
theorem test_decode_portHqidle : decode (.port1 0b0#1) = .ok (.portHqidle) := by rfl
theorem test_decode_feedTermCr : decode (.byte8 0b00001101#8) = .ok (.feedTermCr) := by rfl
theorem test_decode_feedTermLf : decode (.byte8 0b00001010#8) = .ok (.feedTermLf) := by rfl
theorem test_decode_feedData : decode (.byte8 0b11111111#8) = .ok (.feedData 0xFF#8) := by rfl
theorem test_decode_handleFix : decode (.sentence (prefixBytes 0x244750474741)) = .ok (.handleFix [0x24#8, 0x47#8, 0x50#8, 0x47#8, 0x47#8, 0x41#8]) := by rfl
theorem test_decode_handleEcho : decode (.sentence (prefixBytes 0x244E47474741)) = .ok (.handleEcho [0x24#8, 0x4E#8, 0x47#8, 0x47#8, 0x47#8, 0x41#8]) := by rfl
theorem test_decode_parseOk : decode (.direct (.parseOk ex)) = .ok (.parseOk ex) := by rfl
theorem test_decode_oLine : decode (.direct (.oLine ex)) = .ok (.oLine ex) := by rfl
theorem test_decode_dec2f : decode (.direct (.dec2f [0x31#8])) = .ok (.dec2f [0x31#8]) := by rfl
theorem test_decode_div100 : decode (.direct (.div100 0#64)) = .ok (.div100 0#64) := by rfl
theorem test_decode_neg : decode (.direct (.neg 0#64)) = .ok (.neg 0#64) := by rfl
theorem test_decode_fmt : decode (.direct (.fmt 0#64 6)) = .ok (.fmt 0#64 6) := by rfl
theorem test_decode_syncw_partial : decode (.direct (.syncw .link1 (.upTo 2#8))) = .ok (.syncw .link1 (.upTo 2#8)) := by rfl

/-- The five states that share a word: the state selects the row (R104). -/
theorem test_selectRow : selectRow State.reset (.arriveOk .link1 0x41#8) = .arriveOk .link1 0x41#8 ∧
    selectRow (withQueue .link1 (settled 255#8 0#8 (cells 255))) (.arriveOk .link1 0x41#8) = .arriveFull .link1 0x41#8 ∧
    selectRow State.reset (.readSome .link1) = .readNone .link1 ∧ selectRow State.reset .stepByte = .stepEmpty ∧
    selectRow { State.reset with cursor := 255#8 } (.feedData 0x41#8) = .feedOvf 0x41#8 := by decide +kernel
theorem test_decode_unusedQ : decode (.word16 0x0100#16) = .error (.nonZeroField 0x0100#16) := by rfl
theorem test_decode_unusedB : decode (.word16 0x4001#16) = .error (.nonZeroField 0x4001#16) := by rfl
theorem test_decode_zeroField : decode (.word16 0x2241#16) = .error (.nonZeroField 0x2241#16) := by rfl
theorem test_decode_hasBitPattern : decode (.direct .reset) = .error (.hasBitPattern .reset) := by rfl
theorem test_decode_unknownFormat : decode (stimOf 32 0x5000) = .error (.unknownFormat 32 0x5000) := by rfl
theorem test_decodeTableWord : decodeTableWord 16 0x2124 = some (.arriveOk .link1 0x24#8) ∧
    decodeTableWord 9 0x141 = some (.portArrive .link1 0x41#8) ∧
    decodeTableWord 16 0x141 = some (.portArrive .link1 0x41#8) ∧ decodeTableWord 16 0 = some .reset ∧ decodeTableWord 1 1 = some .portHqread ∧
    decodeTableWord 8 0x0D = some .feedTermCr ∧ decodeTableWord 48 0x244750474741 = some (.handleFix [0x24#8, 0x47#8, 0x50#8, 0x47#8, 0x47#8, 0x41#8]) ∧
    decodeTableWord 16 0x5001 = none := by decide +kernel
/-- The next step runs the placed word: `ARRIVE 1, 0x24` stores at slot 0 (R139). -/
theorem test_withFetchWord : (after (step (State.reset.withFetchWord 16 0x2124))).map
    (fun t => (t.head .link1, t.qst .link1, t.script)) = some (1#8, [(0, 0x24#8)], []) := by decide +kernel
theorem test_step_refusesReserved :
    step (given (.word16 0xF000#16) State.reset) = .refused (.reservedOpcode 0xF#4) := by rfl
theorem test_step_refusesIllFormed :
    step (given (.word16 0x5001#16) State.reset) = .refused (.illFormed (.nonZeroField 0x5001#16)) := by rfl


/-! One step each. -/

/-- R300, R188: the banner `Hi`, and every value of R44, from a state with other values. -/
theorem test_reset : (after (exec .reset { withQueue .link1 (settled 7#8 3#8 (cells 7)) with
      cfg := { State.reset.cfg with banner := some [0x48#8, 0x69#8] }, cursor := 3#8, acc := cells 3, fix := exFix,
      fixValid := true, out := [0x41#8, 0x0A#8], ev := [.sentence [0x41#8]] })).map
    (fun t => (t.out, t.ev, t.cursor, t.fix, t.fixValid)) = some ([0x48#8, 0x69#8, 0x0A#8], [], 0#8, PositionFix.zero, false) := by
  decide +kernel
/-- R131 example, Q5: from `head[1] = 7, tail[1] = 3`; queue 0 untouched. -/
theorem test_init : (after (exec (.init .link1) ((withQueue .link1 (settled 7#8 3#8 (cells 7))).setQueue .link0
      (settled 2#8 1#8 (cells 2))))).map (fun t => (t.queue .link1, t.queue .link0)) =
    some (settled 0#8 0#8 (cells 7), settled 2#8 1#8 (cells 2)) := by decide +kernel
/-- Program 7: `ARRIVE 0, 0x78`. -/
theorem test_arriveOk : (after (exec (.arriveOk .link0 0x78#8) State.reset)).map
    (fun t => (t.queue .link0, t.out, t.ev)) =
    some (queueAt 1#8 0#8 0#8 1#8 [(0, 0x78#8)], [], []) := by decide +kernel
/-- R139 example, Q6: `UART0 Buffer Full`. -/
theorem test_arriveFull : (after (exec (.arriveFull .link0 0x58#8) (withQueue .link0 (settled 255#8 0#8 (cells 255))))).map
    (fun t => (t.queue .link0, t.out, t.ev)) = some (settled 255#8 0#8 (cells 255),
  [0x55#8, 0x41#8, 0x52#8, 0x54#8, 0x30#8, 0x20#8, 0x42#8, 0x75#8, 0x66#8, 0x66#8, 0x65#8, 0x72#8, 0x20#8, 0x46#8,
   0x75#8, 0x6C#8, 0x6C#8, 0x0A#8],
   [.queueFull .link0 0x58#8]) := by decide +kernel
/-- R139: link 1's line is `UART1 Buffer Full`. -/
theorem test_arriveFull_link1 : (after (exec (.arriveOk .link1 0x58#8) (withQueue .link1 (settled 4#8 5#8 [])))).map
    (fun t => t.out) = some
  [0x55#8, 0x41#8, 0x52#8, 0x54#8, 0x31#8, 0x20#8, 0x42#8, 0x75#8, 0x66#8, 0x66#8, 0x65#8, 0x72#8, 0x20#8, 0x46#8,
   0x75#8, 0x6C#8, 0x6C#8, 0x0A#8] := by decide +kernel
/-- R133 example: `head[1] = 255, tail[1] = 5`; slot 255 is written and `head` wraps. -/
theorem test_writeOk : (after (exec (.writeOk .link1 0x41#8) (withQueue .link1 (settled 255#8 5#8 (cells 255))))).map
    (fun t => (t.head .link1, memRead (t.qst .link1) 255, memRead (t.qst .link1) 254, t.results)) =
    some (0#8, some 0x41#8, some 0xFE#8, [.wrote true]) := by decide +kernel
/-- Q3: the 256th write is refused. -/
theorem test_writeFull : (after (exec (.writeFull .link1 0xFF#8) (withQueue .link1 (settled 255#8 0#8 (cells 255))))).map
    (fun t => (t.queue .link1, t.results)) = some (settled 255#8 0#8 (cells 255), [.wrote false]) := by decide +kernel
/-- Q9: false full in `lagged` mode, 245 bytes held. -/
theorem test_writeFull_lagged : (after (exec (.writeOk .link1 0xEE#8)
      (lagged (withQueue .link1 (queueAt 255#8 0#8 10#8 255#8 (cells 255)))))).map (fun t => (t.head .link1, t.results)) =
    some (255#8, [.wrote false]) := by decide +kernel
/-- R136 example. -/
theorem test_readSome : (after (exec (.readSome .link1) (withQueue .link1 (settled 6#8 5#8 [(5, 0x24#8)])))).map
    (fun t => (t.queue .link1, t.results)) = some (settled 6#8 6#8 [(5, 0x24#8)], [.read (some 0x24#8)]) := by
  decide +kernel
/-- Q4: `tail` wraps from 255. -/
theorem test_readSome_wraps : (after (exec (.readSome .link1) (withQueue .link1 (settled 0#8 255#8 [(255, 0xAA#8)])))).map
    (fun t => (t.tail .link1, t.results)) = some (0#8, [.read (some 0xAA#8)]) := by decide +kernel
/-- Q1: an empty queue. -/
theorem test_readNone : (after (exec (.readNone .link1) State.reset)).map (fun t => (t.queue .link1, t.results)) =
    some (Queue.fresh, [.read none]) := by decide +kernel
/-- Q8: false empty in `lagged` mode. -/
theorem test_readNone_lagged : (after (exec (.readSome .link1)
      (lagged (withQueue .link1 (queueAt 1#8 0#8 0#8 0#8 [(0, 0x41#8)]))))).map (fun t => (t.tail .link1, t.results)) =
    some (0#8, [.read none]) := by decide +kernel
/-- R166 example: the queue holds `0x0A` only, the accumulator `ABC`. -/
theorem test_stepByte : (after (exec .stepByte { withQueue .link1 (settled 1#8 0#8 [(0, 0x0A#8)]) with
      cursor := 3#8, acc := [(0, 0x41#8), (1, 0x42#8), (2, 0x43#8)] })).map
    (fun t => (t.out, t.ev, t.cursor, t.tail .link1, t.results)) =
    some ([0x41#8, 0x42#8, 0x43#8, 0x0A#8], [.sentence [0x41#8, 0x42#8, 0x43#8]], 0#8, 1#8, []) := by decide +kernel
/-- R166 (a), (d): the GNSS queue empty, the host queue not: nothing changes. -/
theorem test_stepEmpty : (after (exec .stepEmpty (withQueue .link0 (settled 1#8 0#8 [(0, 0x78#8)])))) =
    some (withQueue .link0 (settled 1#8 0#8 [(0, 0x78#8)])) := by decide +kernel
/-- R162 example, by its word. -/
theorem test_feed : (after (exec (.feed 0x24#8) State.reset)).map (fun t => (t.cursor, t.acc, t.out)) =
    some (1#8, [(0, 0x24#8)], []) := by decide +kernel
/-- R141 example, and the partial move of Q10's note. -/
theorem test_syncw : (after (exec (.syncw .link1 .full) (lagged (withQueue .link1 (queueAt 9#8 4#8 9#8 9#8 []))))).map
    (fun t => t.tailW .link1) = some 9#8 := by decide +kernel
theorem test_syncw_partial : (after (exec (.syncw .link1 (.upTo 2#8))
    (lagged (withQueue .link1 (queueAt 9#8 4#8 9#8 9#8 []))))).map (fun t => t.tailW .link1) = some 6#8 := by decide +kernel
/-- R142 example: a move of 9 through the wrap. -/
theorem test_syncr : (after (exec (.syncr .link1 .full) (lagged (withQueue .link1 (queueAt 3#8 250#8 250#8 250#8 []))))).map
    (fun t => (t.headR .link1, t.tail .link1)) = some (3#8, 250#8) := by decide +kernel
/-- R120: in `exact` mode a no-op. -/
theorem test_syncr_exact : after (exec (.syncr .link1 .full) State.reset) = some State.reset := by decide +kernel
theorem test_reserved9 : exec (.reserved9 0#12) State.reset = .refused (.reservedOpcode 0x9#4) := rfl
theorem test_reservedA : exec (.reservedA 0#12) State.reset = .refused (.reservedOpcode 0xA#4) := rfl
theorem test_reservedB : exec (.reservedB 0#12) State.reset = .refused (.reservedOpcode 0xB#4) := rfl
theorem test_reservedC : exec (.reservedC 0#12) State.reset = .refused (.reservedOpcode 0xC#4) := rfl
theorem test_reservedD : exec (.reservedD 0#12) State.reset = .refused (.reservedOpcode 0xD#4) := rfl
theorem test_reservedE : exec (.reservedE 0#12) State.reset = .refused (.reservedOpcode 0xE#4) := rfl
theorem test_reservedF : exec (.reservedF 0#12) State.reset = .refused (.reservedOpcode 0xF#4) := rfl
/-- R95: `wr_ok = 0` and `ovf = 1` of the refused byte, on its own link only. -/
theorem test_portArrive : (after (exec (.portArrive .link0 0x58#8) (withQueue .link0 (settled 255#8 0#8 (cells 255))))).map
    (fun t => (t.ports.wrOk, t.ports.ovf, t.ev)) =
    some (⟨some false, none⟩, ⟨true, false⟩, [.queueFull .link0 0x58#8]) := by decide +kernel
theorem test_portIdle : after (exec (.portIdle .link1 0xFF#8) State.reset) = some State.reset := by decide +kernel
/-- R95, R136: the host queue is queue 0. -/
theorem test_portHqread : (after (exec .portHqread (withQueue .link0 (settled 1#8 0#8 [(0, 0x78#8)])))).map
    (fun t => (t.ports.hqRd, t.tail .link0, t.results)) = some (some 0x78#8, 1#8, []) := by decide +kernel
theorem test_portHqread_empty : (after (exec .portHqread (withQueue .link1 (settled 1#8 0#8 [(0, 0x78#8)])))).map
    (fun t => (t.ports.hqRd, t.tail .link1)) = some (none, 0#8) := by decide +kernel
theorem test_portHqidle : (after (exec .portHqidle (withQueue .link0 (settled 1#8 0#8 [(0, 0x78#8)])))).map
    (fun t => (t.ports.hqRd, t.tail .link0)) = some (none, 0#8) := by decide +kernel
/-- R161 example. -/
theorem test_feedTermCr : (after (exec .feedTermCr { State.reset with
      cursor := 3#8, acc := [(0, 0x41#8), (1, 0x42#8), (2, 0x43#8)] })).map (fun t => (t.out, t.ev, t.cursor, t.acc)) =
    some ([0x41#8, 0x42#8, 0x43#8, 0x0A#8], [.sentence [0x41#8, 0x42#8, 0x43#8]], 0#8,
      [(0, 0x41#8), (1, 0x42#8), (2, 0x43#8)]) := by decide +kernel
/-- R161: ignored with nothing accumulated. -/
theorem test_feedTermLf : after (exec .feedTermLf State.reset) = some State.reset := by decide +kernel
/-- R162 (a): the largest index written is 254. -/
theorem test_feedData : (after (exec (.feedData 0x42#8) { State.reset with cursor := 254#8, acc := cellsA 254 })).map
    (fun t => (t.cursor, memRead t.acc 254, memRead t.acc 255)) = some (255#8, some 0x42#8, none) := by decide +kernel
/-- R163 example, F12: `NMEA Buffer Overflow`. -/
theorem test_feedOvf : (after (exec (.feedOvf 0x42#8) { State.reset with cursor := 255#8, acc := cellsA 255 })).map
    (fun t => (t.cursor, t.out, t.ev, t.ports.errCode)) = some (0#8,
  [0x4E#8, 0x4D#8, 0x45#8, 0x41#8, 0x20#8, 0x42#8, 0x75#8, 0x66#8, 0x66#8, 0x65#8, 0x72#8, 0x20#8, 0x4F#8, 0x76#8,
   0x65#8, 0x72#8, 0x66#8, 0x6C#8, 0x6F#8, 0x77#8, 0x0A#8],
   [.sentenceOverflow 0x42#8], 2#2) := by decide +kernel
/-- Section 1.7, binary64: the ECHO line, then the FIX line. -/
theorem test_handleFix : (after (exec (.handleFix ex) State.reset)).map (fun t => (t.fix, t.fixValid, t.ev, t.out)) =
    some (exFix, true, [.fixUpdate exFix], ex ++ [0x0A#8] ++ exLine ++ [0x0A#8]) := by decide +kernel
/-- DV8: `$GPGGA,` has two fields. -/
theorem test_handleFix_bad : (after (exec (.handleFix [0x24#8, 0x47#8, 0x50#8, 0x47#8, 0x47#8, 0x41#8, 0x2C#8]) State.reset)).map
    (fun t => (t.fix, t.fixValid, t.out)) = some (PositionFix.zero, false,
  [0x24#8, 0x47#8, 0x50#8, 0x47#8, 0x47#8, 0x41#8, 0x2C#8, 0x0A#8, 0x49#8, 0x6E#8, 0x76#8, 0x61#8, 0x6C#8, 0x69#8,
   0x64#8, 0x20#8, 0x47#8, 0x50#8, 0x47#8, 0x47#8, 0x41#8, 0x20#8, 0x73#8, 0x65#8, 0x6E#8, 0x74#8, 0x65#8, 0x6E#8,
   0x63#8, 0x65#8, 0x0A#8]) := by decide +kernel
/-- DV1. -/
theorem test_handleEcho : (after (exec (.handleEcho [0x24#8, 0x47#8, 0x50#8, 0x47#8, 0x53#8, 0x56#8, 0x2C#8, 0x33#8, 0x2C#8, 0x31#8, 0x2C#8, 0x31#8, 0x31#8])
      State.reset)).map (fun t => (t.out, t.ev, t.fixValid)) = some (
  [0x24#8, 0x47#8, 0x50#8, 0x47#8, 0x53#8, 0x56#8, 0x2C#8, 0x33#8, 0x2C#8, 0x31#8, 0x2C#8, 0x31#8, 0x31#8, 0x0A#8], [], false) := by decide +kernel
/-- Section 1.7, binary32. -/
theorem test_parseOk : (after (exec (.parseOk ex) (single State.reset))).map (fun t => (t.fix, t.fixValid, t.out)) =
    some (⟨0x42404812#64, 0x4134F5C3#64, 0x4408599A#64⟩, true, []) := by decide +kernel
/-- Section 1.8, binary64: `S` and `W`. -/
theorem test_parseOk_negated : parseFix .binary64
  [0x24#8, 0x47#8, 0x50#8, 0x47#8, 0x47#8, 0x41#8, 0x2C#8, 0x31#8, 0x32#8, 0x33#8, 0x35#8, 0x31#8, 0x39#8, 0x2C#8,
   0x34#8, 0x38#8, 0x30#8, 0x37#8, 0x2E#8, 0x30#8, 0x33#8, 0x38#8, 0x2C#8, 0x53#8, 0x2C#8, 0x30#8, 0x31#8, 0x31#8,
   0x33#8, 0x31#8, 0x2E#8, 0x30#8, 0x30#8, 0x30#8, 0x2C#8, 0x57#8, 0x2C#8, 0x31#8, 0x2C#8, 0x30#8, 0x38#8, 0x2C#8,
   0x30#8, 0x2E#8, 0x39#8, 0x2C#8, 0x35#8, 0x34#8, 0x35#8, 0x2E#8, 0x34#8, 0x2C#8, 0x4D#8, 0x2C#8, 0x34#8, 0x36#8,
   0x2E#8, 0x39#8, 0x2C#8, 0x4D#8, 0x2C#8, 0x2C#8, 0x2A#8, 0x34#8, 0x37#8] =
    some ⟨0xC0480902363B256F#64, 0xC0269EB851EB851F#64, 0x40810B3333333333#64⟩ := by decide +kernel
/-- Section 1.9: the record stays. -/
theorem test_parseErr : (after (exec (.parseErr exNoAlt) { State.reset with fix := exFix, fixValid := true })).map
    (fun t => (t.fix, t.fixValid, t.ev, t.results)) =
    some (exFix, true, [.parseError exNoAlt], [.parsed none]) := by decide +kernel
/-- DV6: the tag field is `$GPGGAX`. -/
theorem test_parseErr_tag : parseFix .binary64
  [0x24#8, 0x47#8, 0x50#8, 0x47#8, 0x47#8, 0x41#8, 0x58#8, 0x2C#8, 0x31#8, 0x32#8, 0x33#8, 0x35#8, 0x31#8, 0x39#8,
   0x2C#8, 0x34#8, 0x38#8, 0x30#8, 0x37#8, 0x2E#8, 0x30#8, 0x33#8, 0x38#8, 0x2C#8, 0x4E#8, 0x2C#8, 0x30#8, 0x31#8,
   0x31#8, 0x33#8, 0x31#8, 0x2E#8, 0x30#8, 0x30#8, 0x30#8, 0x2C#8, 0x45#8, 0x2C#8, 0x31#8, 0x2C#8, 0x30#8, 0x38#8,
   0x2C#8, 0x30#8, 0x2E#8, 0x39#8, 0x2C#8, 0x35#8, 0x34#8, 0x35#8, 0x2E#8, 0x34#8] = none := by decide +kernel
/-- R184 example. -/
theorem test_oLine : (after (exec (.oLine [0x41#8, 0x42#8, 0x43#8]) State.reset)).map (fun t => (t.out, t.ports.tx)) =
    some ([0x41#8, 0x42#8, 0x43#8, 0x0A#8], [0x41#8, 0x42#8, 0x43#8, 0x0A#8]) := by decide +kernel
/-- R233 example: `545.4` in binary64. -/
theorem test_dec2f : (after (exec (.dec2f [0x35#8, 0x34#8, 0x35#8, 0x2E#8, 0x34#8]) State.reset)).map (fun t => t.results) =
    some [.number (some 0x40810B3333333333#64)] := by decide +kernel
/-- Section 2.5: `16777219` in binary32 is a tie and goes to the even 16777220. -/
theorem test_dec2f_tie : dec2f .binary32 [0x31#8, 0x36#8, 0x37#8, 0x37#8, 0x37#8, 0x32#8, 0x31#8, 0x39#8] =
    some 0x4B800002#64 := by decide +kernel
/-- R236 example. -/
theorem test_div100 : (after (exec (.div100 0x4091AC0000000000#64) State.reset)).map (fun t => t.results) =
    some [.number (some 0x40269EB851EB851F#64)] := by decide +kernel
/-- Section 2.5: 250 * 2^-149 in binary32, the tie 2.5 goes to the even 2. -/
theorem test_div100_tie : div100 .binary32 0x000000FA#64 = 0x00000002#64 := by decide +kernel
/-- Logs 9 and 24: in binary32 a pattern with a bit above bit 31 is no operand of R236; its quotient is the free value. -/
theorem test_div100_notBinary32 : div100 .binary32 0x100000000#64 = Config.div100OfNonValue .binary32 0x100000000#64 := by
  simp [div100, show isFmtValue .binary32 0x100000000#64 = false by decide +kernel]
/-- R237 example. -/
theorem test_neg : (after (exec (.neg 0x40480902363B256F#64) State.reset)).map (fun t => t.results) =
    some [.number (some 0xC0480902363B256F#64)] := by decide +kernel
/-- Section 2.5, binary32: `-0.0` becomes `+0.0`. -/
theorem test_neg_zero : negate .binary32 0x80000000#64 = 0#64 := by decide +kernel
/-- R239 example: `48.070380`. -/
theorem test_fmt : (after (exec (.fmt 0x40480902363B256F#64 6) State.reset)).map (fun t => t.results) =
    some [.text [0x34#8, 0x38#8, 0x2E#8, 0x30#8, 0x37#8, 0x30#8, 0x33#8, 0x38#8, 0x30#8]] := by decide +kernel
/-- R239 (b), (c): 0.375 prints `0.38`; `-0.0` prints its sign. -/
theorem test_fmt_ties : fmtText .binary32 0x3EC00000#64 2 = [0x30#8, 0x2E#8, 0x33#8, 0x38#8] ∧
    fmtText .binary64 0x8000000000000000#64 2 = [0x2D#8, 0x30#8, 0x2E#8, 0x30#8, 0x30#8] := by decide +kernel

/-! Witnesses. `witness_<Obligation>` meets the statement's hypotheses; the suffix names the clause. -/

/-- A good state that is not reset: a terminator waits in the GNSS queue, `ABC` is accumulated, a record is held. -/
def waiting : State :=
  { withQueue .link1 (settled 1#8 0#8 [(0, 0x0A#8)]) with
    cursor := 3#8, acc := [(0, 0x41#8), (1, 0x42#8), (2, 0x43#8)], fix := exFix, fixValid := true }

theorem waiting_queueInv (mode : SyncMode) : ∀ q, QueueInv mode (waiting.queue q)
  | .link0 => ⟨by decide +kernel, ⟨[], by decide +kernel⟩, by decide +kernel, fun _ => ⟨rfl, rfl⟩⟩
  | .link1 => ⟨by decide +kernel, ⟨[0x0A#8], by decide +kernel⟩, by decide +kernel, fun _ => ⟨rfl, rfl⟩⟩

theorem waiting_framerInv : FramerInv waiting :=
  ⟨⟨[0x41#8, 0x42#8, 0x43#8], by decide +kernel, by decide +kernel⟩, by decide +kernel⟩

theorem waiting_fixInv : FixInv waiting :=
  ⟨by decide +kernel, by decide +kernel, by decide +kernel, fun h => absurd h (by decide +kernel)⟩

theorem waiting_inv : Inv waiting := ⟨waiting_queueInv _, waiting_framerInv, waiting_fixInv⟩

/-- The same in `lagged` mode. -/
theorem waiting_lagged_inv : Inv (lagged waiting) :=
  ⟨waiting_queueInv _, ⟨waiting_framerInv.collected, waiting_framerInv.cells⟩,
    ⟨waiting_fixInv.lat, waiting_fixInv.lon, waiting_fixInv.alt, waiting_fixInv.unset⟩⟩

/-- An outcome that has a next state is one. -/
theorem next_of_after {o : Out} (h : (after o).isSome = true) : ∃ t, o = .next t := by
  cases o with
  | next t => exact ⟨t, rfl⟩
  | fault _ => cases h
  | refused _ => cases h

/-- A queue that holds the first `n` of its cells. -/
def holding (n : Nat) : Queue := settled (BitVec.ofNat 8 n) 0#8 (cells n)

theorem holding_inv (mode : SyncMode) (n : Nat) (hn : n ≤ 255) : QueueInv mode (holding n) := by
  refine ⟨?_, ?_, table_wf _ (by simp only [Config.C, Config.IW]; omega), fun _ => ⟨rfl, rfl⟩⟩
  · simp only [Queue.span, holding, settled, queueAt, Config.C, Config.IW]
    simp
    omega
  · refine heldFrom_some_iff.2 fun i hi => ?_
    simp only [holding, settled, queueAt, BitVec.sub_zero, BitVec.toNat_ofNat] at hi
    refine ⟨_, (memRead_table _ n _).trans (if_pos ?_)⟩
    simp only [holding, settled, queueAt, BitVec.zero_add, BitVec.toNat_ofNat]
    omega

/-- A queue that holds 255 bytes, as many as it can. -/
def fullQueue : Queue := holding 255

theorem fullQueue_inv (mode : SyncMode) : QueueInv mode fullQueue := holding_inv mode 255 (by omega)

/-- A queue that holds 254 bytes: room for one. -/
def almostFullQueue : Queue := holding 254

theorem almostFullQueue_inv (mode : SyncMode) : QueueInv mode almostFullQueue := holding_inv mode 254 (by omega)

/-- An empty queue in the middle of its circle. -/
def emptyQueue : Queue := settled 7#8 7#8 (cells 7)

theorem emptyQueue_inv (mode : SyncMode) : QueueInv mode emptyQueue :=
  ⟨by decide +kernel, ⟨[], by decide +kernel⟩, by decide +kernel, fun _ => ⟨rfl, rfl⟩⟩

/-! Encoding and the step. -/

theorem witness_EveryWellFormedRowRoundTrips :
    (Instr.handleFix ex).wellFormed = true ∧ (Instr.feedOvf 0xFF#8).wellFormed = true ∧
    (Instr.neg 0x80000000#64).wellFormed = true ∧ (Instr.syncw .link1 (.upTo 255#8)).wellFormed = true := by decide +kernel
theorem witness_EveryStimulusRoundTrips : decode (.word16 0x31FF#16) = .ok (.writeOk .link1 0xFF#8) ∧
    decode (.sentence ex) = .ok (.handleFix ex) := ⟨rfl, rfl⟩
theorem witness_WordsWithNonZeroUnusedFieldsAreRefused_zero :
    (given (.word16 0x8200#16) State.reset).script = .word16 0x8200#16 :: [] ∧ (0x8200#16).toNat / 0x1000 ≤ 8 ∧
    (0x8200#16).toNat / 0x200 % 8 ≠ 0 := by decide +kernel
theorem witness_WordsWithNonZeroUnusedFieldsAreRefused_q : (0x61FF#16).toNat / 0x1000 ≤ 8 ∧
    (0x61FF#16).toNat / 0x1000 ∉ [1, 2, 3, 4, 7, 8] ∧ (0x61FF#16).toNat / 0x100 % 2 ≠ 0 := by decide +kernel
theorem witness_WordsWithNonZeroUnusedFieldsAreRefused_b : (0x8001#16).toNat / 0x1000 ≤ 8 ∧
    (0x8001#16).toNat / 0x1000 ∉ [2, 3, 6] ∧ (0x8001#16).toNat % 0x100 ≠ 0 := by decide +kernel
theorem witness_ReservedOpcodesAreRefused : (given (.word16 0x9000#16) State.reset).script = .word16 0x9000#16 :: [] ∧
    9 ≤ (0x9000#16).toNat / 0x1000 ∧ 9 ≤ (0xFFFF#16).toNat / 0x1000 := by decide +kernel
theorem witness_StepRunsTheDecodedOperation : (given (.word16 0x5000#16) waiting).script = .word16 0x5000#16 :: [] ∧
    decode (.word16 0x5000#16) = .ok .stepByte := ⟨rfl, rfl⟩
theorem witness_StepWithoutStimulusTakesTheTurn : waiting.script = [] ∧ waiting.turn = .cons ∧
    { waiting with turn := .syncW0 }.turn = .syncW0 ∧ { waiting with turn := .syncR0 }.turn = .syncR0 ∧
    { waiting with turn := .syncW1 }.turn = .syncW1 ∧ { waiting with turn := .syncR1 }.turn = .syncR1 := by decide +kernel

/-! RESET. -/

theorem witness_ResetLeavesTheSpecValues : waiting.cfg.banner = none ∧
    { waiting with cfg := { waiting.cfg with banner := some [0x48#8] } }.cfg.banner = some [0x48#8] := ⟨rfl, rfl⟩

/-! The queues. -/

theorem witness_WriteStoresAndAdvancesOrRefuses_refused :
    (withQueue .link1 fullQueue).head .link1 + 1#8 = (withQueue .link1 fullQueue).tailW .link1 := by decide +kernel
theorem witness_WriteStoresAndAdvancesOrRefuses_accepted :
    (withQueue .link1 almostFullQueue).head .link1 + 1#8 ≠ (withQueue .link1 almostFullQueue).tailW .link1 ∧
    (withQueue .link1 almostFullQueue).cfg.syncMode = .exact ∧
    (lagged (withQueue .link1 almostFullQueue)).cfg.syncMode = .lagged := by decide +kernel
theorem witness_WriteStoresAndAdvancesOrRefuses_good :
    QueueInv (withQueue .link1 almostFullQueue).cfg.syncMode ((withQueue .link1 almostFullQueue).queue .link1) :=
  almostFullQueue_inv _
theorem witness_ReadTakesTheOldestByteOrNone_none :
    (withQueue .link1 emptyQueue).headR .link1 = (withQueue .link1 emptyQueue).tail .link1 := by decide +kernel
theorem witness_ReadTakesTheOldestByteOrNone_some :
    (withQueue .link1 fullQueue).headR .link1 ≠ (withQueue .link1 fullQueue).tail .link1 ∧
    memRead ((withQueue .link1 fullQueue).qst .link1) ((withQueue .link1 fullQueue).tail .link1).toNat = some 0#8 ∧
    (withQueue .link1 fullQueue).cfg.syncMode = .exact ∧
    (lagged (withQueue .link1 fullQueue)).cfg.syncMode = .lagged := by decide +kernel
theorem witness_ReadTakesTheOldestByteOrNone_good :
    QueueInv (withQueue .link1 fullQueue).cfg.syncMode ((withQueue .link1 fullQueue).queue .link1) := fullQueue_inv _
theorem witness_HostPortReadsTheHostQueue_none : .link0 = waiting.cfg.hostLink ∧
    waiting.headR .link0 = waiting.tail .link0 := by decide +kernel
theorem witness_HostPortReadsTheHostQueue_some : .link0 = (withQueue .link0 fullQueue).cfg.hostLink ∧
    (withQueue .link0 fullQueue).headR .link0 ≠ (withQueue .link0 fullQueue).tail .link0 ∧
    memRead ((withQueue .link0 fullQueue).qst .link0) ((withQueue .link0 fullQueue).tail .link0).toNat = some 0#8 := by
  decide +kernel
/-- The cell at 1 is not written; `tail` and `head_r` have gone past what was. -/
def unwritten : State :=
  { withQueue .link1 (settled 3#8 1#8 [(0, 0x41#8)]) with cursor := 2#8, acc := [(0, 0x41#8)] }
theorem witness_UnwrittenCellsFault : unwritten.headR .link1 ≠ unwritten.tail .link1 ∧
    memRead (unwritten.qst .link1) (unwritten.tail .link1).toNat = none ∧ .link1 = unwritten.cfg.gnssLink ∧
    unwritten.cursor ≠ 0#8 ∧ ∃ a < unwritten.cursor.toNat, memRead unwritten.acc a = none :=
  ⟨by decide +kernel, by decide +kernel, rfl, by decide +kernel, 1, by decide +kernel, by decide +kernel⟩
theorem witness_UnwrittenCellsFault_host :
    (withQueue .link0 (settled 3#8 1#8 [])).headR .link0 ≠ (withQueue .link0 (settled 3#8 1#8 [])).tail .link0 ∧
    memRead ((withQueue .link0 (settled 3#8 1#8 [])).qst .link0) 1 = none ∧
    .link0 = (withQueue .link0 (settled 3#8 1#8 [])).cfg.hostLink := by decide +kernel
theorem witness_ArriveStoresTheByte :
    (withQueue .link0 almostFullQueue).head .link0 + 1#8 ≠ (withQueue .link0 almostFullQueue).tailW .link0 := by
  decide +kernel
theorem witness_ArriveAtAFullQueueRaisesQueueFull :
    (withQueue .link0 fullQueue).head .link0 + 1#8 = (withQueue .link0 fullQueue).tailW .link0 ∧
    (withQueue .link1 fullQueue).head .link1 + 1#8 = (withQueue .link1 fullQueue).tailW .link1 := by decide +kernel
/-- R141's example state. -/
def syncing : State := lagged (withQueue .link1 (queueAt 3#8 4#8 9#8 250#8 []))
theorem witness_SyncwMovesOnlyTheProducersView : syncing.cfg.syncMode = .lagged ∧
    (5#8).toNat ≤ (syncing.tail .link1 - syncing.tailW .link1).toNat ∧
    (0#8).toNat ≤ (syncing.tail .link1 - syncing.tailW .link1).toNat ∧ waiting.cfg.syncMode = .exact := by decide +kernel
theorem witness_SyncrMovesOnlyTheConsumersView : syncing.cfg.syncMode = .lagged ∧
    (9#8).toNat ≤ (syncing.head .link1 - syncing.headR .link1).toNat ∧ waiting.cfg.syncMode = .exact := by decide +kernel
theorem witness_ExactWriteFailsExactlyWhenFull :
    (withQueue .link1 fullQueue).cfg.syncMode = .exact ∧ QueueInv .exact ((withQueue .link1 fullQueue).queue .link1) ∧
    count (withQueue .link1 fullQueue) .link1 = 255 := ⟨rfl, fullQueue_inv _, by decide +kernel⟩
theorem witness_ExactWriteFailsExactlyWhenFull_room :
    QueueInv .exact ((withQueue .link1 almostFullQueue).queue .link1) ∧
    count (withQueue .link1 almostFullQueue) .link1 = 254 := ⟨almostFullQueue_inv _, by decide +kernel⟩
theorem witness_LaggedViewsArePessimistic_full :
    QueueInv (lagged (withQueue .link1 fullQueue)).cfg.syncMode ((lagged (withQueue .link1 fullQueue)).queue .link1) ∧
    count (lagged (withQueue .link1 fullQueue)) .link1 = 255 := ⟨fullQueue_inv _, by decide +kernel⟩
theorem witness_LaggedViewsArePessimistic_empty :
    QueueInv (lagged (withQueue .link1 emptyQueue)).cfg.syncMode ((lagged (withQueue .link1 emptyQueue)).queue .link1) ∧
    count (lagged (withQueue .link1 emptyQueue)) .link1 = 0 := ⟨emptyQueue_inv _, by decide +kernel⟩
theorem witness_QueueReturnsAcceptedBytesInOrder :
    QueueInv (lagged (withQueue .link1 emptyQueue)).cfg.syncMode ((lagged (withQueue .link1 emptyQueue)).queue .link1) ∧
    (lagged (withQueue .link1 emptyQueue)).head .link1 = (lagged (withQueue .link1 emptyQueue)).tail .link1 :=
  ⟨emptyQueue_inv _, by decide +kernel⟩
theorem witness_ExactIsLaggedWithFullMoves : waiting.cfg.syncMode = .exact ∧
    (∀ q, waiting.tailW q = waiting.tail q ∧ waiting.headR q = waiting.head q) ∧
    ∃ t, exec .stepByte waiting = .next t :=
  ⟨rfl, fun q => by cases q <;> exact ⟨rfl, rfl⟩, next_of_after (by decide +kernel)⟩

/-! F.FEED and C.STEP. -/

theorem memRun_cellsA (n : Nat) : memRun (cellsA n) 0 n = some ((List.range' 0 n).map fun _ => 0x41#8) := by
  unfold cellsA
  exact memRun_table (fun _ => 0x41#8) n 0 n (by omega)
theorem witness_TerminatorEmitsTheSentenceOrIsIgnored_emits :
    ({ State.reset with cursor := 255#8, acc := cellsA 255 } : State).cursor ≠ 0#8 ∧
    memRun ({ State.reset with cursor := 255#8, acc := cellsA 255 } : State).acc 0 255 =
      some ((List.range' 0 255).map fun _ => 0x41#8) := ⟨by decide +kernel, memRun_cellsA 255⟩
theorem witness_TerminatorEmitsTheSentenceOrIsIgnored_one : waiting.cursor ≠ 0#8 ∧
    memRun waiting.acc 0 waiting.cursor.toNat = some [0x41#8, 0x42#8, 0x43#8] := by decide +kernel
theorem witness_TerminatorEmitsTheSentenceOrIsIgnored_ignored : State.reset.cursor = 0#8 := rfl
theorem witness_DataByteIsStored : (0x0B#8 : Byte) ≠ 0x0D#8 ∧ (0x0B#8 : Byte) ≠ 0x0A#8 ∧ State.reset.cursor.toNat < 255 ∧
    ({ State.reset with cursor := 254#8, acc := cellsA 254 } : State).cursor.toNat < 255 := by decide +kernel
theorem witness_FullAccumulatorOverflows : (0xFF#8 : Byte) ≠ 0x0D#8 ∧ (0xFF#8 : Byte) ≠ 0x0A#8 ∧
    ({ State.reset with cursor := 255#8, acc := cellsA 255 } : State).cursor.toNat = 255 := by decide +kernel
theorem witness_AbcIsOneSentenceAndBlankLinesAreNone : { waiting with cursor := 0#8 }.cursor = 0#8 := rfl
/-- A run of `A`s holds no terminator. -/
theorem aRun (n : Nat) : ∀ b ∈ List.replicate n (0x41#8 : Byte), b ≠ 0x0D#8 ∧ b ≠ 0x0A#8 := fun b hb => by
  rw [List.eq_of_mem_replicate hb]
  decide
theorem witness_AccumulatorHoldsTheBytesFed : State.reset.cursor = 0#8 ∧
    (∀ b ∈ List.replicate 255 (0x41#8 : Byte), b ≠ 0x0D#8 ∧ b ≠ 0x0A#8) ∧
    (List.replicate 255 (0x41#8 : Byte)).length ≤ 255 := ⟨rfl, aRun 255, by rw [List.length_replicate]⟩
theorem witness_FramerRunLaw : ∀ b ∈ List.replicate 300 (0x41#8 : Byte), b ≠ 0x0D#8 ∧ b ≠ 0x0A#8 := aRun 300
theorem witness_FramerResidueLaw : State.reset.cursor = 0#8 ∧
    (∀ b ∈ List.replicate 257 (0x41#8 : Byte), b ≠ 0x0D#8 ∧ b ≠ 0x0A#8) ∧
    256 ≤ (List.replicate 257 (0x41#8 : Byte)).length ∧ (List.replicate 257 (0x41#8 : Byte)).length % 256 ≠ 0 := by
  rw [List.length_replicate]
  exact ⟨rfl, aRun 257, by decide, by decide⟩
theorem witness_FramerResidueLaw_none : 256 ≤ (List.replicate 256 (0x41#8 : Byte)).length ∧
    (List.replicate 256 (0x41#8 : Byte)).length % 256 = 0 := by
  rw [List.length_replicate]
  decide
theorem witness_SentencesHaveOneTo255DataBytes : Inv waiting ∧ ∃ t, exec .stepByte waiting = .next t ∧
    Event.sentence [0x41#8, 0x42#8, 0x43#8] ∈ t.ev ∧ Event.sentence [0x41#8, 0x42#8, 0x43#8] ∉ waiting.ev :=
  ⟨waiting_inv, _, rfl, by decide +kernel, by decide +kernel⟩
theorem witness_StepFeedsOneByteOrNothing_byte : .link1 = waiting.cfg.gnssLink ∧
    waiting.headR .link1 ≠ waiting.tail .link1 ∧
    memRead (waiting.qst .link1) (waiting.tail .link1).toNat = some 0x0A#8 := by decide +kernel
theorem witness_StepFeedsOneByteOrNothing_empty : .link1 = State.reset.cfg.gnssLink ∧
    State.reset.headR .link1 = State.reset.tail .link1 := by decide +kernel
theorem witness_StepCompletesInGoodStates : Inv waiting ∧
    waiting.headR waiting.cfg.gnssLink ≠ waiting.tail waiting.cfg.gnssLink := ⟨waiting_inv, by decide +kernel⟩

/-! D.HANDLE and X.PARSE. -/

theorem witness_OtherSentencesAreOnlyEchoed :
    List.take 6 [0x41#8] ≠ [0x24#8, 0x47#8, 0x50#8, 0x47#8, 0x47#8, 0x41#8] ∧
    List.take 6 (0x58#8 :: ex) ≠ [0x24#8, 0x47#8, 0x50#8, 0x47#8, 0x47#8, 0x41#8] := by decide +kernel
theorem witness_ParsedSentenceIsCommittedAndPrinted :
    ex.take 6 = [0x24#8, 0x47#8, 0x50#8, 0x47#8, 0x47#8, 0x41#8] ∧ parseFix State.reset.cfg.fmt ex = some exFix := by
  decide +kernel
theorem witness_BadSentenceLeavesTheRecord :
    exNoAlt.take 6 = [0x24#8, 0x47#8, 0x50#8, 0x47#8, 0x47#8, 0x41#8] ∧ parseFix waiting.cfg.fmt exNoAlt = none := by
  decide +kernel
theorem witness_ParseCommitsOrRaisesParseError : parseFix waiting.cfg.fmt ex = some exFix ∧
    parseFix waiting.cfg.fmt [] = none := by decide +kernel

/-! Numerics. -/

/-- `16777219`, a tie in binary32 (section 2.5). -/
def tieField : List Byte := [0x31#8, 0x36#8, 0x37#8, 0x37#8, 0x37#8, 0x32#8, 0x31#8, 0x39#8]

theorem witness_Dec2fIsTheNearestValue :
    parseNum tieField = some { neg := false, digits := 16777219, scale := 0 } ∧
    dec2f .binary32 tieField = some 0x4B800002#64 ∧ IsValue .binary32 0x4B800001#64 := by decide +kernel
/-- The binary32 threshold of R234, and one less (P27, P28). -/
theorem witness_Dec2fOverflowsExactlyFromTheThreshold :
    parseNum (decText 340282356779733661637539395458142568448) =
      some { neg := false, digits := 340282356779733661637539395458142568448, scale := 0 } ∧
    dec2f .binary32 (decText 340282356779733661637539395458142568448) = none ∧
    dec2f .binary32 (decText 340282356779733661637539395458142568447) = some 0x7F7FFFFF#64 := by decide +kernel
theorem witness_Binary64FieldsNeverOverflow :
    (parseNum (List.replicate 255 0x39#8)).isSome = true ∧ (List.replicate 255 (0x39#8 : Byte)).length ≤ 255 := by
  decide +kernel
theorem witness_Div100IsWithinHalfAnUlp : IsValue .binary64 0xC028800000000000#64 ∧ IsValue .binary32 0x80000001#64 ∧
    IsValue .binary64 0x8000000000000000#64 := by decide +kernel
theorem witness_Div100IsWithinHalfAnUlp_zero : valueOf .binary64 0x8000000000000000#64 = 0 := by
  have h : significand .binary64 0x8000000000000000#64 = 0 := by decide +kernel
  simp [valueOf, h]
theorem witness_DecimalTextIsCorrectlyRounded : IsValue .binary32 0x3EC00000#64 ∧ IsValue .binary64 0x8000000000000000#64 ∧
    (fmtText .binary32 0x3EC00000#64 2).head? = some 0x30#8 := by decide +kernel

/-! The whole machine. -/

theorem witness_EveryStepKeepsGoodStates : Inv waiting ∧ ∃ t, step waiting = .next t :=
  ⟨waiting_inv, next_of_after (by decide +kernel)⟩
theorem witness_EveryStepKeepsGoodStates_lagged : Inv (lagged waiting) ∧ ∃ t, step (lagged waiting) = .next t :=
  ⟨waiting_lagged_inv, next_of_after (by decide +kernel)⟩
theorem witness_NoStepFromAGoodStateFaults : Inv (lagged waiting) := waiting_lagged_inv
theorem witness_NoStepChangesAParameter : ∃ t, step (given (.word16 0x0000#16) waiting) = .next t :=
  next_of_after (by decide +kernel)
theorem witness_ProducersWriteOnlyTheirSide : agentOf waiting.cfg (.arriveOk .link1 0x41#8) = .prod .link1 ∧
    (∃ t, exec (.arriveOk .link1 0x41#8) (lagged waiting) = .next t) ∧ (lagged waiting).cfg.syncMode = .lagged :=
  ⟨rfl, next_of_after (by decide +kernel), rfl⟩
theorem witness_TheConsumerWritesNoHeadAndNoCell : agentOf waiting.cfg .stepByte = .cons ∧
    (∃ t, exec .stepByte (lagged waiting) = .next t) ∧ (lagged waiting).cfg.syncMode = .lagged := ⟨rfl, next_of_after (by decide +kernel), rfl⟩
theorem witness_NothingDrainsTheHostQueue : .link0 = waiting.cfg.hostLink ∧
    (∃ t, exec (.init .link1) waiting = .next t) ∧ Instr.init .link1 ≠ .reset ∧ Instr.init .link1 ≠ .init .link0 :=
  ⟨rfl, next_of_after (by decide +kernel), by decide, by decide⟩
theorem witness_TheRecordChangesOnlyByACommit : Instr.parseOk ex ≠ .reset ∧ ∃ t, exec (.parseOk ex) waiting = .next t :=
  ⟨by decide, next_of_after (by decide +kernel)⟩
theorem witness_AtMostOneExceptionPerOperation : Instr.handleFix exNoAlt ≠ .reset ∧
    ∃ t, exec (.handleFix exNoAlt) waiting = .next t := ⟨by decide, next_of_after (by decide +kernel)⟩
theorem witness_ThePinsReportTheOperation : Instr.handleFix exNoAlt ≠ .reset ∧ waiting.ports = Ports.idle ∧
    ∃ t, exec (.handleFix exNoAlt) waiting = .next t := ⟨by decide, rfl, next_of_after (by decide +kernel)⟩
theorem witness_OutputIsTheLinesOfTheLog : isBlockOp .stepByte = true ∧ waiting.out = outOf waiting.cfg waiting.ev ∧
    ∃ t, exec .stepByte waiting = .next t := ⟨rfl, rfl, next_of_after (by decide +kernel)⟩
theorem witness_AProducerLineMayFallBetween : isSecondLine (.parseError [0x41#8]) = true ∧
    { withQueue .link0 fullQueue with ev := [.parseError [0x41#8]] }.ev = [] ++ [Event.parseError [0x41#8]] ∧
    { withQueue .link0 fullQueue with ev := [.parseError [0x41#8]] }.head .link0 + 1#8 =
      { withQueue .link0 fullQueue with ev := [.parseError [0x41#8]] }.tailW .link0 ∧
    ∃ t, exec (.arriveFull .link0 0x42#8) { withQueue .link0 fullQueue with ev := [.parseError [0x41#8]] } = .next t :=
  ⟨rfl, rfl, by decide +kernel, next_of_after (by decide +kernel)⟩
theorem witness_BackgroundTurnsDrainTheGnssQueue : Inv (lagged waiting) ∧ (lagged waiting).script = [] ∧
    (lagged waiting).head (lagged waiting).cfg.gnssLink ≠ (lagged waiting).tail (lagged waiting).cfg.gnssLink :=
  ⟨waiting_lagged_inv, rfl, by decide +kernel⟩
theorem witness_DrainReachesQuiescence : Inv (lagged waiting) ∧ drainOps waiting =
    [.syncr .link1 .full, .stepByte, .stepByte] := ⟨waiting_lagged_inv, by decide +kernel⟩

end Sys2Proof.Tests
end

section
/-! PROOFS. What no operation changes: the parameters, the script and the turn (00_scope R9, R33; log 19). -/
namespace Sys2Proof.Machine

namespace KeepsModel

theorem refl (s : State) : KeepsModel s s := ⟨rfl, rfl, rfl⟩

theorem trans {s t u : State} (h : KeepsModel s t) (k : KeepsModel t u) : KeepsModel s u := by
  obtain ⟨hcfg, hscript, hturn⟩ := h
  obtain ⟨kcfg, kscript, kturn⟩ := k
  exact ⟨kcfg.trans hcfg, kscript.trans hscript, kturn.trans hturn⟩

/-- An outcome `.next u` has no other next state than `u`. -/
theorem of_next {s t u : State} (h : (.next u : Out) = .next t) (hu : KeepsModel s u) : KeepsModel s t := by
  cases h
  exact hu

end KeepsModel

/-! The queue operations. -/

theorem setQueue_keepsModel (s : State) (q : Link) (v : Queue) : KeepsModel s (s.setQueue q v) := ⟨rfl, rfl, rfl⟩

theorem qWrite_keepsModel (q : Link) (b : Byte) (s : State) : KeepsModel s (qWrite q b s).2 := by
  rcases qWrite_cases q b s with ⟨_, e⟩ | ⟨_, e⟩ <;> rw [e] <;> exact ⟨rfl, rfl, rfl⟩

theorem qRead_keepsModel {q : Link} {s t : State} {r : Option Byte} (h : qRead q s = .ok (r, t)) : KeepsModel s t := by
  rcases qRead_cases q s with ⟨_, e⟩ | ⟨_, b, _, e⟩ | ⟨_, _, e⟩ <;> rw [e] at h <;> cases h <;> exact ⟨rfl, rfl, rfl⟩

theorem pArrive_keepsModel (q : Link) (b : Byte) (s : State) : KeepsModel s (pArrive q b s) := by
  rcases pArrive_cases q b s with ⟨_, e⟩ | ⟨_, e⟩ <;> rw [e] <;> exact ⟨rfl, rfl, rfl⟩

theorem qSyncW_keepsModel (q : Link) (mv : Move) (s : State) : KeepsModel s (qSyncW q mv s) := by
  cases hm : s.cfg.syncMode with
  | exact => rw [(qSync_exact hm q mv).1]; exact .refl s
  | lagged => rw [qSyncW_lagged hm]; exact setQueue_keepsModel ..

theorem qSyncR_keepsModel (q : Link) (mv : Move) (s : State) : KeepsModel s (qSyncR q mv s) := by
  cases hm : s.cfg.syncMode with
  | exact => rw [(qSync_exact hm q mv).2]; exact .refl s
  | lagged => rw [qSyncR_lagged hm]; exact setQueue_keepsModel ..

theorem readWord_keepsModel {q : Link} {s t : State} (h : readWord q s = .next t) : KeepsModel s t := by
  unfold readWord at h
  split at h
  · next r u hr =>
    have hu : KeepsModel s u := qRead_keepsModel hr
    exact .of_next h hu
  · cases h

theorem execPortHqread_keepsModel {s t : State} (h : execPortHqread s = .next t) : KeepsModel s t := by
  unfold execPortHqread at h
  split at h
  · next r u hr =>
    have hu : KeepsModel s u := qRead_keepsModel hr
    exact .of_next h hu
  · cases h

/-! RESET, the parser, the dispatcher and the framer. -/

theorem bootReset_keepsModel (s : State) : KeepsModel s (bootReset s) := by
  obtain ⟨tx, e⟩ := bootReset_eq s
  rw [e]
  exact ⟨rfl, rfl, rfl⟩

theorem xParse_keepsModel (x : List Byte) (s : State) : KeepsModel s (xParse x s).2 := by
  rcases xParse_cases x s with ⟨r, _, e⟩ | ⟨_, e⟩ <;> rw [e] <;> exact ⟨rfl, rfl, rfl⟩

theorem dHandle_keepsModel (x : List Byte) (s : State) : KeepsModel s (dHandle x s) := by
  rcases dHandle_cases x s with ⟨_, e⟩ | ⟨_, r, _, e⟩ | ⟨_, _, e⟩ <;> rw [e] <;> exact ⟨rfl, rfl, rfl⟩

theorem fFeed_keepsModel {b : Byte} {s t : State} (h : fFeed b s = .next t) : KeepsModel s t := by
  rcases fFeed_cases b s with ⟨_, _, e⟩ | ⟨_, _, x, _, e⟩ | ⟨_, _, _, e⟩ | ⟨_, _, e⟩ | ⟨_, _, e⟩ <;> rw [e] at h
  · exact .of_next h (.refl s)
  · exact .of_next h (dHandle_keepsModel x (logEvent (.sentence x) s))
  · cases h
  · exact .of_next h ⟨rfl, rfl, rfl⟩
  · exact .of_next h ⟨rfl, rfl, rfl⟩

theorem cStep_keepsModel {s t : State} (h : cStep s = .next t) : KeepsModel s t := by
  rcases cStep_cases s with ⟨_, e⟩ | ⟨_, b, _, e⟩ | ⟨_, _, e⟩ <;> rw [e] at h
  · exact .of_next h (.refl s)
  · exact (setQueue_keepsModel ..).trans (fFeed_keepsModel h)
  · cases h

/-! Every operation, and the step. -/

/-- The rows of one operation share one case (log 5). -/
theorem exec_keepsModel {i : Instr} {s t : State} (h : exec i s = .next t) : KeepsModel s t := by
  cases i with
  | reset => exact .of_next h (bootReset_keepsModel s)
  | arriveOk q b | arriveFull q b | portArrive q b => exact .of_next h (pArrive_keepsModel q b s)
  | writeOk q b | writeFull q b => exact .of_next h (qWrite_keepsModel q b s)
  | readSome q | readNone q => exact readWord_keepsModel h
  | portHqread => exact execPortHqread_keepsModel h
  | syncw q mv => exact .of_next h (qSyncW_keepsModel q mv s)
  | syncr q mv => exact .of_next h (qSyncR_keepsModel q mv s)
  | stepByte | stepEmpty => exact cStep_keepsModel h
  | feed b | feedData b | feedOvf b => exact fFeed_keepsModel h
  | feedTermCr => exact fFeed_keepsModel (b := chCR) h
  | feedTermLf => exact fFeed_keepsModel (b := chLF) h
  | handleFix x | handleEcho x => exact .of_next h (dHandle_keepsModel x s)
  | parseOk x | parseErr x => exact .of_next h (xParse_keepsModel x s)
  | init q | portIdle q d | portHqidle | oLine x | dec2f x | div100 x | neg x | fmt x n =>
    exact .of_next h ⟨rfl, rfl, rfl⟩
  | reserved9 x | reservedA x | reservedB x | reservedC x | reservedD x | reservedE x | reservedF x => cases h

/-- Settles O50: a step runs one operation from a state with the same parameters, and no operation changes them. -/
theorem noStepChangesAParameter : Obligations.NoStepChangesAParameter := by
  intro s t h
  rcases step_next_cases h with ⟨x, rest, i, _, _, hi⟩ | ⟨_, hi⟩
  · obtain ⟨hcfg, _, _⟩ := exec_keepsModel hi
    exact hcfg.trans (takeStim_cfg s rest)
  · obtain ⟨hcfg, _, _⟩ := exec_keepsModel hi
    exact hcfg.trans (takeTurn_cfg s)

end Sys2Proof.Machine
end

section
/-! PROOFS. Good queues: what the view invariant says of the counts, and that every queue operation keeps a good queue
good (10_state R39; 40_bytequeue R131 to R145; 20_memory R68). -/
namespace Sys2Proof.Machine

/-! Distances on the index circle. Each lemma takes one subtraction apart, so that the view invariant is linear
arithmetic on distances that do not wrap. -/

/-- Two distances that fit on the circle one after the other add up. -/
theorem toNat_sub_add_sub {a b c : Index} (h : (a - b).toNat + (b - c).toNat ≤ 255) :
    (a - c).toNat = (a - b).toNat + (b - c).toNat := by
  rw [← sub_add_sub_cancel a b c]
  exact BitVec.toNat_add_of_lt (by omega)

/-- The nearer end may advance as long as the circle is not closed. -/
theorem toNat_succ_sub {a b : Index} (h : (a - b).toNat < 255) : (a + 1#8 - b).toNat = (a - b).toNat + 1 := by
  rw [add_sub_right_comm]
  exact BitVec.toNat_add_of_lt (Nat.succ_lt_succ h)

/-- An index whose successor is not `b` is not a full circle behind `b`. -/
theorem toNat_sub_lt_of_succ_ne {a b : Index} (h : a + 1#8 ≠ b) : (a - b).toNat < 255 := by
  have hne : a - b + 1#8 ≠ 0#8 := fun e => h (sub_eq_zero.1 ((add_sub_right_comm a 1#8 b).trans e))
  bv_omega

/-- The farther end advances by at most the distance. -/
theorem toNat_sub_add {a b k : Index} (h : k.toNat ≤ (a - b).toNat) :
    (a - (b + k)).toNat = (a - b).toNat - k.toNat := by
  rw [sub_add_eq_sub_sub]
  exact BitVec.toNat_sub_of_le h

/-- The farther end advances by one. -/
theorem toNat_sub_succ {a b : Index} (h : 1 ≤ (a - b).toNat) : (a - (b + 1#8)).toNat = (a - b).toNat - 1 :=
  toNat_sub_add h

/-- The distance is at least 1 between different indices. -/
theorem one_le_toNat_sub {a b : Index} (h : a ≠ b) : 1 ≤ (a - b).toNat := by
  have hne : a - b ≠ 0#8 := sub_ne_zero.2 h
  bv_omega

/-- From `b`, the distance to `a` leads to `a`. -/
theorem add_ofNat_toNat_sub (a b : Index) : b + BitVec.ofNat 8 (a - b).toNat = a := by
  rw [BitVec.ofNat_toNat, BitVec.setWidth_eq, add_sub_cancel]

/-- The `i`-th index after the successor. -/
theorem succ_add_ofNat (a : Index) (i : Nat) : a + 1#8 + BitVec.ofNat 8 i = a + BitVec.ofNat 8 (i + 1) := by
  rw [BitVec.ofNat_add, add_assoc, add_comm (1#8)]

namespace QueueInv

variable {mode : SyncMode} {v : Queue}

/-! What the view invariant says of the counts. -/

/-- The three distances of the view invariant leave at least one slot of the circle free (R39). -/
theorem span_le (h : QueueInv mode v) : (v.cons.tail - v.prod.tailW).toNat + (v.cons.headR - v.cons.tail).toNat +
    (v.prod.head - v.cons.headR).toNat ≤ 255 := h.span

/-- The count is what the consumer sees and what its view still lacks (R39). -/
theorem head_sub_tail (h : QueueInv mode v) : (v.prod.head - v.cons.tail).toNat =
    (v.prod.head - v.cons.headR).toNat + (v.cons.headR - v.cons.tail).toNat :=
  toNat_sub_add_sub (by have := h.span_le; omega)

/-- What the producer sees is the count and what its view still lacks (R39). -/
theorem head_sub_tailW (h : QueueInv mode v) : (v.prod.head - v.prod.tailW).toNat =
    (v.prod.head - v.cons.tail).toNat + (v.cons.tail - v.prod.tailW).toNat :=
  toNat_sub_add_sub (by have := h.span_le; rw [h.head_sub_tail]; omega)

/-- The producer's view never understates the bytes held (R39, R144). -/
theorem count_le_head_sub_tailW (h : QueueInv mode v) :
    (v.prod.head - v.cons.tail).toNat ≤ (v.prod.head - v.prod.tailW).toNat :=
  h.head_sub_tailW ▸ Nat.le_add_right ..

/-- The consumer's view never overstates the bytes held (R39, R144). -/
theorem headR_sub_tail_le_count (h : QueueInv mode v) :
    (v.cons.headR - v.cons.tail).toNat ≤ (v.prod.head - v.cons.tail).toNat :=
  h.head_sub_tail ▸ Nat.le_add_left ..

/-- `lagged` mode asks nothing of the views, and setting them as the mode says makes the queue good in that mode. -/
theorem settle (h : QueueInv .lagged v) (mode : SyncMode) : QueueInv mode (settle mode v) := by
  cases mode with
  | lagged => exact h
  | exact =>
    have hlt := (v.prod.head - v.cons.tail).isLt
    refine ⟨?_, h.written, h.cells, fun _ => ⟨rfl, rfl⟩⟩
    simp only [settle_exact, Queue.span, Config.C, Config.IW, BitVec.sub_self, BitVec.toNat_zero]
    omega

/-! The operations. -/

/-- A queue with all indices at 0 is good, whatever its cells hold (R131). -/
theorem fresh {m : Mem} (hm : Mem.wf Config.C m) (mode : SyncMode) : QueueInv mode { Queue.fresh with qst := m } :=
  ⟨by simp [Queue.span, Queue.fresh], ⟨[], by simp [Queue.held, Queue.fresh, heldFrom]⟩, hm, fun _ => ⟨rfl, rfl⟩⟩

/-- An accepted write keeps a queue good, its views not yet set: the one cell that joins the held ones is the one just written (R72, R133). -/
theorem write (h : QueueInv mode v) (hroom : v.prod.head + 1#8 ≠ v.prod.tailW) (b : Byte) :
    QueueInv .lagged { prod := { head := v.prod.head + 1#8, tailW := v.prod.tailW }, cons := v.cons,
                       qst := memWrite v.qst v.prod.head.toNat b } := by
  have hcount := h.head_sub_tail
  have hseen := h.head_sub_tailW
  have hfree : (v.prod.head - v.prod.tailW).toNat < 255 := toNat_sub_lt_of_succ_ne hroom
  refine ⟨?_, heldFrom_some_iff.2 fun i hi => ?_, memWrite_wf h.cells v.prod.head.isLt b, nofun⟩
  · simp only [Queue.span, Config.C, Config.IW]
    rw [toNat_succ_sub (by omega)]
    omega
  · dsimp only at hi ⊢
    rw [toNat_succ_sub (by omega)] at hi
    by_cases hcell : v.cons.tail + BitVec.ofNat 8 i = v.prod.head
    · rw [hcell]
      exact ⟨b, memRead_memWrite_same ..⟩
    · have hne : i ≠ (v.prod.head - v.cons.tail).toNat := fun e => hcell (e ▸ add_ofNat_toNat_sub ..)
      rw [memRead_memWrite_other _ (fun e => hcell (BitVec.eq_of_toNat_eq e))]
      exact heldFrom_some_iff.1 h.written i (by omega)

/-- A read that finds a byte keeps a queue good, its views not yet set (R73, R136). -/
theorem read (h : QueueInv mode v) (hsome : v.cons.headR ≠ v.cons.tail) :
    QueueInv .lagged { v with cons := { tail := v.cons.tail + 1#8, headR := v.cons.headR } } := by
  have hspan := h.span_le
  have hseen : 1 ≤ (v.cons.headR - v.cons.tail).toNat := one_le_toNat_sub hsome
  have hcount : 1 ≤ (v.prod.head - v.cons.tail).toNat := hseen.trans h.headR_sub_tail_le_count
  refine ⟨?_, heldFrom_some_iff.2 fun i hi => ?_, h.cells, nofun⟩
  · simp only [Queue.span, Config.C, Config.IW]
    rw [toNat_sub_succ hseen, toNat_succ_sub (by omega)]
    omega
  · dsimp only at hi ⊢
    rw [toNat_sub_succ hcount] at hi
    rw [succ_add_ofNat]
    exact heldFrom_some_iff.1 h.written (i + 1) (by omega)

/-- The producer's view may follow `tail` by any part of the distance (R141). -/
theorem syncW (h : QueueInv mode v) {k : Index} (hk : k.toNat ≤ (v.cons.tail - v.prod.tailW).toNat) :
    QueueInv .lagged { v with prod := { head := v.prod.head, tailW := v.prod.tailW + k } } := by
  have hspan := h.span_le
  refine ⟨?_, h.written, h.cells, nofun⟩
  simp only [Queue.span, Config.C, Config.IW]
  rw [toNat_sub_add hk]
  omega

/-- The consumer's view may follow `head` by any part of the distance (R142). -/
theorem syncR (h : QueueInv mode v) {k : Index} (hk : k.toNat ≤ (v.prod.head - v.cons.headR).toNat) :
    QueueInv .lagged { v with cons := { tail := v.cons.tail, headR := v.cons.headR + k } } := by
  have hspan := h.span_le
  have hmoved : (v.cons.headR + k - v.cons.tail).toNat = (v.cons.headR - v.cons.tail).toNat + k.toNat := by
    rw [add_sub_right_comm]
    exact BitVec.toNat_add_of_lt (by omega)
  refine ⟨?_, h.written, h.cells, nofun⟩
  simp only [Queue.span, Config.C, Config.IW]
  rw [toNat_sub_add hk, hmoved]
  omega

end QueueInv

/-- A good queue that holds 255 bytes refuses a write (R39, R144). -/
theorem qWrite_of_count_eq {q : Link} {s : State} (h : QueueInv s.cfg.syncMode (s.queue q)) (hfull : count s q = 255)
    (b : Byte) : qWrite q b s = (false, s) := by
  rcases qWrite_cases q b s with ⟨_, e⟩ | ⟨hroom, _⟩
  · exact e
  · have hfree : (s.head q - s.tailW q).toNat < 255 := toNat_sub_lt_of_succ_ne hroom
    have hle : count s q ≤ (s.head q - s.tailW q).toNat := h.count_le_head_sub_tailW
    omega

/-- A good queue that holds nothing gives nothing (R39, R144). -/
theorem qRead_of_count_eq_zero {q : Link} {s : State} (h : QueueInv s.cfg.syncMode (s.queue q)) (hempty : count s q = 0) :
    qRead q s = .ok (none, s) := by
  have hle : (s.headR q - s.tail q).toNat ≤ count s q := h.headR_sub_tail_le_count
  have hview : s.headR q = s.tail q := by
    by_contra hne
    have hone := one_le_toNat_sub hne
    omega
  rcases qRead_cases q s with ⟨_, e⟩ | ⟨hsome, _⟩ | ⟨hsome, _⟩
  · exact e
  · exact absurd hview hsome
  · exact absurd hview hsome

/-- Settles O19: the count lies between what the consumer sees and what the producer sees. -/
theorem laggedViewsArePessimistic : Obligations.LaggedViewsArePessimistic := by
  intro q s h
  refine ⟨fun hfull b => ?_, fun hempty => ?_, h.count_le_head_sub_tailW, h.headR_sub_tail_le_count⟩
  · show Host.Outcome.next (writeWord q b s) = _
    rw [writeWord, qWrite_of_count_eq h hfull b]
    rfl
  · show readWord q s = _
    rw [readWord, qRead_of_count_eq_zero h hempty]
    rfl

end Sys2Proof.Machine
end

section
/-! PROOFS. The numbers of a parsed record are finite values of the format: the bounds of the one rounding, and that the
quotient by 100 and the negation keep finite values finite (44_numerics R230 to R238). -/
namespace Sys2Proof.Machine

/-! The two formats. -/

theorem two_le_prec (f : Fmt) : 2 ≤ prec f := by cases f <;> decide
theorem prec_le_emax (f : Fmt) : prec f ≤ emax f := by cases f <;> decide
theorem prec_le_width (f : Fmt) : prec f ≤ width f := by cases f <;> decide
theorem width_le (f : Fmt) : width f ≤ 64 := by cases f <;> decide

/-- The exponent field has `W - p` bits, and `allOnes` is their largest value (R230). -/
theorem two_pow_width_sub_prec (f : Fmt) : 2 ^ (width f - prec f) = allOnes f + 1 := by cases f <;> decide

/-- The sign bit stands just above the exponent and fraction fields (R230). -/
theorem two_pow_signBit (f : Fmt) : 2 ^ (width f - 1) = 2 ^ (prec f - 1) * 2 ^ (width f - prec f) := by
  have hp := two_le_prec f
  have hw := prec_le_width f
  rw [← Nat.pow_add]
  congr 1
  omega

/-- The bound of R234, `(2 - 2^-p) * 2^emax`, as an integer. -/
def overflowBound (f : Fmt) : Nat := (2 ^ (prec f + 1) - 1) * 2 ^ (emax f - prec f)

theorem overflows_eq_false_iff {f : Fmt} {a : Frac} : overflows f a = false ↔ a.num < a.den * overflowBound f := by
  simp [overflows, overflowBound]

theorem overflowBound_le (f : Fmt) : overflowBound f ≤ 2 ^ (emax f + 1) := by
  have hp := prec_le_emax f
  calc overflowBound f ≤ 2 ^ (prec f + 1) * 2 ^ (emax f - prec f) := Nat.mul_le_mul_right _ (Nat.sub_le ..)
    _ = 2 ^ (emax f + 1) := by rw [← Nat.pow_add]; congr 1; omega

theorem two_pow_emax_le_overflowBound (f : Fmt) : 2 ^ emax f ≤ overflowBound f := by
  have hp := prec_le_emax f
  have hpos : 0 < 2 ^ prec f := Nat.two_pow_pos _
  calc 2 ^ emax f = 2 ^ prec f * 2 ^ (emax f - prec f) := by rw [← Nat.pow_add]; congr 1; omega
    _ ≤ overflowBound f := Nat.mul_le_mul_right _ (by rw [Nat.pow_succ]; omega)

/-! The rounding. -/

/-- `floorLog2 a` does not exceed the binary logarithm of `a` (R232). -/
theorem powLe_floorLog2 {a : Frac} (hnum : a.num ≠ 0) : powLe (floorLog2 a) a = true := by
  have hn : 2 ^ Nat.log2 a.num ≤ a.num := Nat.log2_self_le hnum
  have hd : a.den < 2 ^ (Nat.log2 a.den + 1) := Nat.lt_log2_self
  simp only [floorLog2]
  split
  · assumption
  · simp only [powLe]
    split
    · rw [decide_eq_true_iff]
      calc a.den * 2 ^ _ ≤ 2 ^ (Nat.log2 a.den + 1) * 2 ^ _ := Nat.mul_le_mul_right _ hd.le
        _ = 2 ^ Nat.log2 a.num := by rw [← Nat.pow_add]; congr 1; omega
        _ ≤ a.num := hn
    · rw [decide_eq_true_iff]
      calc a.den ≤ 2 ^ (Nat.log2 a.den + 1) := hd.le
        _ = 2 ^ Nat.log2 a.num * 2 ^ _ := by rw [← Nat.pow_add]; congr 1; omega
        _ ≤ a.num * 2 ^ _ := Nat.mul_le_mul_right _ hn

/-- A magnitude that does not overflow rounds at an exponent of the format (R232, R234). -/
theorem roundExp_le {f : Fmt} {a : Frac} (hnum : a.num ≠ 0) (hfit : overflows f a = false) :
    roundExp f a ≤ emax f := by
  have hemin : emin f ≤ emax f := by
    have h2 := two_le_prec f
    have hp := prec_le_emax f
    simp only [emin]
    omega
  refine max_le ?_ hemin
  by_contra hgt
  have hle := powLe_floorLog2 hnum
  rw [powLe, if_pos (by omega), decide_eq_true_iff] at hle
  have hpow : 2 ^ (emax f + 1) ≤ 2 ^ (floorLog2 a).toNat := Nat.pow_le_pow_right (by decide) (by omega)
  have hlt : a.num < a.num := calc
    a.num < a.den * overflowBound f := overflows_eq_false_iff.1 hfit
    _ ≤ a.den * 2 ^ (floorLog2 a).toNat := Nat.mul_le_mul_left _ ((overflowBound_le f).trans hpow)
    _ ≤ a.num := hle
  exact lt_irrefl _ hlt

/-- At the largest exponent such a magnitude does not round up to the next power of two (R232, R234). -/
theorem roundSig_lt {f : Fmt} {a : Frac} (hden : 0 < a.den) (hfit : overflows f a = false)
    (he : roundExp f a = emax f) : roundSig f a < 2 ^ prec f := by
  have hp := prec_le_emax f
  have hlt := overflows_eq_false_iff.1 hfit
  have hk : (emax f : Int) - prec f + 1 = (emax f - prec f + 1 : Nat) := by omega
  have hunit : a.den * 2 ^ (emax f - prec f + 1) = a.den * 2 ^ (emax f - prec f) * 2 := by rw [pow_succ, mul_assoc]
  have hbound : a.den * overflowBound f + a.den * 2 ^ (emax f - prec f) =
      2 ^ prec f * (a.den * 2 ^ (emax f - prec f) * 2) := by
    rw [overflowBound, ← Nat.mul_add, ← Nat.succ_mul, Nat.succ_eq_add_one, Nat.sub_add_cancel (Nat.two_pow_pos _)]
    ring
  simp only [roundSig, he, hk, Int.natCast_nonneg, if_true, Int.toNat_natCast, hunit]
  obtain ⟨hround, -, -⟩ := roundEven_spec a.num (a.den * 2 ^ (emax f - prec f) * 2) (by positivity)
  exact Nat.lt_of_mul_lt_mul_right (a := a.den * 2 ^ (emax f - prec f) * 2) (by omega)

/-- A significand and an exponent of the format make a pattern below infinity's (R230). -/
theorem packMag_lt {f : Fmt} {m : Nat} {e : Int} (hmin : emin f ≤ e) (hmax : e ≤ emax f)
    (htop : e = emax f → m < 2 ^ prec f) : packMag f m e < allOnes f * 2 ^ (prec f - 1) := by
  have hp := two_le_prec f
  have hemax := prec_le_emax f
  have hH : 2 ^ prec f = 2 ^ (prec f - 1) * 2 := by rw [← pow_succ]; congr 1; omega
  have hHpos : 0 < 2 ^ (prec f - 1) := Nat.two_pow_pos _
  have hones : allOnes f = 2 * emax f + 1 := rfl
  rw [hH] at htop
  simp only [emin] at hmin
  simp only [packMag, hH]
  generalize 2 ^ (prec f - 1) = H at *
  split
  · exact lt_of_lt_of_le ‹_› (Nat.le_mul_of_pos_left H (by omega))
  · split
    · calc (e + emax f).toNat * H + (m - H) < ((e + emax f).toNat + 1) * H := by rw [Nat.succ_mul]; omega
        _ ≤ allOnes f * H := Nat.mul_le_mul_right H (by omega)
    · have hne : e ≠ emax f := fun he => absurd (htop he) ‹_›
      exact Nat.mul_lt_mul_of_pos_right (by omega) hHpos

/-- The rounding of a magnitude that does not overflow is below infinity's pattern (R232, R234). -/
theorem roundMag_lt {f : Fmt} {a : Frac} (hden : 0 < a.den) (hfit : overflows f a = false) :
    roundMag f a < allOnes f * 2 ^ (prec f - 1) := by
  rw [roundMag]
  split
  · exact Nat.mul_pos (by simp [allOnes]) (Nat.two_pow_pos _)
  · next hnum =>
    exact packMag_lt (le_max_right ..) (roundExp_le hnum hfit) (roundSig_lt hden hfit)

/-! Patterns. -/

/-- A pattern below infinity's, with either sign, is a finite value (R230). -/
theorem withSign_isValue {f : Fmt} {mag : Nat} (h : mag < allOnes f * 2 ^ (prec f - 1)) (neg : Bool) :
    IsValue f (withSign f neg mag) := by
  have hp := two_le_prec f
  have hw := prec_le_width f
  have hsign := two_pow_signBit f
  have hexp := two_pow_width_sub_prec f
  have hW : 2 ^ width f = 2 * 2 ^ (width f - 1) := by rw [← pow_succ']; congr 1; omega
  have hHpos : 0 < 2 ^ (prec f - 1) := Nat.two_pow_pos _
  have hmag : mag < 2 ^ (width f - 1) := by
    rw [hsign, hexp, Nat.mul_add, Nat.mul_comm (2 ^ (prec f - 1))]
    omega
  have hlt : (if neg then 2 ^ (width f - 1) else 0) + mag < 2 ^ width f := by
    split <;> omega
  have hnat : (withSign f neg mag).toNat = (if neg then 2 ^ (width f - 1) else 0) + mag := by
    rw [withSign, BitVec.toNat_ofNat]
    exact Nat.mod_eq_of_lt (hlt.trans_le (Nat.pow_le_pow_right (by decide) (width_le f)))
  have hfield : mag / 2 ^ (prec f - 1) < allOnes f := Nat.div_lt_of_lt_mul (Nat.mul_comm .. ▸ h)
  have hE : expField f (withSign f neg mag) = mag / 2 ^ (prec f - 1) := by
    rw [expField, hnat]
    split
    · rw [hsign, Nat.mul_add_div hHpos, Nat.add_mod_left, Nat.mod_eq_of_lt (by omega)]
    · rw [Nat.zero_add, Nat.mod_eq_of_lt (by omega)]
  refine ⟨hnat ▸ hlt, ?_⟩
  rw [isFinite, hE]
  exact bne_iff_ne.2 hfield.ne

/-- Negation inverts the sign bit alone, so it keeps values finite (R237). -/
theorem negate_isValue {f : Fmt} {x : Fp} (h : IsValue f x) : IsValue f (negate f x) := by
  obtain ⟨hlt, hfin⟩ := h
  have hp := two_le_prec f
  have hw := prec_le_width f
  have hW : 2 ^ (width f - 1) < 2 ^ width f := Nat.pow_lt_pow_right (by decide) (by omega)
  have hbit : ((1#64 : Fp) <<< (width f - 1)).toNat = 2 ^ (width f - 1) := by cases f <;> rfl
  have hnat : (negate f x).toNat = x.toNat ^^^ 2 ^ (width f - 1) := by
    rw [negate, BitVec.toNat_xor, hbit]
  have hE : expField f (negate f x) = expField f x := by
    rw [expField, expField, hnat, Nat.xor_div_two_pow, Nat.xor_mod_two_pow, two_pow_signBit,
      Nat.mul_div_cancel_left _ (Nat.two_pow_pos _), Nat.mod_self, Nat.xor_zero]
  exact ⟨hnat ▸ Nat.xor_lt_two_pow hlt hW, by rw [isFinite, hE]; exact hfin⟩

/-! The operations. -/

/-- N.DEC2F gives a finite value or OVERFLOW (R233, R234, R238). -/
theorem dec2fNumeral_isValue {f : Fmt} {n : Numeral} {x : Fp} (h : dec2fNumeral f n = some x) : IsValue f x := by
  rw [dec2fNumeral] at h
  split at h
  · cases h
  · next hfit =>
    cases h
    exact withSign_isValue (roundMag_lt (Nat.pow_pos (by decide)) (Bool.eq_false_iff.2 hfit)) n.neg

/-- A finite value is `significand * 2^unitExp` with at most `p` bits and an exponent of the format (R230). -/
theorem significand_lt (f : Fmt) (x : Fp) : significand f x < 2 ^ prec f := by
  have hp := two_le_prec f
  have hH : 2 ^ prec f = 2 ^ (prec f - 1) * 2 := by rw [← pow_succ]; congr 1; omega
  have hfrac : fracField f x < 2 ^ (prec f - 1) := Nat.mod_lt _ (Nat.two_pow_pos _)
  rw [significand]
  split <;> omega

theorem unitExp_le {f : Fmt} {x : Fp} (h : IsValue f x) : unitExp f x ≤ (emax f - prec f + 1 : Nat) := by
  have hp := two_le_prec f
  have hemax := prec_le_emax f
  have hE : expField f x < allOnes f + 1 := two_pow_width_sub_prec f ▸ Nat.mod_lt _ (Nat.two_pow_pos _)
  have hfin : expField f x ≠ allOnes f := bne_iff_ne.1 h.2
  simp only [unitExp, emin, allOnes] at *
  split <;> omega

theorem magnitude_den_pos (f : Fmt) (x : Fp) : 0 < (magnitude f x).den := by
  simp only [magnitude, scale2]
  split
  · exact Nat.one_pos
  · exact Nat.two_pow_pos _

/-- A finite magnitude is below `2^(emax + 1)` (R230). -/
theorem magnitude_num_lt {f : Fmt} {x : Fp} (h : IsValue f x) :
    (magnitude f x).num < (magnitude f x).den * 2 ^ (emax f + 1) := by
  have hemax := prec_le_emax f
  have hsig := significand_lt f x
  have hexp := unitExp_le h
  simp only [magnitude, scale2]
  split
  · calc significand f x * 2 ^ (unitExp f x).toNat < 2 ^ prec f * 2 ^ (unitExp f x).toNat :=
        Nat.mul_lt_mul_of_pos_right hsig (Nat.two_pow_pos _)
      _ = 2 ^ (prec f + (unitExp f x).toNat) := (Nat.pow_add ..).symm
      _ ≤ 2 ^ (emax f + 1) := Nat.pow_le_pow_right (by decide) (by omega)
      _ = 1 * 2 ^ (emax f + 1) := (Nat.one_mul _).symm
  · calc significand f x < 2 ^ prec f := hsig
      _ ≤ 2 ^ (emax f + 1) := Nat.pow_le_pow_right (by decide) (by omega)
      _ ≤ 2 ^ _ * 2 ^ (emax f + 1) := Nat.le_mul_of_pos_left _ (Nat.two_pow_pos _)

/-- The quotient of a finite value by 100 does not overflow (R236). -/
theorem overflows_div100 {f : Fmt} {x : Fp} (h : IsValue f x) :
    overflows f { num := (magnitude f x).num, den := (magnitude f x).den * 100 } = false :=
  overflows_eq_false_iff.2 <| calc
    (magnitude f x).num < (magnitude f x).den * 2 ^ (emax f + 1) := magnitude_num_lt h
    _ = (magnitude f x).den * 2 * 2 ^ emax f := by ring
    _ ≤ (magnitude f x).den * 100 * overflowBound f :=
      Nat.mul_le_mul (Nat.mul_le_mul_left _ (by decide)) (two_pow_emax_le_overflowBound f)

/-- N.DIV100 of a finite value is a finite value (R236, R238). -/
theorem div100_isValue {f : Fmt} {x : Fp} (h : IsValue f x) : IsValue f (div100 f x) := by
  cases h0 : isZero f x with
  | true => rwa [div100_zero h h0]
  | false =>
    rw [div100_value h h0]
    exact withSign_isValue (roundMag_lt (Nat.mul_pos (magnitude_den_pos f x) (by decide)) (overflows_div100 h)) _

/-- A coordinate of a finite raw value is a finite value (R205). -/
theorem coordinate_isValue {f : Fmt} {raw : Fp} (h : IsValue f raw) (negated : Bool) :
    IsValue f (coordinate f negated raw) := by
  cases negated with
  | false => exact div100_isValue h
  | true => exact negate_isValue (div100_isValue h)

/-- The record of a successful parse is finite (R34, R206, R238). -/
theorem parseFix_isValue {f : Fmt} {x : List Byte} {r : PositionFix} (h : parseFix f x = some r) :
    IsValue f r.lat ∧ IsValue f r.lon ∧ IsValue f r.alt := by
  unfold parseFix at h
  split at h
  · split at h
    · unfold fixOfFields at h
      split at h
      · split at h
        · next hlat hlon halt =>
          cases h
          exact ⟨coordinate_isValue (dec2fNumeral_isValue hlat) _, coordinate_isValue (dec2fNumeral_isValue hlon) _,
            dec2fNumeral_isValue halt⟩
        · cases h
      · cases h
    · cases h
  · cases h

/-- The startup record is finite in both formats (R35). -/
theorem zero_isValue (f : Fmt) : IsValue f 0#64 := by cases f <;> decide

end Sys2Proof.Machine
end

section
/-! PROOFS. The invariant: reset is good, and every operation, and so every step, keeps a good state good (10_state R26,
R34, R35, R39; 20_memory R68). -/
namespace Sys2Proof.Machine

/-! Single operations, by what they share. -/

/-- What holds of `u` holds of the next state of `.next u`. -/
theorem next_elim {P : State → Prop} {t u : State} (h : (.next u : Out) = .next t) (hu : P u) : P t := by
  cases h
  exact hu

/-- P.ARRIVE is Q.WRITE but for the logs and the pins (R139). -/
theorem pArrive_eq_qWrite (q : Link) (b : Byte) (s : State) : ∃ o e p,
    pArrive q b s = { (qWrite q b s).2 with out := o, ev := e, ports := p } := by
  rw [pArrive]
  generalize qWrite q b s = w
  obtain ⟨ok, t⟩ := w
  cases ok <;> exact ⟨_, _, _, rfl⟩

/-- WRITE is Q.WRITE with its result recorded (R120). -/
theorem writeWord_eq (q : Link) (b : Byte) (s : State) :
    writeWord q b s = record (.wrote (qWrite q b s).1) (qWrite q b s).2 := rfl

/-- PARSE is X.PARSE with its result recorded (R121). -/
theorem parseWord_eq (x : List Byte) (s : State) :
    parseWord x s = record (.parsed (xParse x s).1) (xParse x s).2 := rfl

/-- READ is Q.READ with its result recorded (R120). -/
theorem readWord_next {q : Link} {s t : State} (h : readWord q s = .next t) :
    ∃ r u, qRead q s = .ok (r, u) ∧ record (.read r) u = t := by
  unfold readWord at h
  split at h
  · next r u hu => exact ⟨r, u, hu, by cases h; rfl⟩
  · cases h

/-- The read port is Q.READ of the host-link queue with its result on the pins (R95). -/
theorem execPortHqread_next {s t : State} (h : execPortHqread s = .next t) :
    ∃ r u, qRead s.cfg.hostLink s = .ok (r, u) ∧ driveHq r u = t := by
  unfold execPortHqread at h
  split at h
  · next r u hu => exact ⟨r, u, hu, by cases h; rfl⟩
  · cases h

/-- TERM is CR and LF, DATA is every other byte (R93). -/
theorem isTerm_eq_false_iff {b : Byte} : isTerm b = false ↔ b ≠ 0x0D#8 ∧ b ≠ 0x0A#8 := by
  simp [isTerm, chCR, chLF]

/-- F.FEED of a DATA byte with room (R162). -/
theorem fFeed_of_data {b : Byte} {s : State} (hb : isTerm b = false) (hroom : s.cursor.toNat < Config.L - 1) :
    fFeed b s = .next (fData b s) := by
  have hnotFull : accFull s = false := by simp only [accFull, hroom, decide_true, Bool.not_true]
  simp only [fFeed, hb, hnotFull, Bool.false_eq_true, if_false]

/-! The framer. -/

/-- A run of reads from a memory just written at its end: the byte written stands last (R61, R162). -/
theorem memRun_memWrite_last {m : Mem} {n : Nat} {x : List Byte} (h : memRun m 0 n = some x) (b : Byte) :
    memRun (memWrite m n b) 0 (n + 1) = some (x ++ [b]) := by
  have hbefore : memRun (memWrite m n b) 0 n = some x :=
    (memRun_congr n 0 fun i _ hi => memRead_memWrite_other m (by omega) b).trans h
  simp only [memRun_succ_last, hbefore, Nat.zero_add, memRead_memWrite_same]

/-- The cursor after a byte was stored (R162). -/
theorem fData_cursor_toNat {s : State} (hroom : s.cursor.toNat < Config.L - 1) (b : Byte) :
    (fData b s).cursor.toNat = s.cursor.toNat + 1 :=
  BitVec.toNat_add_of_lt (Nat.add_lt_of_lt_sub hroom)

/-- A stored byte stands after the bytes collected before it (R26, R162). -/
theorem memRun_fData {s : State} {x : List Byte} (hroom : s.cursor.toNat < Config.L - 1)
    (h : memRun s.acc 0 s.cursor.toNat = some x) (b : Byte) :
    memRun (fData b s).acc 0 (fData b s).cursor.toNat = some (x ++ [b]) := by
  rw [fData_cursor_toNat hroom, fData_acc]
  exact memRun_memWrite_last h b

/-- An idle framer is good, whatever the accumulator holds (R27). -/
theorem FramerInv.idle {s : State} (hcursor : s.cursor = 0#8) (hacc : Mem.wf Config.L s.acc) : FramerInv s :=
  ⟨⟨[], by rw [hcursor]; rfl, nofun⟩, hacc⟩

/-- A DATA byte keeps a good framer good (R26, R162). -/
theorem FramerInv.fData {s : State} (h : FramerInv s) {b : Byte} (hb : isTerm b = false)
    (hroom : s.cursor.toNat < Config.L - 1) : FramerInv (fData b s) := by
  obtain ⟨x, hx, hdata⟩ := h.collected
  refine ⟨⟨x ++ [b], memRun_fData hroom hx b, fun c hc => ?_⟩, memWrite_wf h.cells s.cursor.isLt b⟩
  rcases List.mem_append.1 hc with hc | hc
  · exact hdata c hc
  · rwa [List.mem_singleton.1 hc]

namespace Inv

variable {s t : State}

/-! What the invariant sees. -/

/-- The invariant does not see the logs, the results, the pins, the script and the turn. -/
theorem congr (h : Inv s) (hcfg : t.cfg = s.cfg) (hqueues : t.queues = s.queues) (hcursor : t.cursor = s.cursor)
    (hacc : t.acc = s.acc) (hfix : t.fix = s.fix) (hvalid : t.fixValid = s.fixValid) : Inv t := by
  obtain ⟨hq, ⟨hcollected, hcells⟩, hlat, hlon, halt, hunset⟩ := h
  refine ⟨?_, ⟨?_, ?_⟩, ?_, ?_, ?_, ?_⟩ <;>
    simp only [State.queue, hcfg, hqueues, hcursor, hacc, hfix, hvalid] <;> assumption

theorem emit (h : Inv s) (x : List Byte) : Inv (emit x s) := h.congr rfl rfl rfl rfl rfl rfl
theorem logEvent (h : Inv s) (e : Event) : Inv (logEvent e s) := h.congr rfl rfl rfl rfl rfl rfl
theorem recordResult (h : Inv s) (r : Res) : Inv (Machine.record r s) := h.congr rfl rfl rfl rfl rfl rfl
theorem driveErr (h : Inv s) (c : BitVec 2) : Inv (driveErr c s) := h.congr rfl rfl rfl rfl rfl rfl

/-- An idle framer is good. -/
theorem clearCursor (h : Inv s) : Inv { s with cursor := 0#8 } :=
  ⟨h.queues, .idle rfl h.framer.cells, h.record.lat, h.record.lon, h.record.alt, h.record.unset⟩

/-- A good queue in the place of another. -/
theorem setQueue (h : Inv s) {q : Link} {v : Queue} (hv : QueueInv s.cfg.syncMode v) : Inv (s.setQueue q v) := by
  refine ⟨fun r => ?_, ⟨h.framer.collected, h.framer.cells⟩, h.record.lat, h.record.lon, h.record.alt, h.record.unset⟩
  by_cases hr : r = q
  · rw [hr, setQueue_queue_same]
    exact hv
  · rw [setQueue_queue_other s hr]
    exact h.queues r

/-- A committed record that is finite (R207). -/
theorem commitFix (h : Inv s) {x : List Byte} {r : PositionFix} (hr : parseFix s.cfg.fmt x = some r) :
    Inv (commitFix r s) := by
  obtain ⟨hlat, hlon, halt⟩ := parseFix_isValue hr
  exact ⟨h.queues, ⟨h.framer.collected, h.framer.cells⟩, hlat, hlon, halt, nofun⟩

/-- All indices and the cursor at 0 and the startup record, whatever the cells hold (R44, R300). -/
theorem cleared (hqueues : ∀ q, ∃ m, Mem.wf Config.C m ∧ s.queue q = { Queue.fresh with qst := m })
    (hcursor : s.cursor = 0#8) (hacc : Mem.wf Config.L s.acc) (hfix : s.fix = PositionFix.zero) : Inv s := by
  refine ⟨fun q => ?_, .idle hcursor hacc, ?_, ?_, ?_, fun _ => hfix⟩
  · obtain ⟨m, hm, e⟩ := hqueues q
    rw [e]
    exact .fresh hm _
  all_goals
    rw [hfix]
    exact zero_isValue _

/-! The queue operations. -/

theorem qInit (h : Inv s) (q : Link) : Inv (qInit q s) := h.setQueue (.fresh (h.queues q).cells _)

theorem qWrite (h : Inv s) (q : Link) (b : Byte) : Inv (qWrite q b s).2 := by
  rcases qWrite_cases q b s with ⟨_, e⟩ | ⟨hroom, e⟩ <;> rw [e]
  · exact h
  · exact h.setQueue (((h.queues q).write hroom b).settle _)

theorem qRead (h : Inv s) {q : Link} {r : Option Byte} (hr : qRead q s = .ok (r, t)) : Inv t := by
  rcases qRead_cases q s with ⟨_, e⟩ | ⟨hsome, b, _, e⟩ | ⟨_, _, e⟩ <;> rw [e] at hr <;> cases hr
  · exact h
  · exact h.setQueue (((h.queues q).read hsome).settle _)

theorem pArrive (h : Inv s) (q : Link) (b : Byte) : Inv (pArrive q b s) := by
  obtain ⟨o, e, p, heq⟩ := pArrive_eq_qWrite q b s
  rw [heq]
  exact (h.qWrite q b).congr rfl rfl rfl rfl rfl rfl

theorem writeWord (h : Inv s) (q : Link) (b : Byte) : Inv (writeWord q b s) := by
  rw [writeWord_eq]
  exact (h.qWrite q b).recordResult _

theorem readWord (h : Inv s) {q : Link} (hr : readWord q s = .next t) : Inv t := by
  obtain ⟨r, u, hu, rfl⟩ := readWord_next hr
  exact (h.qRead hu).recordResult _

theorem portHqread (h : Inv s) (hr : execPortHqread s = .next t) : Inv t := by
  obtain ⟨r, u, hu, rfl⟩ := execPortHqread_next hr
  exact (h.qRead hu).congr rfl rfl rfl rfl rfl rfl

theorem qSyncW (h : Inv s) (q : Link) (mv : Move) : Inv (qSyncW q mv s) := by
  cases hm : s.cfg.syncMode with
  | exact => rwa [(qSync_exact hm q mv).1]
  | lagged =>
    rw [qSyncW_lagged hm]
    exact h.setQueue (hm ▸ (h.queues q).syncW (moveBy_le mv _))

theorem qSyncR (h : Inv s) (q : Link) (mv : Move) : Inv (qSyncR q mv s) := by
  cases hm : s.cfg.syncMode with
  | exact => rwa [(qSync_exact hm q mv).2]
  | lagged =>
    rw [qSyncR_lagged hm]
    exact h.setQueue (hm ▸ (h.queues q).syncR (moveBy_le mv _))

/-! RESET, the parser, the dispatcher and the framer. -/

theorem bootReset (h : Inv s) : Inv (bootReset s) := by
  obtain ⟨tx, e⟩ := bootReset_eq s
  rw [e]
  refine cleared (fun q => ⟨s.qst q, (h.queues q).cells, ?_⟩) rfl h.framer.cells rfl
  cases q <;> rfl

theorem xParse (h : Inv s) (x : List Byte) : Inv (xParse x s).2 := by
  rcases xParse_cases x s with ⟨r, hr, e⟩ | ⟨_, e⟩ <;> rw [e]
  · exact h.commitFix hr
  · exact (h.logEvent _).driveErr _

theorem parseWord (h : Inv s) (x : List Byte) : Inv (parseWord x s) := by
  rw [parseWord_eq]
  exact (h.xParse x).recordResult _

theorem dHandle (h : Inv s) (x : List Byte) : Inv (dHandle x s) := by
  rcases dHandle_cases x s with ⟨_, e⟩ | ⟨_, r, hr, e⟩ | ⟨_, _, e⟩ <;> rw [e]
  · exact h.emit x
  · exact ((h.emit x).commitFix hr).emit _
  · exact (((h.emit x).logEvent _).driveErr _).emit _

theorem fFeed (h : Inv s) {b : Byte} (hf : fFeed b s = .next t) : Inv t := by
  rcases fFeed_cases b s with ⟨_, _, e⟩ | ⟨_, _, x, _, e⟩ | ⟨_, _, _, e⟩ | ⟨hb, hroom, e⟩ | ⟨_, _, e⟩ <;> rw [e] at hf
  · exact next_elim hf h
  · exact next_elim hf ((h.logEvent _).dHandle x).clearCursor
  · cases hf
  · exact next_elim hf
      ⟨h.queues, h.framer.fData hb hroom, h.record.lat, h.record.lon, h.record.alt, h.record.unset⟩
  · rw [fOvf, raise_sentenceOverflow] at hf
    exact next_elim hf (((h.logEvent _).clearCursor.driveErr _).emit _)

theorem cStep (h : Inv s) (hc : cStep s = .next t) : Inv t := by
  rcases cStep_cases s with ⟨_, e⟩ | ⟨hsome, b, _, e⟩ | ⟨_, _, e⟩ <;> rw [e] at hc
  · exact next_elim hc h
  · exact (h.setQueue (((h.queues s.cfg.gnssLink).read hsome).settle _)).fFeed hc
  · cases hc

/-! Every operation. -/

/-- The rows of one operation share one case (log 5). -/
theorem exec (h : Inv s) {i : Instr} (hx : exec i s = .next t) : Inv t := by
  cases i with
  | reset => exact next_elim hx h.bootReset
  | init q => exact next_elim hx (h.qInit q)
  | arriveOk q b | arriveFull q b | portArrive q b => exact next_elim hx (h.pArrive q b)
  | writeOk q b | writeFull q b => exact next_elim hx (h.writeWord q b)
  | readSome q | readNone q => exact h.readWord hx
  | portHqread => exact h.portHqread hx
  | syncw q mv => exact next_elim hx (h.qSyncW q mv)
  | syncr q mv => exact next_elim hx (h.qSyncR q mv)
  | stepByte | stepEmpty => exact h.cStep hx
  | feed b | feedData b | feedOvf b => exact h.fFeed hx
  | feedTermCr => exact h.fFeed (b := chCR) hx
  | feedTermLf => exact h.fFeed (b := chLF) hx
  | handleFix x | handleEcho x => exact next_elim hx (h.dHandle x)
  | parseOk x | parseErr x => exact next_elim hx (h.parseWord x)
  | portIdle q d | portHqidle | oLine x | dec2f x | div100 x | neg x | fmt x n =>
    exact next_elim hx (h.congr rfl rfl rfl rfl rfl rfl)
  | reserved9 x | reservedA x | reservedB x | reservedC x | reservedD x | reservedE x | reservedF x => cases hx

end Inv

/-- Settles O47: right after reset the indices and the cursor are 0, nothing is written, and the record is zero. -/
theorem resetStateIsGood : Obligations.ResetStateIsGood := by
  intro p
  refine .cleared (fun q => ⟨[], Mem.wf_nil _, ?_⟩) rfl (Mem.wf_nil _) rfl
  cases q <;> rfl

/-- Settles O48: a step runs one operation from a state that differs in script, turn and pins only. -/
theorem everyStepKeepsGoodStates : Obligations.EveryStepKeepsGoodStates := by
  intro s t h hstep
  rcases step_next_cases hstep with ⟨x, rest, i, _, _, hi⟩ | ⟨_, hi⟩
  · exact (h.congr rfl rfl rfl rfl rfl rfl : Inv (s.takeStim rest)).exec hi
  · exact (h.congr rfl rfl rfl rfl rfl rfl : Inv s.takeTurn).exec hi

/-! The accumulator. -/

/-- Bytes that are no terminator and fit are appended to the bytes collected before them, and no line or event is
produced (R26, R63). -/
theorem execAll_feedOps {bs : List Byte} (hbs : ∀ b ∈ bs, isTerm b = false) {s : State} {x : List Byte}
    (hx : memRun s.acc 0 s.cursor.toNat = some x) (hfit : s.cursor.toNat + bs.length ≤ Config.L - 1) :
    ∃ t, execAll (feedOps bs) s = .next t ∧ t.cursor.toNat = s.cursor.toNat + bs.length ∧
      memRun t.acc 0 t.cursor.toNat = some (x ++ bs) ∧ KeepsLogs s t := by
  induction bs generalizing s x with
  | nil => exact ⟨s, rfl, rfl, by rw [hx, List.append_nil], rfl, rfl⟩
  | cons b bs ih =>
    rw [List.length_cons] at hfit
    have hroom : s.cursor.toNat < Config.L - 1 := by omega
    have hcursor := fData_cursor_toNat hroom b
    obtain ⟨t, ht, hcount, hacc, hlogs⟩ := ih (fun c hc => hbs c (List.mem_cons_of_mem b hc))
      (memRun_fData hroom hx b) (by omega)
    refine ⟨t, ?_, ?_, ?_, hlogs⟩
    · have hfeed : exec (.feed b) s = .next (fData b s) := fFeed_of_data (hbs b List.mem_cons_self) hroom
      simp only [feedOps, List.map_cons, execAll, hfeed]
      exact ht
    · rw [hcount, hcursor, List.length_cons]
      omega
    · rw [hacc, List.append_assoc, List.singleton_append]

/-- Settles O26: feeding from an idle framer, where nothing has been collected yet. -/
theorem accumulatorHoldsTheBytesFed : Obligations.AccumulatorHoldsTheBytesFed := by
  intro s bs hidle hbs hlen
  have hcursor : s.cursor.toNat = 0 := by rw [hidle]; rfl
  have hdata : ∀ b ∈ bs, isTerm b = false := fun b hb => isTerm_eq_false_iff.2 (hbs b hb)
  obtain ⟨t, ht, hcount, hacc, hlogs⟩ := execAll_feedOps hdata (x := []) (by rw [hcursor]; rfl) (by rwa [hcursor, Nat.zero_add])
  rw [hcursor, Nat.zero_add] at hcount
  exact ⟨t, ht, hcount, hcount ▸ hacc, hlogs⟩

end Sys2Proof.Machine
end

section
/-! PROOFS. Who writes what: the frames of a producer and of the consumer (10_state R28; 60_exceptions R273), and the
record, which changes by a commit alone (10_state R34; 20_memory R70; 43_fixparser R207). -/
namespace Sys2Proof.Machine

/-- The other link is another link (R10). -/
theorem other_ne (q : Link) : q.other ≠ q := by cases q <;> decide

/-! Setting the views moves no index and no cell, field by field. -/

@[simp] theorem settle_head (mode : SyncMode) (v : Queue) : (settle mode v).prod.head = v.prod.head := by
  cases mode <;> rfl

@[simp] theorem settle_tail (mode : SyncMode) (v : Queue) : (settle mode v).cons.tail = v.cons.tail := by
  cases mode <;> rfl

@[simp] theorem settle_qst (mode : SyncMode) (v : Queue) : (settle mode v).qst = v.qst := by
  cases mode <;> rfl

/-! The producers. -/

/-- What a producer's operation on queue `q` leaves, the parameters, the script and the turn aside: all but `head`, the
cell at `head`, the logs, the results and the pins, and in `exact` mode the views (R28). -/
def ProducerFrame (q : Link) (s t : State) : Prop :=
  KeepsQueue q.other s t ∧ t.tail q = s.tail q ∧
    (∀ a, a ≠ (s.head q).toNat → memRead (t.qst q) a = memRead (s.qst q) a) ∧
    (s.cfg.syncMode = .lagged → t.tailW q = s.tailW q ∧ t.headR q = s.headR q) ∧
    KeepsFramer s t ∧ KeepsFix s t

theorem qWrite_producerFrame (q : Link) (b : Byte) (s : State) : ProducerFrame q s (qWrite q b s).2 := by
  rcases qWrite_cases q b s with ⟨_, e⟩ | ⟨_, e⟩ <;> rw [e]
  · exact ⟨keepsQueue_of_queue_eq rfl, rfl, fun _ _ => rfl, fun _ => ⟨rfl, rfl⟩, ⟨rfl, fun _ => rfl⟩, rfl, rfl⟩
  · refine ⟨keepsQueue_of_queue_eq (setQueue_queue_other s (other_ne q) _), ?_, fun a ha => ?_, fun hm => ?_,
      ⟨rfl, fun _ => rfl⟩, rfl, rfl⟩
    · simp only [State.tail, setQueue_queue_same, settle_tail]
    · simp only [State.qst, setQueue_queue_same, settle_qst]
      exact memRead_memWrite_other _ ha b
    · simp only [State.tailW, State.headR, setQueue_queue_same, hm, settle_lagged, and_self]

theorem pArrive_producerFrame (q : Link) (b : Byte) (s : State) : ProducerFrame q s (pArrive q b s) := by
  obtain ⟨o, e, p, heq⟩ := pArrive_eq_qWrite q b s
  rw [heq]
  exact qWrite_producerFrame q b s

theorem writeWord_producerFrame (q : Link) (b : Byte) (s : State) : ProducerFrame q s (writeWord q b s) := by
  rw [writeWord_eq]
  exact qWrite_producerFrame q b s

/-- The operations of Prod(q) are P.ARRIVE and Q.WRITE of queue `q` (R92). -/
theorem exec_producerFrame {i : Instr} {s t : State} {q : Link} (hi : agentOf s.cfg i = .prod q)
    (h : exec i s = .next t) : ProducerFrame q s t := by
  cases i with
  | arriveOk r b | arriveFull r b | portArrive r b =>
    cases hi
    exact next_elim h (pArrive_producerFrame q b s)
  | writeOk r b | writeFull r b =>
    cases hi
    exact next_elim h (writeWord_producerFrame q b s)
  | readSome r | readNone r => simp only [agentOf] at hi; split at hi <;> cases hi
  | _ => cases hi

/-- Settles O51: a producer's operation writes through Q.WRITE alone. -/
theorem producersWriteOnlyTheirSide : Obligations.ProducersWriteOnlyTheirSide := by
  intro i s t q hi h
  obtain ⟨hother, htail, hcells, hviews, hframer, hfix⟩ := exec_producerFrame hi h
  exact ⟨hother, htail, hcells, hviews, hframer, hfix, exec_keepsModel h⟩

/-! The consumer. -/

/-- What the consumer's operations leave, the parameters, the script and the turn aside: every `head`, every queue cell,
in `lagged` mode the views, and the host-link queue (R28, R166). -/
def ConsumerFrame (s t : State) : Prop :=
  (∀ q, t.head q = s.head q ∧ (∀ a, memRead (t.qst q) a = memRead (s.qst q) a) ∧
    (s.cfg.syncMode = .lagged → t.tailW q = s.tailW q ∧ t.headR q = s.headR q)) ∧
  KeepsQueue s.cfg.hostLink s t

/-- The frame speaks of the queues alone. -/
theorem ConsumerFrame.congr {s t u : State} (h : ConsumerFrame s u) (hq : t.queues = u.queues) : ConsumerFrame s t := by
  simp only [ConsumerFrame, KeepsQueue, State.head, State.tail, State.tailW, State.headR, State.qst, State.queue, hq]
    at h ⊢
  exact h

theorem ConsumerFrame.of_queues_eq {s t : State} (hq : t.queues = s.queues) : ConsumerFrame s t :=
  congr ⟨fun _ => ⟨rfl, fun _ => rfl, fun _ => ⟨rfl, rfl⟩⟩, keepsQueue_of_queue_eq rfl⟩ hq

/-- Q.READ of the GNSS queue advances its `tail` alone, and in `exact` mode sets its views (R136). -/
theorem advance_tail_consumerFrame (s : State) (c : Index) : ConsumerFrame s
    (s.setQueue s.cfg.gnssLink (settle s.cfg.syncMode
      { prod := (s.queue s.cfg.gnssLink).prod, cons := { tail := c, headR := s.headR s.cfg.gnssLink },
        qst := s.qst s.cfg.gnssLink })) := by
  refine ⟨fun q => ?_, keepsQueue_of_queue_eq (setQueue_queue_other s (other_ne _) _)⟩
  by_cases hq : q = s.cfg.gnssLink
  · subst hq
    refine ⟨?_, fun a => ?_, fun hm => ?_⟩
    · simp only [State.head, setQueue_queue_same, settle_head]
    · simp only [State.qst, setQueue_queue_same, settle_qst]
    · simp only [State.tailW, State.headR, setQueue_queue_same, hm, settle_lagged, and_self]
  · simp only [State.head, State.qst, State.tailW, State.headR, setQueue_queue_other s hq, implies_true, and_self]

theorem readWord_consumerFrame {s t : State} (h : readWord s.cfg.gnssLink s = .next t) : ConsumerFrame s t := by
  obtain ⟨r, u, hu, rfl⟩ := readWord_next h
  rcases qRead_cases s.cfg.gnssLink s with ⟨_, e⟩ | ⟨_, b, _, e⟩ | ⟨_, _, e⟩ <;> rw [e] at hu <;> cases hu
  · exact .of_queues_eq rfl
  · exact (advance_tail_consumerFrame s _).congr rfl

/-! The parser, the dispatcher and the framer do not touch the queues (R140, R273). -/

theorem xParse_queues (x : List Byte) (s : State) : (xParse x s).2.queues = s.queues := by
  rcases xParse_cases x s with ⟨r, _, e⟩ | ⟨_, e⟩ <;> rw [e] <;> rfl

theorem dHandle_queues (x : List Byte) (s : State) : (dHandle x s).queues = s.queues := by
  rcases dHandle_cases x s with ⟨_, e⟩ | ⟨_, r, _, e⟩ | ⟨_, _, e⟩ <;> rw [e] <;> rfl

theorem fFeed_queues {b : Byte} {s t : State} (h : fFeed b s = .next t) : t.queues = s.queues := by
  rcases fFeed_cases b s with ⟨_, _, e⟩ | ⟨_, _, x, _, e⟩ | ⟨_, _, _, e⟩ | ⟨_, _, e⟩ | ⟨_, _, e⟩ <;> rw [e] at h <;>
    cases h
  · rfl
  · exact dHandle_queues x _
  · rfl
  · rfl

theorem cStep_consumerFrame {s t : State} (h : cStep s = .next t) : ConsumerFrame s t := by
  rcases cStep_cases s with ⟨_, e⟩ | ⟨_, b, _, e⟩ | ⟨_, _, e⟩ <;> rw [e] at h
  · exact next_elim h (.of_queues_eq rfl)
  · exact (advance_tail_consumerFrame s _).congr (fFeed_queues h)
  · cases h

/-- The operations of Cons are C.STEP, Q.READ of the GNSS queue, and those inside a C.STEP (R92). -/
theorem exec_consumerFrame {i : Instr} {s t : State} (hi : agentOf s.cfg i = .cons) (h : exec i s = .next t) :
    ConsumerFrame s t := by
  cases i with
  | readSome q | readNone q =>
    simp only [agentOf] at hi
    split at hi
    · next hq => subst hq; exact readWord_consumerFrame h
    · cases hi
  | stepByte | stepEmpty => exact cStep_consumerFrame h
  | feed b | feedData b | feedOvf b => exact .of_queues_eq (fFeed_queues h)
  | feedTermCr => exact .of_queues_eq (fFeed_queues (b := chCR) h)
  | feedTermLf => exact .of_queues_eq (fFeed_queues (b := chLF) h)
  | handleFix x | handleEcho x => exact next_elim h (.of_queues_eq (dHandle_queues x s))
  | parseOk x | parseErr x => exact next_elim h (.of_queues_eq (xParse_queues x s))
  | dec2f x | div100 x | neg x | fmt x n => exact next_elim h (.of_queues_eq rfl)
  | _ => cases hi

/-- Settles O52: the consumer reaches the queues through Q.READ of the GNSS queue alone. -/
theorem theConsumerWritesNoHeadAndNoCell : Obligations.TheConsumerWritesNoHeadAndNoCell := by
  intro i s t hi h
  obtain ⟨hqueues, hhost⟩ := exec_consumerFrame hi h
  exact ⟨hqueues, hhost, exec_keepsModel h⟩

/-! The record. -/

/-- The record is as before, or a whole record was committed and its event is the newest (R34, R70, R207). -/
def CommitsOrKeepsFix (s t : State) : Prop :=
  KeepsFix s t ∨ (t.fixValid = true ∧ ∃ evs, t.ev = s.ev ++ evs ++ [.fixUpdate t.fix])

namespace CommitsOrKeepsFix

variable {s t u : State}

/-- The operation may have logged other events before. -/
theorem after_events (hfix : KeepsFix s u) {es : List Event} (hev : u.ev = s.ev ++ es) (h : CommitsOrKeepsFix u t) :
    CommitsOrKeepsFix s t := by
  obtain ⟨hfix, hvalid⟩ := hfix
  rcases h with ⟨hf, hv⟩ | ⟨hv, evs, he⟩
  · exact .inl ⟨hf.trans hfix, hv.trans hvalid⟩
  · exact .inr ⟨hv, es ++ evs, by rw [he, hev, List.append_assoc s.ev]⟩

theorem commitFix (r : PositionFix) (s : State) : CommitsOrKeepsFix s (commitFix r s) :=
  .inr ⟨rfl, [], by simp⟩

theorem xParse (x : List Byte) (s : State) : CommitsOrKeepsFix s (xParse x s).2 := by
  rcases xParse_cases x s with ⟨r, _, e⟩ | ⟨_, e⟩ <;> rw [e]
  · exact commitFix r s
  · exact .inl ⟨rfl, rfl⟩

theorem parseWord (x : List Byte) (s : State) : CommitsOrKeepsFix s (parseWord x s) := by
  rw [parseWord_eq]
  exact xParse x s

theorem dHandle (x : List Byte) (s : State) : CommitsOrKeepsFix s (dHandle x s) := by
  rcases dHandle_cases x s with ⟨_, e⟩ | ⟨_, r, _, e⟩ | ⟨_, _, e⟩ <;> rw [e]
  · exact .inl ⟨rfl, rfl⟩
  · exact commitFix r s
  · exact .inl ⟨rfl, rfl⟩

theorem fFeed {b : Byte} (h : fFeed b s = .next t) : CommitsOrKeepsFix s t := by
  rcases fFeed_cases b s with ⟨_, _, e⟩ | ⟨_, _, x, _, e⟩ | ⟨_, _, _, e⟩ | ⟨_, _, e⟩ | ⟨_, _, e⟩ <;> rw [e] at h <;>
    cases h
  · exact .inl ⟨rfl, rfl⟩
  · exact after_events (u := logEvent (.sentence x) s) ⟨rfl, rfl⟩ rfl (dHandle x _)
  · exact .inl ⟨rfl, rfl⟩
  · exact .inl ⟨rfl, rfl⟩

theorem cStep (h : cStep s = .next t) : CommitsOrKeepsFix s t := by
  rcases cStep_cases s with ⟨_, e⟩ | ⟨_, b, _, e⟩ | ⟨_, _, e⟩ <;> rw [e] at h
  · exact next_elim h (.inl ⟨rfl, rfl⟩)
  · exact after_events (u := s.setQueue _ _) ⟨rfl, rfl⟩ (List.append_nil _).symm (fFeed h)
  · cases h

end CommitsOrKeepsFix

/-! The queue operations leave the record (R140). -/

theorem writeWord_keepsFix (q : Link) (b : Byte) (s : State) : KeepsFix s (writeWord q b s) := by
  obtain ⟨_, _, _, _, _, hfix⟩ := writeWord_producerFrame q b s
  exact hfix

theorem pArrive_keepsFix (q : Link) (b : Byte) (s : State) : KeepsFix s (pArrive q b s) := by
  obtain ⟨_, _, _, _, _, hfix⟩ := pArrive_producerFrame q b s
  exact hfix

theorem qRead_keepsFix {q : Link} {s t : State} {r : Option Byte} (h : qRead q s = .ok (r, t)) : KeepsFix s t := by
  rcases qRead_cases q s with ⟨_, e⟩ | ⟨_, b, _, e⟩ | ⟨_, _, e⟩ <;> rw [e] at h <;> cases h <;> exact ⟨rfl, rfl⟩

theorem readWord_keepsFix {q : Link} {s t : State} (h : readWord q s = .next t) : KeepsFix s t := by
  obtain ⟨r, u, hu, rfl⟩ := readWord_next h
  exact qRead_keepsFix (t := u) hu

theorem execPortHqread_keepsFix {s t : State} (h : execPortHqread s = .next t) : KeepsFix s t := by
  obtain ⟨r, u, hu, rfl⟩ := execPortHqread_next h
  exact qRead_keepsFix (t := u) hu

theorem qSyncW_keepsFix (q : Link) (mv : Move) (s : State) : KeepsFix s (qSyncW q mv s) := by
  cases hm : s.cfg.syncMode with
  | exact => rw [(qSync_exact hm q mv).1]; exact ⟨rfl, rfl⟩
  | lagged => rw [qSyncW_lagged hm]; exact ⟨rfl, rfl⟩

theorem qSyncR_keepsFix (q : Link) (mv : Move) (s : State) : KeepsFix s (qSyncR q mv s) := by
  cases hm : s.cfg.syncMode with
  | exact => rw [(qSync_exact hm q mv).2]; exact ⟨rfl, rfl⟩
  | lagged => rw [qSyncR_lagged hm]; exact ⟨rfl, rfl⟩

/-- Settles O54: of the operations that reach X.PARSE a commit is the last event; the others leave the record. -/
theorem theRecordChangesOnlyByACommit : Obligations.TheRecordChangesOnlyByACommit := by
  intro i s t hreset h
  show CommitsOrKeepsFix s t
  cases i with
  | reset => exact absurd rfl hreset
  | arriveOk q b | arriveFull q b | portArrive q b => exact next_elim h (.inl (pArrive_keepsFix q b s))
  | writeOk q b | writeFull q b => exact next_elim h (.inl (writeWord_keepsFix q b s))
  | readSome q | readNone q => exact .inl (readWord_keepsFix h)
  | portHqread => exact .inl (execPortHqread_keepsFix h)
  | syncw q mv => exact next_elim h (.inl (qSyncW_keepsFix q mv s))
  | syncr q mv => exact next_elim h (.inl (qSyncR_keepsFix q mv s))
  | stepByte | stepEmpty => exact .cStep h
  | feed b | feedData b | feedOvf b => exact .fFeed h
  | feedTermCr => exact .fFeed (b := chCR) h
  | feedTermLf => exact .fFeed (b := chLF) h
  | handleFix x | handleEcho x => exact next_elim h (.dHandle x s)
  | parseOk x | parseErr x => exact next_elim h (.parseWord x s)
  | init q | portIdle q d | portHqidle | oLine x | dec2f x | div100 x | neg x | fmt x n =>
    exact next_elim h (.inl ⟨rfl, rfl⟩)
  | reserved9 x | reservedA x | reservedB x | reservedC x | reservedD x | reservedE x | reservedF x => cases h

end Sys2Proof.Machine
end

section
/-! PROOFS. The bytes a good queue holds under the operations on it, and first in, first out (20_memory R71;
40_bytequeue R133, R136, R141, R142). -/
namespace Sys2Proof.Machine

/-! The held bytes. -/

/-- Setting the views moves no held byte. -/
@[simp] theorem settle_held (mode : SyncMode) (v : Queue) : (settle mode v).held = v.held := by
  cases mode <;> rfl

/-- A queue with `head = tail` holds nothing (R24). -/
theorem held_of_head_eq_tail {v : Queue} (h : v.prod.head = v.cons.tail) : v.held = some [] := by
  rw [Queue.held, h, BitVec.sub_self]
  rfl

namespace QueueInv

variable {mode : SyncMode} {v : Queue}

/-- Where the consumer sees a byte, the queue holds one (R39). -/
theorem one_le_count (h : QueueInv mode v) (hsome : v.cons.headR ≠ v.cons.tail) :
    1 ≤ (v.prod.head - v.cons.tail).toNat :=
  (one_le_toNat_sub hsome).trans h.headR_sub_tail_le_count

/-- The cell a read takes its byte from is written (R68). -/
theorem memRead_tail (h : QueueInv mode v) (hsome : v.cons.headR ≠ v.cons.tail) :
    ∃ b, memRead v.qst v.cons.tail.toNat = some b := by
  obtain ⟨b, hb⟩ := heldFrom_some_iff.1 h.written 0 (h.one_le_count hsome)
  rw [BitVec.add_zero] at hb
  exact ⟨b, hb⟩

/-- The byte of an accepted write joins the held bytes as the newest: its cell is none of theirs (R72, R133). -/
theorem held_write (h : QueueInv mode v) (hroom : v.prod.head + 1#8 ≠ v.prod.tailW) {x : List Byte}
    (hx : v.held = some x) (b : Byte) :
    Queue.held { prod := { head := v.prod.head + 1#8, tailW := v.prod.tailW }, cons := v.cons,
                 qst := memWrite v.qst v.prod.head.toNat b } = some (x ++ [b]) := by
  have hfree : (v.prod.head - v.cons.tail).toNat < 255 :=
    h.count_le_head_sub_tailW.trans_lt (toNat_sub_lt_of_succ_ne hroom)
  have hbefore :
      heldFrom (memWrite v.qst v.prod.head.toNat b) v.cons.tail (v.prod.head - v.cons.tail).toNat = some x := by
    refine (heldFrom_congr _ _ fun i hi => memRead_memWrite_other _ (fun e => ?_) b).trans hx
    have hcell : v.cons.tail + BitVec.ofNat 8 i = v.prod.head := BitVec.eq_of_toNat_eq e
    rw [← hcell, add_sub_cancel_left, BitVec.toNat_ofNat] at hi
    exact absurd (Nat.mod_le i _) (Nat.not_le.2 hi)
  simp only [Queue.held]
  rw [toNat_succ_sub hfree, heldFrom_succ_last, hbefore, add_ofNat_toNat_sub, memRead_memWrite_same]

/-- A read takes the oldest of the held bytes and leaves the others (R73, R136). -/
theorem held_read (h : QueueInv mode v) (hsome : v.cons.headR ≠ v.cons.tail) {x : List Byte} (hx : v.held = some x)
    {b : Byte} (hb : memRead v.qst v.cons.tail.toNat = some b) :
    ∃ y, Queue.held { v with cons := { tail := v.cons.tail + 1#8, headR := v.cons.headR } } = some y ∧
      x = b :: y := by
  have hone := h.one_le_count hsome
  obtain ⟨y, hy⟩ := (h.read hsome).written
  have hrest : heldFrom v.qst (v.cons.tail + 1#8) ((v.prod.head - v.cons.tail).toNat - 1) = some y := by
    rw [← toNat_sub_succ hone]
    exact hy
  refine ⟨y, hy, ?_⟩
  rw [Queue.held, ← Nat.sub_add_cancel hone, heldFrom, hb, hrest] at hx
  exact (Option.some.inj hx).symm

end QueueInv

/-! A good queue and what it holds, operation by operation. -/

/-- Queue `q` is good and holds the bytes `x`, oldest first (R71). -/
def QueueHolds (q : Link) (s : State) (x : List Byte) : Prop :=
  QueueInv s.cfg.syncMode (s.queue q) ∧ (s.queue q).held = some x

namespace QueueHolds

variable {q : Link} {s : State} {x : List Byte}

/-- A result recorded beside the queue is no change to it. -/
theorem recordResult (h : QueueHolds q s x) (r : Res) : QueueHolds q (record r s) x := h

/-- A queue good but for its views, once they are set as the mode says. -/
theorem setQueue_settle {v : Queue} (hv : QueueInv .lagged v) (hx : v.held = some x) :
    QueueHolds q (s.setQueue q (settle s.cfg.syncMode v)) x := by
  rw [QueueHolds, setQueue_queue_same, settle_held]
  exact ⟨hv.settle _, hx⟩

/-- Q.WRITE adds its byte as the newest exactly where it returns `true` (R133). -/
theorem qWrite (h : QueueHolds q s x) (b : Byte) :
    QueueHolds q (qWrite q b s).2 (x ++ if (qWrite q b s).1 then [b] else []) := by
  obtain ⟨hgood, hx⟩ := h
  rcases qWrite_cases q b s with ⟨_, e⟩ | ⟨hroom, e⟩ <;> rw [e]
  · rw [if_neg Bool.false_ne_true, List.append_nil]
    exact ⟨hgood, hx⟩
  · exact setQueue_settle (hgood.write hroom b) (hgood.held_write hroom hx b)

/-- Q.READ completes, and the byte it returns, if any, was the oldest (R68, R136). -/
theorem qRead (h : QueueHolds q s x) :
    ∃ r t y, qRead q s = .ok (r, t) ∧ QueueHolds q t y ∧ x = r.toList ++ y := by
  obtain ⟨hgood, hx⟩ := h
  rcases qRead_cases q s with ⟨_, e⟩ | ⟨hsome, b, hb, e⟩ | ⟨hsome, hb, _⟩
  · exact ⟨none, s, x, e, ⟨hgood, hx⟩, rfl⟩
  · obtain ⟨y, hy, rfl⟩ := hgood.held_read hsome hx hb
    exact ⟨some b, _, y, e, setQueue_settle (hgood.read hsome) hy, rfl⟩
  · obtain ⟨b, hb'⟩ := hgood.memRead_tail hsome
    exact absurd (hb.symm.trans hb') nofun

/-- Q.SYNCW moves a view and no held byte (R141). -/
theorem qSyncW (h : QueueHolds q s x) (mv : Move) : QueueHolds q (qSyncW q mv s) x := by
  cases hm : s.cfg.syncMode with
  | exact => rwa [(qSync_exact hm q mv).1]
  | lagged =>
    obtain ⟨hgood, hx⟩ := h
    rw [qSyncW_lagged hm, QueueHolds, setQueue_queue_same, setQueue_cfg, hm]
    exact ⟨hgood.syncW (moveBy_le mv _), hx⟩

/-- Q.SYNCR moves a view and no held byte (R142). -/
theorem qSyncR (h : QueueHolds q s x) (mv : Move) : QueueHolds q (qSyncR q mv s) x := by
  cases hm : s.cfg.syncMode with
  | exact => rwa [(qSync_exact hm q mv).2]
  | lagged =>
    obtain ⟨hgood, hx⟩ := h
    rw [qSyncR_lagged hm, QueueHolds, setQueue_queue_same, setQueue_cfg, hm]
    exact ⟨hgood.syncR (moveBy_le mv _), hx⟩

end QueueHolds

/-! What a run counts, by its first operation. -/

section
variable {q : Link} {s u : State} {os : List QueueOp} {taken given : List Byte}

/-- A write is accepted exactly where Q.WRITE returned `true`. -/
theorem queueRun_write {b : Byte}
    (h : queueRun q os (record (.wrote (qWrite q b s).1) (qWrite q b s).2) = some (taken, given, u)) :
    queueRun q (.write b :: os) s = some ((if (qWrite q b s).1 then [b] else []) ++ taken, given, u) := by
  have hexec : exec (QueueOp.instr q (.write b)) s = .next (record (.wrote (qWrite q b s).1) (qWrite q b s).2) := rfl
  simp only [queueRun, hexec, h, record_results, List.getLast?_concat]
  cases (qWrite q b s).1 <;> rfl

/-- A read returns the byte Q.READ returned, if any. -/
theorem queueRun_read {r : Option Byte} {t : State} (hr : qRead q s = .ok (r, t))
    (h : queueRun q os (record (.read r) t) = some (taken, given, u)) :
    queueRun q (.read :: os) s = some (taken, r.toList ++ given, u) := by
  have hexec : exec (QueueOp.instr q .read) s = .next (record (.read r) t) := by
    show readWord q s = _
    rw [readWord, hr]
  simp only [queueRun, hexec, h, record_results, List.getLast?_concat]
  cases r <;> rfl

/-- A move of the producer's view counts nothing. -/
theorem queueRun_syncw {mv : Move} (h : queueRun q os (qSyncW q mv s) = some (taken, given, u)) :
    queueRun q (.syncw mv :: os) s = some (taken, given, u) := by
  have hexec : exec (QueueOp.instr q (.syncw mv)) s = .next (qSyncW q mv s) := rfl
  simp only [queueRun, hexec, h]

/-- A move of the consumer's view counts nothing. -/
theorem queueRun_syncr {mv : Move} (h : queueRun q os (qSyncR q mv s) = some (taken, given, u)) :
    queueRun q (.syncr mv :: os) s = some (taken, given, u) := by
  have hexec : exec (QueueOp.instr q (.syncr mv)) s = .next (qSyncR q mv s) := rfl
  simp only [queueRun, hexec, h]

end

/-- A run from a good queue completes, and the bytes held before it and accepted by it are the bytes it returned and
left, in order (R71). -/
theorem QueueHolds.queueRun_inOrder {q : Link} (ops : List QueueOp) {s : State} {x : List Byte} (h : QueueHolds q s x) :
    ∃ taken given u rest, queueRun q ops s = some (taken, given, u) ∧ QueueHolds q u rest ∧
      x ++ taken = given ++ rest := by
  induction ops generalizing s x with
  | nil => exact ⟨[], [], s, x, rfl, h, List.append_nil x⟩
  | cons o os ih =>
    cases o with
    | write b =>
      obtain ⟨taken, given, u, rest, hrun, hu, horder⟩ := ih ((h.qWrite b).recordResult _)
      exact ⟨_, given, u, rest, queueRun_write hrun, hu, by rw [← List.append_assoc, horder]⟩
    | read =>
      obtain ⟨r, t, y, hr, ht, rfl⟩ := h.qRead
      obtain ⟨taken, given, u, rest, hrun, hu, horder⟩ := ih (ht.recordResult (.read r))
      exact ⟨taken, _, u, rest, queueRun_read hr hrun, hu, by rw [List.append_assoc, horder, List.append_assoc]⟩
    | syncw mv =>
      obtain ⟨taken, given, u, rest, hrun, hkept⟩ := ih (h.qSyncW mv)
      exact ⟨taken, given, u, rest, queueRun_syncw hrun, hkept⟩
    | syncr mv =>
      obtain ⟨taken, given, u, rest, hrun, hkept⟩ := ih (h.qSyncR mv)
      exact ⟨taken, given, u, rest, queueRun_syncr hrun, hkept⟩

/-- Settles O20: a run from a queue that holds nothing. -/
theorem queueReturnsAcceptedBytesInOrder : Obligations.QueueReturnsAcceptedBytesInOrder := by
  intro q s ops hgood hempty
  have hnothing : QueueHolds q s [] := ⟨hgood, held_of_head_eq_tail hempty⟩
  obtain ⟨taken, given, u, rest, hrun, ⟨_, hrest⟩, horder⟩ := hnothing.queueRun_inOrder ops
  exact ⟨taken, given, u, rest, hrun, hrest, horder⟩

end Sys2Proof.Machine
end

section
/-! PROOFS. C.STEP completes in good states: the queue cell it reads and the accumulator cells a terminator reads are
written (20_memory R68, R79; 41_framer R166). -/
namespace Sys2Proof.Machine

/-- F.FEED completes where the bytes before the cursor are written (R68). -/
theorem FramerInv.fFeed_completes {s : State} (h : FramerInv s) (b : Byte) : ∃ t, fFeed b s = .next t := by
  rcases fFeed_cases b s with ⟨_, _, e⟩ | ⟨_, _, x, _, e⟩ | ⟨_, _, hnone, _⟩ | ⟨_, _, e⟩ | ⟨_, _, e⟩
  · exact ⟨_, e⟩
  · exact ⟨_, e⟩
  · obtain ⟨x, hx, _⟩ := h.collected
    exact absurd (hnone.symm.trans hx) nofun
  · exact ⟨_, e⟩
  · exact ⟨_, e⟩

/-- C.STEP completes in a good state and takes the byte seen, if any (R166). -/
theorem cStep_completes {s : State} (h : Inv s) : ∃ t, cStep s = .next t ∧
    (s.headR s.cfg.gnssLink ≠ s.tail s.cfg.gnssLink → t.tail s.cfg.gnssLink = s.tail s.cfg.gnssLink + 1#8) := by
  rcases cStep_cases s with ⟨hempty, e⟩ | ⟨hsome, b, _, e⟩ | ⟨hsome, hnone, _⟩
  · exact ⟨s, e, fun hsome => absurd hempty hsome⟩
  · have hread := h.setQueue (q := s.cfg.gnssLink) (((h.queues s.cfg.gnssLink).read hsome).settle _)
    obtain ⟨t, ht⟩ := hread.framer.fFeed_completes b
    refine ⟨t, e.trans ht, fun _ => ?_⟩
    simp only [State.tail, State.queue, fFeed_queues ht, setQueue_queues, Pair.get_set_same, settle_tail]
  · obtain ⟨b, hb⟩ := (h.queues s.cfg.gnssLink).memRead_tail hsome
    exact absurd (hnone.symm.trans hb) nofun

/-- Settles O31: both rows are the one operation C.STEP (log 5). -/
theorem stepCompletesInGoodStates : Obligations.StepCompletesInGoodStates := by
  rintro s i (rfl | rfl) h
  · exact cStep_completes h
  · exact cStep_completes h

end Sys2Proof.Machine
end

section
/-! PROOFS. The encoding: the fields of a 16-bit word as numbers, the decoder's answer by opcode, and the two round trips
(30_encoding R95, R102 to R104, R108, R120). -/
namespace Sys2Proof

/-! The fields of a word. -/

/-- A bit of a word, by its number. -/
theorem getLsbD_iff {n : Nat} (w : BitVec n) (i : Nat) : w.getLsbD i = true ↔ w.toNat / 2 ^ i % 2 = 1 := by
  rw [BitVec.getLsbD, Nat.testBit_eq_decide_div_mod_eq, decide_eq_true_iff]

theorem linkBit_iff (w : BitVec 16) : w.getLsbD 8 = true ↔ w.toNat / 0x100 % 2 = 1 := getLsbD_iff w 8

theorem opField_eq (w : BitVec 16) : opField w = w.toNat / 0x1000 := by
  have hw := w.isLt
  simp only [opField, BitVec.extractLsb'_toNat, Nat.shiftRight_eq_div_pow]
  omega

theorem byteField_toNat (w : BitVec 16) : (byteField w).toNat = w.toNat % 0x100 := BitVec.extractLsb'_toNat ..

theorem bitOfLink_linkField (w : BitVec 16) : bitOfLink (linkField w) = w.toNat / 0x100 % 2 := by
  have hbit := linkBit_iff w
  rw [linkField]
  cases hq : w.getLsbD 8 with
  | false => exact (Nat.mod_two_ne_one.1 (fun h => Bool.false_ne_true (hq ▸ hbit.2 h))).symm
  | true => exact (hbit.1 hq).symm

theorem zeroField_iff (w : BitVec 16) : zeroField w = true ↔ w.toNat / 0x200 % 8 = 0 := by
  rw [zeroField, beq_iff_eq, ← BitVec.toNat_inj, BitVec.extractLsb'_toNat, Nat.shiftRight_eq_div_pow]
  rfl

theorem noOperand_iff (w : BitVec 16) : noOperand w = true ↔ w.toNat % 0x1000 = 0 := by
  rw [noOperand, beq_iff_eq, ← BitVec.toNat_inj, BitVec.extractLsb'_toNat]
  rfl

theorem linkOnly_iff (w : BitVec 16) : linkOnly w = true ↔ w.toNat / 0x200 % 8 = 0 ∧ w.toNat % 0x100 = 0 := by
  rw [linkOnly, Bool.and_eq_true, zeroField_iff, beq_iff_eq, ← BitVec.toNat_inj, byteField_toNat]
  rfl

theorem byteOnly_iff (w : BitVec 16) :
    byteOnly w = true ↔ w.toNat / 0x200 % 8 = 0 ∧ w.toNat / 0x100 % 2 = 0 := by
  rw [byteOnly, Bool.and_eq_true, zeroField_iff, Bool.not_eq_true', ← Bool.not_eq_true, linkBit_iff, ← ne_eq,
    Nat.mod_two_ne_one]

/-- A number in the fields' ranges is the word with these fields (R120). -/
theorem word16Of_eq {op q : Nat} {b : Byte} {w : BitVec 16} (h : 0x1000 * op + 0x100 * q + b.toNat = w.toNat) :
    word16Of op q b = .word16 w := by
  rw [word16Of, h, BitVec.ofNat_toNat, BitVec.setWidth_eq]

theorem reservedWord_eq {op : Nat} {w : BitVec 16} (h : opField w = op) :
    reservedWord op (w.extractLsb' 0 12) = .word16 w := by
  have hlow : (w.extractLsb' 0 12).toNat = w.toNat % 0x1000 := BitVec.extractLsb'_toNat ..
  rw [opField_eq] at h
  rw [reservedWord, hlow, ← h, Nat.div_add_mod, BitVec.ofNat_toNat, BitVec.setWidth_eq]

/-! The decoder's answer to a 16-bit word. -/

/-- Every field that R120 wants zero is zero: bits [11:9], and `q` and `b` where the operation does not use them. -/
def UnusedFieldsZero (w : BitVec 16) : Prop :=
  w.toNat / 0x200 % 8 = 0 ∧
    (w.toNat / 0x1000 ∉ [1, 2, 3, 4, 7, 8] → w.toNat / 0x100 % 2 = 0) ∧
    (w.toNat / 0x1000 ∉ [2, 3, 6] → w.toNat % 0x100 = 0)

/-- A word read with a check of its fields is an operation whose word it is, or is refused by name. -/
def CheckedWord (w : BitVec 16) (d : Except DecodeError Instr) : Prop :=
  (UnusedFieldsZero w ∧ ∃ i, d = .ok i ∧ encode i = .word16 w) ∨
    (¬ UnusedFieldsZero w ∧ d = .error (.nonZeroField w))

theorem orNonZero_checked {w : BitVec 16} {ok : Bool} {i : Instr} (hok : ok = true ↔ UnusedFieldsZero w)
    (hword : UnusedFieldsZero w → encode i = .word16 w) : CheckedWord w (orNonZero w ok i) := by
  cases ok with
  | true => exact .inl ⟨hok.1 rfl, i, rfl, hword (hok.1 rfl)⟩
  | false => exact .inr ⟨fun h => Bool.false_ne_true (hok.2 h), rfl⟩

/-- A word of a defined opcode is checked for exactly the fields its operation does not use (R120). -/
theorem decode16_checked {w : BitVec 16} (h : w.toNat / 0x1000 ≤ 8) : CheckedWord w (decode16 w) := by
  have hlink := bitOfLink_linkField w
  have hbyte := byteField_toNat w
  have hop := opField_eq w
  rw [← hop] at h
  unfold decode16
  interval_cases hcode : opField w
  all_goals
    refine orNonZero_checked ?_ fun hzero => word16Of_eq ?_
    · simp [noOperand_iff, linkOnly_iff, byteOnly_iff, zeroField_iff, UnusedFieldsZero, ← hop] <;> omega
    · simp [UnusedFieldsZero, ← hop] at hzero ⊢
      omega

/-- A word of a reserved opcode is read as its row, which keeps every bit and refuses (R108, R120). -/
theorem decode16_reserved {w : BitVec 16} (h : 9 ≤ w.toNat / 0x1000) : ∃ i, decode16 w = .ok i ∧
    encode i = .word16 w ∧
    ∀ s, Machine.exec i s = .refused (.reservedOpcode (BitVec.ofNat 4 (w.toNat / 0x1000))) := by
  have hmax : opField w ≤ 15 := Nat.le_of_lt_succ (w.extractLsb' 12 4).isLt
  rw [← opField_eq] at h ⊢
  unfold decode16
  interval_cases hcode : opField w
  all_goals exact ⟨_, rfl, reservedWord_eq hcode, fun s => rfl⟩

/-- A 16-bit word that is an operation is that operation's word. -/
theorem encode_of_decode16 {w : BitVec 16} {i : Instr} (h : decode16 w = .ok i) : encode i = .word16 w := by
  rcases Nat.lt_or_ge (w.toNat / 0x1000) 9 with hop | hop
  · rcases decode16_checked (Nat.le_of_lt_succ hop) with ⟨_, j, hj, hword⟩ | ⟨_, herror⟩
    · cases hj.symm.trans h
      exact hword
    · cases herror.symm.trans h
  · obtain ⟨j, hj, hword, _⟩ := decode16_reserved hop
    cases hj.symm.trans h
    exact hword

/-! The other formats. -/

/-- `rx_valid` of a P9 word (R95). -/
theorem validBit_iff (w : BitVec 9) : w.getLsbD 8 = true ↔ 0x100 ≤ w.toNat := by
  have hw := w.isLt
  rw [getLsbD_iff]
  omega

/-- `rx_data` of a P9 word (R95). -/
theorem dataField_toNat (w : BitVec 9) : (w.extractLsb' 0 8).toNat = w.toNat % 0x100 := BitVec.extractLsb'_toNat ..

theorem encode_decode9 (q : Link) (w : BitVec 9) : encode (decode9 q w) = .port9 q w := by
  have hw := w.isLt
  simp only [decode9, validBit_iff]
  split
  all_goals
    refine congrArg (Stim.port9 q) (BitVec.eq_of_toNat_eq ?_)
    rw [BitVec.toNat_ofNat, dataField_toNat]
    omega

theorem encode_decode1 (w : BitVec 1) : encode (decode1 w) = .port1 w := by
  revert w
  decide

theorem encode_decode8 (b : Byte) : encode (decode8 b) = .byte8 b := by
  rw [decode8]
  split
  · next hcr => rw [hcr]; rfl
  · split
    · next hlf => rw [hlf]; rfl
    · rfl

theorem encode_decodeSentence (x : List Byte) : encode (decodeSentence x) = .sentence x := by
  rw [decodeSentence]
  split <;> rfl

theorem encode_of_decodeDirect {i j : Instr} (h : decodeDirect i = .ok j) : encode j = .direct i := by
  unfold decodeDirect at h
  split at h <;> cases h <;> rfl

/-- Settles O3: format by format, no bit is dropped. -/
theorem everyStimulusRoundTrips : Obligations.EveryStimulusRoundTrips := by
  intro x i h
  cases x with
  | word16 w => exact encode_of_decode16 h
  | port9 q w => cases h; exact encode_decode9 q w
  | port1 w => cases h; exact encode_decode1 w
  | byte8 b => cases h; exact encode_decode8 b
  | sentence x => cases h; exact encode_decodeSentence x
  | direct j => exact encode_of_decodeDirect h
  | unknown nbits w => cases h

/-! The words of the rows. -/

theorem bitOfLink_lt (q : Link) : bitOfLink q < 2 := by cases q <;> decide

theorem bitOfLink_injective {q r : Link} (h : bitOfLink q = bitOfLink r) : q = r := by
  cases q with
  | link0 =>
    cases r with
    | link0 => rfl
    | link1 => cases h
  | link1 =>
    cases r with
    | link0 => cases h
    | link1 => rfl

/-- The word of an opcode, a link and a byte, as `word16Of` writes it (R120). -/
def fieldsWord (op : Nat) (q : Link) (b : Byte) : BitVec 16 :=
  BitVec.ofNat 16 (0x1000 * op + 0x100 * bitOfLink q + b.toNat)

theorem word16Of_bitOfLink (op : Nat) (q : Link) (b : Byte) :
    word16Of op (bitOfLink q) b = .word16 (fieldsWord op q b) := rfl

section
variable {op : Nat} (hop : op < 16) (q : Link) (b : Byte)
include hop

theorem fieldsWord_toNat : (fieldsWord op q b).toNat = 0x1000 * op + 0x100 * bitOfLink q + b.toNat := by
  have hq := bitOfLink_lt q
  have hb := b.isLt
  rw [fieldsWord, BitVec.toNat_ofNat]
  omega

@[simp] theorem opField_fieldsWord : opField (fieldsWord op q b) = op := by
  have hq := bitOfLink_lt q
  have hb := b.isLt
  rw [opField_eq, fieldsWord_toNat hop]
  omega

@[simp] theorem zeroField_fieldsWord : zeroField (fieldsWord op q b) = true := by
  have hq := bitOfLink_lt q
  have hb := b.isLt
  rw [zeroField_iff, fieldsWord_toNat hop]
  omega

@[simp] theorem linkField_fieldsWord : linkField (fieldsWord op q b) = q := by
  have hq := bitOfLink_lt q
  have hb := b.isLt
  refine bitOfLink_injective ?_
  rw [bitOfLink_linkField, fieldsWord_toNat hop]
  omega

@[simp] theorem byteField_fieldsWord : byteField (fieldsWord op q b) = b := by
  have hb := b.isLt
  refine BitVec.eq_of_toNat_eq ?_
  rw [byteField_toNat, fieldsWord_toNat hop]
  omega

@[simp] theorem linkOnly_fieldsWord : linkOnly (fieldsWord op q 0#8) = true := by
  rw [linkOnly, zeroField_fieldsWord hop, byteField_fieldsWord hop]
  rfl

@[simp] theorem byteOnly_fieldsWord : byteOnly (fieldsWord op .link0 b) = true := by
  have hb := b.isLt
  rw [byteOnly_iff, fieldsWord_toNat hop, bitOfLink]
  omega

@[simp] theorem noOperand_fieldsWord : noOperand (fieldsWord op .link0 0#8) = true := by
  rw [noOperand_iff, fieldsWord_toNat hop, bitOfLink, BitVec.toNat_zero]
  omega

end

theorem decode_resetWord : decode (word16Of 0x0 (bitOfLink .link0) 0#8) = .ok .reset := by
  simp [word16Of_bitOfLink, decode, decode16, orNonZero]

theorem decode_initWord (q : Link) : decode (word16Of 0x1 (bitOfLink q) 0#8) = .ok (.init q) := by
  simp [word16Of_bitOfLink, decode, decode16, orNonZero]

theorem decode_arriveWord (q : Link) (b : Byte) : decode (word16Of 0x2 (bitOfLink q) b) = .ok (.arriveOk q b) := by
  simp [word16Of_bitOfLink, decode, decode16, orNonZero]

theorem decode_writeWord (q : Link) (b : Byte) : decode (word16Of 0x3 (bitOfLink q) b) = .ok (.writeOk q b) := by
  simp [word16Of_bitOfLink, decode, decode16, orNonZero]

theorem decode_readWord (q : Link) : decode (word16Of 0x4 (bitOfLink q) 0#8) = .ok (.readSome q) := by
  simp [word16Of_bitOfLink, decode, decode16, orNonZero]

theorem decode_stepWord : decode (word16Of 0x5 (bitOfLink .link0) 0#8) = .ok .stepByte := by
  simp [word16Of_bitOfLink, decode, decode16, orNonZero]

theorem decode_feedWord (b : Byte) : decode (word16Of 0x6 (bitOfLink .link0) b) = .ok (.feed b) := by
  simp [word16Of_bitOfLink, decode, decode16, orNonZero]

theorem decode_syncwWord (q : Link) : decode (word16Of 0x7 (bitOfLink q) 0#8) = .ok (.syncw q .full) := by
  simp [word16Of_bitOfLink, decode, decode16, orNonZero]

theorem decode_syncrWord (q : Link) : decode (word16Of 0x8 (bitOfLink q) 0#8) = .ok (.syncr q .full) := by
  simp [word16Of_bitOfLink, decode, decode16, orNonZero]

theorem decode9_arriveWord (q : Link) (b : Byte) : decode9 q (BitVec.ofNat 9 (0x100 + b.toNat)) = .portArrive q b := by
  have hb := b.isLt
  have hword : (BitVec.ofNat 9 (0x100 + b.toNat)).toNat = 0x100 + b.toNat := Nat.mod_eq_of_lt (by omega)
  have hdata : (BitVec.ofNat 9 (0x100 + b.toNat)).extractLsb' 0 8 = b :=
    BitVec.eq_of_toNat_eq (by rw [dataField_toNat, hword]; omega)
  rw [decode9, if_pos ((validBit_iff _).2 (by omega)), hdata]

theorem decode9_idleWord (q : Link) (b : Byte) : decode9 q (BitVec.ofNat 9 b.toNat) = .portIdle q b := by
  have hb := b.isLt
  have hword : (BitVec.ofNat 9 b.toNat).toNat = b.toNat := Nat.mod_eq_of_lt (by omega)
  have hdata : (BitVec.ofNat 9 b.toNat).extractLsb' 0 8 = b :=
    BitVec.eq_of_toNat_eq (by rw [dataField_toNat, hword]; omega)
  rw [decode9, if_neg (mt (validBit_iff _).1 (by omega)), hdata]

theorem decode8_data {b : Byte} (h : Machine.isTerm b = false) : decode8 b = .feedData b := by
  obtain ⟨hcr, hlf⟩ := Machine.isTerm_eq_false_iff.1 h
  rw [decode8, if_neg hcr, if_neg hlf]

/-- Settles O2: row by row, in the format of the row; the rows that share a word share a case (R104). -/
theorem everyWellFormedRowRoundTrips : Obligations.EveryWellFormedRowRoundTrips := by
  intro i hwf
  cases i with
  | reset => exact decode_resetWord
  | init q => exact decode_initWord q
  | arriveOk q b | arriveFull q b => exact decode_arriveWord q b
  | writeOk q b | writeFull q b => exact decode_writeWord q b
  | readSome q | readNone q => exact decode_readWord q
  | stepByte | stepEmpty => exact decode_stepWord
  | feed b => exact decode_feedWord b
  | syncw q mv =>
    cases mv with
    | full => exact decode_syncwWord q
    | upTo k => rfl
  | syncr q mv =>
    cases mv with
    | full => exact decode_syncrWord q
    | upTo k => rfl
  | portArrive q b => exact congrArg Except.ok (decode9_arriveWord q b)
  | portIdle q d => exact congrArg Except.ok (decode9_idleWord q d)
  | feedData b | feedOvf b =>
    have hdata : Machine.isTerm b = false := by simpa [Instr.wellFormed] using hwf
    exact congrArg Except.ok (decode8_data hdata)
  | handleFix x =>
    have htag : Machine.hasTag x = true := by simp_all [Instr.wellFormed]
    exact congrArg Except.ok (if_pos htag)
  | handleEcho x =>
    have htag : ¬ Machine.hasTag x = true := by simp_all [Instr.wellFormed]
    exact congrArg Except.ok (if_neg htag)
  | portHqread | portHqidle | feedTermCr | feedTermLf => rfl
  | parseOk x | parseErr x | oLine x | dec2f x | div100 x | neg x | fmt x n => rfl
  | reserved9 x | reservedA x | reservedB x | reservedC x | reservedD x | reservedE x | reservedF x => cases hwf

/-! Refused words. -/

/-- Settles O4: a word of a defined opcode is refused exactly where such a field is not zero. -/
theorem wordsWithNonZeroUnusedFieldsAreRefused : Obligations.WordsWithNonZeroUnusedFieldsAreRefused := by
  intro s w rest hscript hop hfield
  rcases decode16_checked hop with ⟨⟨hzero, hlink, hbyte⟩, _⟩ | ⟨_, herror⟩
  · rcases hfield with h | ⟨hop, h⟩ | ⟨hop, h⟩
    · exact absurd hzero h
    · exact absurd (hlink hop) h
    · exact absurd (hbyte hop) h
  · exact Machine.step_illFormed hscript herror

/-- Settles O5: the rows refuse in every state, and a word of such an opcode decodes to its row. -/
theorem reservedOpcodesAreRefused : Obligations.ReservedOpcodesAreRefused := by
  refine ⟨fun x s => ⟨rfl, rfl, rfl, rfl, rfl, rfl, rfl⟩, fun s w rest hscript hop => ?_⟩
  obtain ⟨i, hi, _, hrefused⟩ := decode16_reserved hop
  exact (Machine.step_stim hscript hi).trans (hrefused _)

/-- Settles O1: the decoder run on each of the words. -/
theorem specWordsDecodeToTheirOperations : Obligations.SpecWordsDecodeToTheirOperations :=
  ⟨rfl, rfl, rfl, rfl, rfl, rfl, rfl, rfl, rfl, rfl, rfl, rfl, rfl, rfl, rfl, rfl, rfl, rfl, rfl⟩

end Sys2Proof
end

section
/-! PROOFS. The parser and the grammar: numerals by their shape, fields by their commas, and the sentences X.PARSE accepts
(30_encoding R98, R99, R100, R111; 43_fixparser R200 to R206). -/
namespace Sys2Proof.Machine

/-! Numerals. -/

theorem isDigit_iff {b : Byte} : isDigit b = true ↔ IsDigitByte b := decide_eq_true_iff

/-- What follows the digits before the point: nothing, or the point and more digits (R99). -/
def fractionPart (frac : List Byte) : List Byte := if frac = [] then [] else chPoint :: frac

/-- NUM is an optional minus, digits, and the fraction part (R99). -/
theorem numShape_iff {neg : Bool} {whole frac t : List Byte} : NumShape neg whole frac t ↔
    whole ≠ [] ∧ (∀ b ∈ whole, isDigit b = true) ∧ (∀ b ∈ frac, isDigit b = true) ∧
      t = (if neg then [chMinus] else []) ++ (whole ++ fractionPart frac) := by
  simp only [NumShape, fractionPart, chMinus, chPoint, isDigit_iff, List.forall_mem_append, List.append_assoc, and_assoc]

/-- No digit follows the digits before the point. -/
theorem takeWhile_fractionPart (frac : List Byte) : (fractionPart frac).takeWhile isDigit = [] := by
  rw [fractionPart]
  split <;> rfl

theorem dropWhile_fractionPart (frac : List Byte) : (fractionPart frac).dropWhile isDigit = fractionPart frac := by
  rw [fractionPart]
  split <;> rfl

/-- The numeral of given digits (R99). -/
def numeralOf (neg : Bool) (whole frac : List Byte) : Numeral :=
  { neg := neg, digits := decimalVal (whole ++ frac), scale := frac.length }

/-- NUM without its sign is read with the digits its shape has. -/
theorem parseUnsigned_shape (neg : Bool) {whole frac : List Byte} (hne : whole ≠ [])
    (hwhole : ∀ b ∈ whole, isDigit b = true) (hfrac : ∀ b ∈ frac, isDigit b = true) :
    parseUnsigned neg (whole ++ fractionPart frac) = some (numeralOf neg whole frac) := by
  have htake : (whole ++ fractionPart frac).takeWhile isDigit = whole := by
    rw [List.takeWhile_append_of_pos hwhole, takeWhile_fractionPart, List.append_nil]
  have hdrop : (whole ++ fractionPart frac).dropWhile isDigit = fractionPart frac := by
    rw [List.dropWhile_append_of_pos hwhole, dropWhile_fractionPart]
  simp only [parseUnsigned, htake, hdrop, if_neg hne]
  by_cases h : frac = []
  · simp [fractionPart, h, numeralOf]
  · simp only [fractionPart, if_neg h, numeralOf]
    exact if_pos ⟨trivial, h, List.all_eq_true.2 hfrac⟩

/-- What is read as NUM without its sign has the shape. -/
theorem parseUnsigned_some {neg : Bool} {t : List Byte} {n : Numeral} (h : parseUnsigned neg t = some n) :
    ∃ whole frac, whole ≠ [] ∧ (∀ b ∈ whole, isDigit b = true) ∧ (∀ b ∈ frac, isDigit b = true) ∧
      t = whole ++ fractionPart frac ∧ n = numeralOf neg whole frac := by
  have hsplit := List.takeWhile_append_dropWhile (p := isDigit) (l := t)
  have hwhole : ∀ b ∈ t.takeWhile isDigit, isDigit b = true := fun b hb => List.mem_takeWhile_imp hb
  simp only [parseUnsigned] at h
  split at h
  · cases h
  · next hne =>
    split at h
    · next hdrop =>
      cases h
      refine ⟨_, [], hne, hwhole, nofun, ?_, by rw [numeralOf, List.append_nil]; rfl⟩
      rw [hdrop] at hsplit
      exact hsplit.symm
    · next c frac hdrop =>
      split at h
      · next hfrac =>
        obtain ⟨rfl, hfne, hall⟩ := hfrac
        cases h
        refine ⟨_, frac, hne, hwhole, List.all_eq_true.1 hall, ?_, rfl⟩
        rw [fractionPart, if_neg hfne, ← hdrop, hsplit]
      · cases h

/-- A field of the shape NUM is read with its digits. -/
theorem parseNum_of_numShape {neg : Bool} {whole frac t : List Byte} (h : NumShape neg whole frac t) :
    parseNum t = some (numeralOf neg whole frac) := by
  obtain ⟨hne, hwhole, hfrac, rfl⟩ := numShape_iff.1 h
  have hread := parseUnsigned_shape neg hne hwhole hfrac
  cases neg with
  | true => exact hread
  | false =>
    obtain ⟨b, bs, rfl⟩ := List.exists_cons_of_ne_nil hne
    have hb : b ≠ chMinus := by
      rintro rfl
      exact absurd (hwhole chMinus List.mem_cons_self) (by decide)
    exact (if_neg hb).trans hread

/-- A field that is read as a numeral has the shape NUM. -/
theorem parseNum_some {t : List Byte} {n : Numeral} (h : parseNum t = some n) :
    ∃ whole frac, NumShape n.neg whole frac t ∧ n = numeralOf n.neg whole frac := by
  cases t with
  | nil => cases h
  | cons b t =>
    rw [parseNum] at h
    split at h
    · next hb =>
      obtain ⟨whole, frac, hne, hwhole, hfrac, rfl, rfl⟩ := parseUnsigned_some h
      exact ⟨whole, frac, numShape_iff.2 ⟨hne, hwhole, hfrac, by rw [hb]; rfl⟩, rfl⟩
    · obtain ⟨whole, frac, hne, hwhole, hfrac, ht, rfl⟩ := parseUnsigned_some h
      exact ⟨whole, frac, numShape_iff.2 ⟨hne, hwhole, hfrac, ht⟩, rfl⟩

/-- Settles O37: the parser takes the longest run of digits, and no digit follows the digits of the shape. -/
theorem numeralsAreReadByTheirShape : Obligations.NumeralsAreReadByTheirShape := by
  intro t n
  constructor
  · intro h
    obtain ⟨whole, frac, hshape, hn⟩ := parseNum_some h
    refine ⟨whole, frac, hshape, ?_, ?_⟩ <;> rw [hn]
    · exact decimalVal_eq_readDigits _
    · rfl
  · rintro ⟨whole, frac, hshape, hdigits, hscale⟩
    rw [parseNum_of_numShape hshape, numeralOf, decimalVal_eq_readDigits, ← hdigits, ← hscale]

/-- NUM, as the parser tests it (R203). -/
theorem isNumField_iff {t : List Byte} : IsNumField t ↔ ∃ n, parseNum t = some n := by
  constructor
  · rintro ⟨neg, whole, frac, h⟩
    exact ⟨_, parseNum_of_numShape h⟩
  · rintro ⟨n, h⟩
    obtain ⟨whole, frac, hshape, _⟩ := parseNum_some h
    exact ⟨n.neg, whole, frac, hshape⟩

/-! Fields. -/

/-- A comma ends an empty field. -/
theorem splitFields_comma (x : List Byte) : splitFields (chComma :: x) = [] :: splitFields x := if_pos rfl

theorem splitFields_ne_nil (x : List Byte) : splitFields x ≠ [] := by
  cases x with
  | nil => nofun
  | cons b x =>
    rw [splitFields]
    split
    · nofun
    · split <;> nofun

/-- Any other byte joins the first field of what follows. -/
theorem splitFields_byte {b : Byte} (hb : b ≠ chComma) (x : List Byte) :
    ∃ f fs, splitFields x = f :: fs ∧ splitFields (b :: x) = (b :: f) :: fs := by
  obtain ⟨f, fs, h⟩ := List.exists_cons_of_ne_nil (splitFields_ne_nil x)
  exact ⟨f, fs, h, by rw [splitFields, if_neg hb, h]⟩

/-- Splitting at commas is the library's splitting of lists (R98). -/
theorem splitFields_eq_splitOn (x : List Byte) : splitFields x = x.splitOn chComma := by
  induction x with
  | nil => rfl
  | cons b x ih =>
    rw [List.splitOn_cons_eq_if_modifyHead, ← ih]
    by_cases hb : b = chComma
    · rw [hb, splitFields_comma, if_pos (beq_self_eq_true _)]
    · obtain ⟨f, fs, hx, hbx⟩ := splitFields_byte hb x
      rw [if_neg (mt beq_iff_eq.1 hb), hx, hbx, List.modifyHead_cons]

/-- Joining by commas is the library's joining of lists (R98). -/
theorem joinFields_eq_intercalate (fs : List (List Byte)) : joinFields fs = [chComma].intercalate fs := by
  induction fs with
  | nil => rfl
  | cons f fs ih =>
    cases fs with
    | nil => rw [joinFields, List.intercalate_singleton]
    | cons g fs =>
      rw [List.intercalate_cons_cons, ← ih, List.append_assoc]
      rfl

/-- No field holds a comma. -/
theorem comma_notMem_of_mem_splitFields (x : List Byte) : ∀ f ∈ splitFields x, chComma ∉ f := by
  induction x with
  | nil => simp [splitFields]
  | cons b x ih =>
    by_cases hb : b = chComma
    · rw [hb, splitFields_comma]
      exact List.forall_mem_cons.2 ⟨List.not_mem_nil, ih⟩
    · obtain ⟨f, fs, hx, hbx⟩ := splitFields_byte hb x
      rw [hx] at ih
      obtain ⟨hf, hfs⟩ := List.forall_mem_cons.1 ih
      rw [hbx]
      exact List.forall_mem_cons.2 ⟨List.not_mem_cons_of_ne_of_not_mem (Ne.symm hb) hf, hfs⟩

/-- There is one field more than commas. -/
theorem splitFields_length (x : List Byte) : (splitFields x).length = x.count chComma + 1 := by
  induction x with
  | nil => rfl
  | cons b x ih =>
    by_cases hb : b = chComma
    · rw [hb, splitFields_comma, List.length_cons, ih, List.count_cons_self]
    · obtain ⟨f, fs, hx, hbx⟩ := splitFields_byte hb x
      rw [hbx, List.length_cons, List.count_cons_of_ne hb, ← ih, hx, List.length_cons]

theorem joinFields_splitFields (x : List Byte) : joinFields (splitFields x) = x := by
  rw [splitFields_eq_splitOn, joinFields_eq_intercalate, List.intercalate_splitOn]

/-- Settles O38: split and joined as the library does; commas and fields by induction on the string. -/
theorem fieldsAreTheStringsBetweenCommas : Obligations.FieldsAreTheStringsBetweenCommas := fun x =>
  ⟨joinFields_splitFields x, comma_notMem_of_mem_splitFields x, splitFields_length x⟩

/-- Fields without commas are the fields of what they make when joined (R98). -/
theorem splitFields_eq_iff {x : List Byte} {fs : List (List Byte)} (hne : fs ≠ []) :
    splitFields x = fs ↔ x = joinFields fs ∧ ∀ f ∈ fs, chComma ∉ f := by
  constructor
  · rintro rfl
    exact ⟨(joinFields_splitFields x).symm, comma_notMem_of_mem_splitFields x⟩
  · rintro ⟨rfl, hfs⟩
    rw [splitFields_eq_splitOn, joinFields_eq_intercalate, List.splitOn_intercalate _ hfs hne]

/-! The sentences X.PARSE accepts. -/

/-- The latitude's letter (R100, R204). -/
theorem hemiNS_eq_some_iff {f : List Byte} {south : Bool} :
    hemiNS f = some south ↔ (f = [chN] ∨ f = [chS]) ∧ south = decide (f = [chS]) := by
  have hNS : ([chN] : List Byte) ≠ [chS] := by decide
  rw [hemiNS]
  split
  · next h => simp [h, hNS, eq_comm]
  · split
    · next h => simp [h, eq_comm]
    · next hN hS => simp [hN, hS]

/-- The longitude's letter (R100, R204). -/
theorem hemiEW_eq_some_iff {f : List Byte} {west : Bool} :
    hemiEW f = some west ↔ (f = [chE] ∨ f = [chW]) ∧ west = decide (f = [chW]) := by
  have hEW : ([chE] : List Byte) ≠ [chW] := by decide
  rw [hemiEW]
  split
  · next h => simp [h, hEW, eq_comm]
  · split
    · next h => simp [h, eq_comm]
    · next hE hW => simp [hE, hW]

/-- N.DEC2F of a NUM (R233). -/
theorem dec2f_of_parseNum {t : List Byte} {n : Numeral} (h : parseNum t = some n) (f : Fmt) :
    dec2f f t = dec2fNumeral f n := by
  rw [dec2f, h]

/-- A numeric field that does not overflow (R203, R206). -/
theorem isNumField_and_dec2f_iff {f : Fmt} {t : List Byte} {x : Fp} :
    IsNumField t ∧ dec2f f t = some x ↔ ∃ n, parseNum t = some n ∧ dec2fNumeral f n = some x := by
  rw [isNumField_iff]
  constructor
  · rintro ⟨⟨n, hn⟩, hx⟩
    exact ⟨n, hn, dec2f_of_parseNum hn f ▸ hx⟩
  · rintro ⟨n, hn, hx⟩
    exact ⟨⟨n, hn⟩, dec2f_of_parseNum hn f ▸ hx⟩

/-- The tests of X.PARSE on the fields it looks at are the grammar's, and its values are those of R205 (R203 to R206). -/
theorem fixOfFields_eq_some_iff {f : Fmt} {lat ns lon ew alt : List Byte} {r : PositionFix} :
    fixOfFields f lat ns lon ew alt = some r ↔
      (ns = [chN] ∨ ns = [chS]) ∧ (ew = [chE] ∨ ew = [chW]) ∧ ∃ rlat rlon ralt,
        (IsNumField lat ∧ dec2f f lat = some rlat) ∧ (IsNumField lon ∧ dec2f f lon = some rlon) ∧
        (IsNumField alt ∧ dec2f f alt = some ralt) ∧
        r = { lat := coordinate f (decide (ns = [chS])) rlat, lon := coordinate f (decide (ew = [chW])) rlon,
              alt := ralt } := by
  simp only [isNumField_and_dec2f_iff]
  constructor
  · intro h
    unfold fixOfFields at h
    split at h
    · next nlat south nlon west nalt hlat hns hlon hew halt =>
      split at h
      · next rlat rlon ralt hrlat hrlon hralt =>
        cases h
        obtain ⟨hletterNS, rfl⟩ := hemiNS_eq_some_iff.1 hns
        obtain ⟨hletterEW, rfl⟩ := hemiEW_eq_some_iff.1 hew
        exact ⟨hletterNS, hletterEW, rlat, rlon, ralt, ⟨nlat, hlat, hrlat⟩, ⟨nlon, hlon, hrlon⟩, ⟨nalt, halt, hralt⟩, rfl⟩
      · cases h
    · cases h
  · rintro ⟨hletterNS, hletterEW, rlat, rlon, ralt, ⟨nlat, hlat, hrlat⟩, ⟨nlon, hlon, hrlon⟩, ⟨nalt, halt, hralt⟩, rfl⟩
    simp only [fixOfFields, hlat, hemiNS_eq_some_iff.2 ⟨hletterNS, rfl⟩, hlon, hemiEW_eq_some_iff.2 ⟨hletterEW, rfl⟩,
      halt, hrlat, hrlon, hralt]

/-- The sentences that have the fields X.PARSE looks at (R201, R202, R212). -/
theorem parseFix_eq_some_iff {f : Fmt} {x : List Byte} {r : PositionFix} :
    parseFix f x = some r ↔ ∃ time lat ns lon ew quality sats hdop alt rest,
      splitFields x = [Config.TAG, time, lat, ns, lon, ew, quality, sats, hdop, alt] ++ rest ∧
      fixOfFields f lat ns lon ew alt = some r := by
  constructor
  · intro h
    unfold parseFix at h
    split at h
    · next hx =>
      split at h
      · next htag =>
        rw [htag] at hx
        exact ⟨_, _, _, _, _, _, _, _, _, _, hx, h⟩
      · cases h
    · cases h
  · rintro ⟨time, lat, ns, lon, ew, quality, sats, hdop, alt, rest, hx, h⟩
    simp only [parseFix, hx, List.cons_append, List.nil_append, if_true, h]

/-- The grammar, by the fields of the sentence (R98, R111). -/
theorem ggaShape_iff {g : FixFields} {x : List Byte} : GgaShape g x ↔
    (∃ time quality sats hdop rest,
      splitFields x = [Config.TAG, time, g.lat, g.ns, g.lon, g.ew, quality, sats, hdop, g.alt] ++ rest) ∧
    (g.ns = [chN] ∨ g.ns = [chS]) ∧ (g.ew = [chE] ∨ g.ew = [chW]) := by
  constructor
  · rintro ⟨time, quality, sats, hdop, rest, hjoin, hcommas, hns, hew⟩
    exact ⟨⟨time, quality, sats, hdop, rest, (splitFields_eq_iff (by simp)).2 ⟨hjoin, hcommas⟩⟩, hns, hew⟩
  · rintro ⟨⟨time, quality, sats, hdop, rest, hx⟩, hns, hew⟩
    obtain ⟨hjoin, hcommas⟩ := (splitFields_eq_iff (by simp)).1 hx
    exact ⟨time, quality, sats, hdop, rest, hjoin, hcommas, hns, hew⟩

/-- A coordinate as R205 words it: negated where the letter is the one that negates. -/
theorem coordinate_decide (f : Fmt) (p : Prop) [Decidable p] (raw : Fp) :
    coordinate f (decide p) raw = if p then negate f (div100 f raw) else div100 f raw := by
  simp only [coordinate, decide_eq_true_iff]

/-- Settles O36: the parser's fields are those of the grammar, and each test on them is the grammar's. -/
theorem parserAcceptsExactlyTheGrammar : Obligations.ParserAcceptsExactlyTheGrammar := by
  intro f x r
  simp only [parseFix_eq_some_iff, fixOfFields_eq_some_iff, coordinate_decide]
  constructor
  · rintro ⟨time, lat, ns, lon, ew, quality, sats, hdop, alt, rest, hx, hns, hew, rlat, rlon, ralt, ⟨hlat, hrlat⟩,
      ⟨hlon, hrlon⟩, ⟨halt, hralt⟩, hr⟩
    exact ⟨⟨lat, ns, lon, ew, alt⟩, rlat, rlon, ralt, ggaShape_iff.2 ⟨⟨time, quality, sats, hdop, rest, hx⟩, hns, hew⟩,
      hlat, hlon, halt, hrlat, hrlon, hralt, hr⟩
  · rintro ⟨g, rlat, rlon, ralt, hshape, hlat, hlon, halt, hrlat, hrlon, hralt, hr⟩
    obtain ⟨⟨time, quality, sats, hdop, rest, hx⟩, hns, hew⟩ := ggaShape_iff.1 hshape
    exact ⟨time, g.lat, g.ns, g.lon, g.ew, quality, sats, hdop, g.alt, rest, hx, hns, hew, rlat, rlon, ralt,
      ⟨hlat, hrlat⟩, ⟨hlon, hrlon⟩, ⟨halt, hralt⟩, hr⟩

end Sys2Proof.Machine
end

section
/-! PROOFS. DRAIN: from a good state it empties the GNSS queue (30_encoding R121; 70_reset_and_hazards R323). -/
namespace Sys2Proof.Machine

/-! The synchroniser. -/

/-- After a full Q.SYNCR the consumer sees all that the producer wrote, and no index has moved (R142). -/
theorem qSyncR_full_views {s : State} {q : Link} (h : QueueInv s.cfg.syncMode (s.queue q)) :
    (qSyncR q .full s).headR q = (qSyncR q .full s).head q ∧ (qSyncR q .full s).head q = s.head q ∧
      (qSyncR q .full s).tail q = s.tail q := by
  cases hm : s.cfg.syncMode with
  | exact =>
    rw [(qSync_exact hm q .full).2]
    exact ⟨(h.views hm).2, rfl, rfl⟩
  | lagged =>
    simp only [qSyncR_lagged hm, State.headR, State.head, State.tail, setQueue_queue_same, moveBy, add_sub_cancel, and_self]

/-! The first operation of a run. -/

theorem execAll_cons {i : Instr} {s t : State} (h : exec i s = .next t) (is : List Instr) :
    execAll (i :: is) s = execAll is t := by
  simp only [execAll, h]

/-! C.STEP on a queue seen in full. -/

/-- The consumer of queue `q` sees all that the queue holds. -/
def SeenInFull (s : State) : Prop := s.headR s.cfg.gnssLink = s.head s.cfg.gnssLink

/-- In a good state whose GNSS queue is seen in full and holds a byte, C.STEP takes one, and the queue is still seen in
full (R166). -/
theorem cStep_takes_one {s : State} {n : Nat} (h : Inv s) (hseen : SeenInFull s)
    (hcount : count s s.cfg.gnssLink = n + 1) :
    ∃ t, cStep s = .next t ∧ Inv t ∧ SeenInFull t ∧ count t t.cfg.gnssLink = n ∧ t.cfg = s.cfg := by
  obtain ⟨t, ht, htail⟩ := cStep_completes h
  obtain ⟨hqueues, _⟩ := cStep_consumerFrame ht
  obtain ⟨hhead, _, hviews⟩ := hqueues s.cfg.gnssLink
  obtain ⟨hcfg, _, _⟩ := cStep_keepsModel ht
  have hgood := h.cStep ht
  have hone : 1 ≤ (s.head s.cfg.gnssLink - s.tail s.cfg.gnssLink).toNat := (Nat.le_add_left 1 n).trans_eq hcount.symm
  have hsome : s.headR s.cfg.gnssLink ≠ s.tail s.cfg.gnssLink := by
    intro e
    rw [← hseen, e, BitVec.sub_self] at hone
    exact absurd hone (by decide)
  refine ⟨t, ht, hgood, ?_, ?_, hcfg⟩
  · rw [SeenInFull, hcfg]
    cases hm : s.cfg.syncMode with
    | exact => exact ((hgood.queues s.cfg.gnssLink).views (hcfg ▸ hm)).2
    | lagged => rw [(hviews hm).2, hhead, hseen]
  · rw [hcfg, count, hhead, htail hsome, toNat_sub_succ hone]
    exact Nat.sub_eq_of_eq_add hcount

/-- In a good state whose GNSS queue holds nothing, C.STEP changes nothing (R166, R323). -/
theorem cStep_of_count_eq_zero {s : State} (h : Inv s) (hcount : count s s.cfg.gnssLink = 0) : cStep s = .next s := by
  rw [cStep, qRead_of_count_eq_zero (h.queues s.cfg.gnssLink) hcount]

/-- A queue that holds nothing has `head = tail` (R24). -/
theorem head_eq_tail_of_count_eq_zero {s : State} {q : Link} (h : count s q = 0) : s.head q = s.tail q :=
  sub_eq_zero.1 (BitVec.eq_of_toNat_eq h)

/-- As many C.STEPs as the queue holds bytes, and one more, empty it (R121, R323). -/
theorem execAll_stepByte_drains {n : Nat} {s : State} (h : Inv s) (hseen : SeenInFull s)
    (hcount : count s s.cfg.gnssLink = n) :
    ∃ t, execAll (List.replicate (n + 1) .stepByte) s = .next t ∧ Inv t ∧ SeenInFull t ∧
      count t t.cfg.gnssLink = 0 ∧ t.cfg = s.cfg := by
  induction n generalizing s with
  | zero => exact ⟨s, execAll_cons (i := .stepByte) (cStep_of_count_eq_zero h hcount) [], h, hseen, hcount, rfl⟩
  | succ n ih =>
    obtain ⟨u, hu, hgood, hseenU, hcountU, hcfg⟩ := cStep_takes_one h hseen hcount
    obtain ⟨t, ht, hgoodT, hseenT, hcountT, hcfgT⟩ := ih hgood hseenU hcountU
    exact ⟨t, (execAll_cons (i := .stepByte) hu _).trans ht, hgoodT, hseenT, hcountT, hcfgT.trans hcfg⟩

/-- Settles O60: Q.SYNCR shows the consumer every byte held, and DRAIN has a C.STEP for each. -/
theorem drainReachesQuiescence : Obligations.DrainReachesQuiescence := by
  intro s h
  have hgood := h.qSyncR s.cfg.gnssLink .full
  obtain ⟨hcfg, _, _⟩ := qSyncR_keepsModel s.cfg.gnssLink .full s
  obtain ⟨hview, hhead, htail⟩ := qSyncR_full_views (h.queues s.cfg.gnssLink)
  have hseen : SeenInFull (qSyncR s.cfg.gnssLink .full s) := by rw [SeenInFull, hcfg, hview]
  have hcount : count (qSyncR s.cfg.gnssLink .full s) (qSyncR s.cfg.gnssLink .full s).cfg.gnssLink =
      count s s.cfg.gnssLink := by
    rw [hcfg, count, hhead, htail, count]
  obtain ⟨t, ht, hgoodT, hseenT, hcountT, hcfgT⟩ := execAll_stepByte_drains hgood hseen hcount
  have hempty := head_eq_tail_of_count_eq_zero hcountT
  have hidle := cStep_of_count_eq_zero hgoodT hcountT
  rw [SeenInFull] at hseenT
  rw [hcfgT.trans hcfg] at hempty hseenT
  exact ⟨t, (execAll_cons rfl _).trans ht, hempty, hseenT.trans hempty, hidle⟩

end Sys2Proof.Machine
end

section
/-! PROOFS. A sentence without the tag in front is echoed (42_dispatcher R180, R181; 30_encoding R103, R105). -/
namespace Sys2Proof.Machine

/-- O.LINE appends the line and its newline to the output and to the transmit pins (R95, R184). -/
theorem emit_eq (x : List Byte) (s : State) : emit x s = { s with
    out := s.out ++ x ++ [0x0A#8], ports := { s.ports with tx := s.ports.tx ++ x ++ [0x0A#8] } } := by
  simp only [emit, lineBytes, List.append_assoc]

/-- D.HANDLE where the first six bytes are not the tag (R103, R180). -/
theorem dHandle_of_no_tag {x : List Byte} (h : x.take 6 ≠ Config.TAG) (s : State) : dHandle x s = emit x s := by
  have hroute : hasTag x = false := beq_false_of_ne h
  rw [dHandle, hroute]
  rfl

/-- Settles O32: both rows are the one operation D.HANDLE (log 5), which emits the ECHO line alone. -/
theorem otherSentencesAreOnlyEchoed : Obligations.OtherSentencesAreOnlyEchoed := by
  intro x s i hi htag
  have hecho := (dHandle_of_no_tag htag s).trans (emit_eq x s)
  rcases hi with rfl | rfl
  · exact congrArg Host.Outcome.next hecho
  · exact congrArg Host.Outcome.next hecho

end Sys2Proof.Machine
end

section
/-! PROOFS. `exact` mode is `lagged` mode with a full move of every view after each operation (40_bytequeue R143): each
operation commutes with seeing a `lagged` state as the `exact` state it stands for. -/
namespace Sys2Proof.Machine

/-! A `lagged` state seen in `exact` mode. -/

/-- The state in `exact` mode that a state stands for: every view at its index (R37, R38). -/
def exactOf (u : State) : State :=
  { u with cfg := { u.cfg with syncMode := .exact },
           queues := { at0 := settle .exact u.queues.at0, at1 := settle .exact u.queues.at1 } }

/-- What an operation ends in, seen in `exact` mode: the next state, or the same stop. -/
def exactOut : Out → Out
  | .next u => .next (exactOf u)
  | .fault f => .fault f
  | .refused r => .refused r

/-- Only an operation that goes on is seen to go on. -/
theorem exactOut_eq_next {o : Out} {t : State} (h : exactOut o = .next t) : ∃ u, o = .next u ∧ exactOf u = t := by
  cases o with
  | next u => exact ⟨u, rfl, Host.Outcome.next.inj h⟩
  | fault f => cases h
  | refused r => cases h

theorem exactOf_queue (u : State) (q : Link) : (exactOf u).queue q = settle .exact (u.queue q) := by cases q <;> rfl

theorem exactOf_setQueue (u : State) (q : Link) (v : Queue) :
    exactOf (u.setQueue q v) = (exactOf u).setQueue q (settle .exact v) := by cases q <;> rfl

/-- Putting a queue where it is changes nothing. -/
theorem setQueue_queue_self (s : State) (q : Link) : s.setQueue q (s.queue q) = s := by cases q <;> rfl

/-- Seen in `exact` mode a move of a view does not show (R143). -/
theorem exactOf_setQueue_of_settle_eq {u : State} {q : Link} {v : Queue}
    (h : settle .exact v = settle .exact (u.queue q)) : exactOf (u.setQueue q v) = exactOf u := by
  rw [exactOf_setQueue, h, ← exactOf_queue, setQueue_queue_self]

/-- The views of both queues equal the indices they follow. -/
def Settled (u : State) : Prop := ∀ q, u.tailW q = u.tail q ∧ u.headR q = u.head q

/-- Settling a queue with such views changes nothing. -/
theorem settle_eq_self {v : Queue} (htailW : v.prod.tailW = v.cons.tail) (hheadR : v.cons.headR = v.prod.head) :
    settle .exact v = v := by
  obtain ⟨⟨head, tailW⟩, ⟨tail, headR⟩, m⟩ := v
  cases htailW
  cases hheadR
  rfl

theorem Settled.settle_queue {u : State} (h : Settled u) (q : Link) : settle .exact (u.queue q) = u.queue q :=
  settle_eq_self (h q).1 (h q).2

/-- The same state on a machine in `lagged` mode. -/
def inLagged (s : State) : State := { s with cfg := { s.cfg with syncMode := .lagged } }

/-- A settled state in `exact` mode is the one its `lagged` copy stands for. -/
theorem Settled.exactOf_inLagged {s : State} (h : Settled s) (hmode : s.cfg.syncMode = .exact) :
    exactOf (inLagged s) = s := by
  have hcfg : (exactOf (inLagged s)).cfg = s.cfg := by
    show { s.cfg with syncMode := .exact } = s.cfg
    rw [← hmode]
  have hqueues : (exactOf (inLagged s)).queues = s.queues :=
    Pair.ext_get fun q => (exactOf_queue _ q).trans (h.settle_queue q)
  show { s with cfg := (exactOf (inLagged s)).cfg, queues := (exactOf (inLagged s)).queues } = s
  rw [hcfg, hqueues]

/-! The operations that do not touch the queues, from any state. -/

theorem xParse_exactOf (x : List Byte) (u : State) :
    xParse x (exactOf u) = ((xParse x u).1, exactOf (xParse x u).2) := by
  have hfmt : (exactOf u).cfg.fmt = u.cfg.fmt := rfl
  rw [xParse, xParse, hfmt]
  cases parseFix u.cfg.fmt x <;> rfl

theorem parseWord_exactOf (x : List Byte) (u : State) : parseWord x (exactOf u) = exactOf (parseWord x u) := by
  rw [parseWord_eq, parseWord_eq, xParse_exactOf]
  rfl

theorem dHandle_exactOf (x : List Byte) (u : State) : dHandle x (exactOf u) = exactOf (dHandle x u) := by
  have hemit : emit x (exactOf u) = exactOf (emit x u) := rfl
  simp only [dHandle, hemit, xParse_exactOf]
  cases hasTag x <;> rfl

theorem fTerm_exactOf (u : State) : fTerm (exactOf u) = exactOut (fTerm u) := by
  have hidle : idle (exactOf u) = idle u := rfl
  have hrun : memRun (exactOf u).acc 0 (exactOf u).cursor.toNat = memRun u.acc 0 u.cursor.toNat := rfl
  have hlog (x : List Byte) : logEvent (.sentence x) (exactOf u) = exactOf (logEvent (.sentence x) u) := rfl
  simp only [fTerm, hidle, hrun, hlog, dHandle_exactOf]
  cases idle u
  · cases memRun u.acc 0 u.cursor.toNat <;> rfl
  · rfl

theorem fFeed_exactOf (b : Byte) (u : State) : fFeed b (exactOf u) = exactOut (fFeed b u) := by
  have hfull : accFull (exactOf u) = accFull u := rfl
  rw [fFeed, fFeed, fTerm_exactOf, hfull]
  cases isTerm b
  · cases accFull u <;> rfl
  · rfl

theorem bootReset_exactOf (u : State) : bootReset (exactOf u) = exactOf (bootReset u) := by
  have hbanner : (exactOf u).cfg.banner = u.cfg.banner := rfl
  simp only [bootReset, qInit_cfg, hbanner]
  cases u.cfg.banner <;> rfl

/-! The queue operations, from a settled state in `lagged` mode. -/

section
variable {u : State} (hmode : u.cfg.syncMode = .lagged) (h : Settled u)
include hmode h

theorem qWrite_exactOf (q : Link) (b : Byte) :
    qWrite q b (exactOf u) = ((qWrite q b u).1, exactOf (qWrite q b u).2) := by
  simp only [qWrite, exactOf_queue, h.settle_queue]
  split
  · rw [exactOf_setQueue, hmode]
    rfl
  · rfl

theorem qRead_exactOf (q : Link) :
    qRead q (exactOf u) = (qRead q u).map fun w => (w.1, exactOf w.2) := by
  simp only [qRead, exactOf_queue, h.settle_queue]
  split
  · rfl
  · rw [hmode]
    simp only [Except.map, exactOf_setQueue]
    rfl
  · rfl

theorem writeWord_exactOf (q : Link) (b : Byte) : writeWord q b (exactOf u) = exactOf (writeWord q b u) := by
  rw [writeWord_eq, writeWord_eq, qWrite_exactOf hmode h]
  rfl

theorem pArrive_exactOf (q : Link) (b : Byte) : pArrive q b (exactOf u) = exactOf (pArrive q b u) := by
  rw [pArrive, pArrive, qWrite_exactOf hmode h]
  generalize qWrite q b u = w
  obtain ⟨ok, t⟩ := w
  cases ok <;> rfl

theorem readWord_exactOf (q : Link) : readWord q (exactOf u) = exactOut (readWord q u) := by
  rw [readWord, readWord, qRead_exactOf hmode h]
  cases qRead q u <;> rfl

theorem execPortHqread_exactOf : execPortHqread (exactOf u) = exactOut (execPortHqread u) := by
  have hlink : (exactOf u).cfg.hostLink = u.cfg.hostLink := rfl
  rw [execPortHqread, execPortHqread, hlink, qRead_exactOf hmode h]
  cases qRead u.cfg.hostLink u <;> rfl

theorem cStep_exactOf : cStep (exactOf u) = exactOut (cStep u) := by
  have hlink : (exactOf u).cfg.gnssLink = u.cfg.gnssLink := rfl
  rw [cStep, cStep, hlink, qRead_exactOf hmode h]
  rcases qRead u.cfg.gnssLink u with f | ⟨_ | b, t⟩
  · rfl
  · rfl
  · exact fFeed_exactOf b t

omit h in
theorem qSyncW_exactOf (q : Link) (mv : Move) : qSyncW q mv (exactOf u) = exactOf (qSyncW q mv u) := by
  rw [(qSync_exact rfl q mv).1, qSyncW_lagged hmode]
  refine (exactOf_setQueue_of_settle_eq ?_).symm
  rfl

omit h in
theorem qSyncR_exactOf (q : Link) (mv : Move) : qSyncR q mv (exactOf u) = exactOf (qSyncR q mv u) := by
  rw [(qSync_exact rfl q mv).2, qSyncR_lagged hmode]
  refine (exactOf_setQueue_of_settle_eq ?_).symm
  rfl

/-- Every operation commutes with seeing the state in `exact` mode. The rows of one operation share one case (log 5). -/
theorem exec_exactOf (i : Instr) : exec i (exactOf u) = exactOut (exec i u) := by
  cases i with
  | reset => exact congrArg Host.Outcome.next (bootReset_exactOf u)
  | init q => cases q <;> rfl
  | arriveOk q b | arriveFull q b | portArrive q b => exact congrArg Host.Outcome.next (pArrive_exactOf hmode h q b)
  | writeOk q b | writeFull q b => exact congrArg Host.Outcome.next (writeWord_exactOf hmode h q b)
  | readSome q | readNone q => exact readWord_exactOf hmode h q
  | portHqread => exact execPortHqread_exactOf hmode h
  | syncw q mv => exact congrArg Host.Outcome.next (qSyncW_exactOf hmode q mv)
  | syncr q mv => exact congrArg Host.Outcome.next (qSyncR_exactOf hmode q mv)
  | stepByte | stepEmpty => exact cStep_exactOf hmode h
  | feed b | feedData b | feedOvf b => exact fFeed_exactOf b u
  | feedTermCr => exact fFeed_exactOf chCR u
  | feedTermLf => exact fFeed_exactOf chLF u
  | handleFix x | handleEcho x => exact congrArg Host.Outcome.next (dHandle_exactOf x u)
  | parseOk x | parseErr x => exact congrArg Host.Outcome.next (parseWord_exactOf x u)
  | portIdle q d | portHqidle | oLine x | dec2f x | div100 x | neg x | fmt x n => rfl
  | reserved9 x | reservedA x | reservedB x | reservedC x | reservedD x | reservedE x | reservedF x => rfl

end

/-! Full moves of every view. -/

/-- A full move of both views of a queue settles it (R141, R142). -/
theorem qSyncR_qSyncW_full {u : State} (hmode : u.cfg.syncMode = .lagged) (q : Link) :
    qSyncR q .full (qSyncW q .full u) = u.setQueue q (settle .exact (u.queue q)) := by
  have hmodeW : (qSyncW q .full u).cfg.syncMode = .lagged := by
    obtain ⟨hcfg, _, _⟩ := qSyncW_keepsModel q .full u
    rw [hcfg, hmode]
  rw [qSyncR_lagged hmodeW, qSyncW_lagged hmode]
  simp only [State.head, State.headR, State.tail, State.tailW, setQueue_queue_same, moveBy, add_sub_cancel]
  cases q <;> rfl

/-- Full moves of all views lead to the state that, in `exact` mode, a `lagged` one stands for. -/
theorem execAll_full_moves {u : State} (hmode : u.cfg.syncMode = .lagged) :
    ∃ v, execAll [.syncw .link0 .full, .syncr .link0 .full, .syncw .link1 .full, .syncr .link1 .full] u = .next v ∧
      { v with cfg := (exactOf u).cfg } = exactOf u := by
  refine ⟨_, rfl, ?_⟩
  rw [qSyncR_qSyncW_full hmode, qSyncR_qSyncW_full (u := u.setQueue _ _) hmode]
  rfl

/-- Settles O21: an operation in `exact` mode ends in the state that its end in `lagged` mode stands for, and the full
moves lead there. -/
theorem exactIsLaggedWithFullMoves : Obligations.ExactIsLaggedWithFullMoves := by
  intro i s t hmode hviews h
  have hs : exactOf (inLagged s) = s := Settled.exactOf_inLagged hviews hmode
  have hexec : exactOut (exec i (inLagged s)) = .next t := by
    rw [← exec_exactOf (u := inLagged s) rfl hviews, hs, h]
  obtain ⟨hcfg, _, _⟩ := exec_keepsModel h
  obtain ⟨u, hu, rfl⟩ := exactOut_eq_next hexec
  obtain ⟨hcfgU, _, _⟩ := exec_keepsModel hu
  obtain ⟨v, hv, hsettled⟩ := execAll_full_moves (u := u) (by rw [hcfgU]; rfl)
  exact ⟨u, v, hu, hv, by rw [← hcfg, hsettled]⟩

end Sys2Proof.Machine
end

section
/-! PROOFS. What each queue operation does, case by case, and its frame (40_bytequeue R131 to R143), and that nothing
drains the host-link queue (R147). -/
namespace Sys2Proof.Machine

/-! The derived conditions by the count (R24). -/

theorem empty_eq_false_of_count_pos {s : State} {q : Link} (h : 0 < count s q) : empty s q = false := by
  refine beq_false_of_ne fun e => ?_
  rw [count, e, BitVec.sub_self] at h
  exact absurd h (by decide)

/-- A queue is full exactly when it holds `C - 1` bytes. -/
theorem succ_head_eq_tail_iff {s : State} {q : Link} : s.head q + 1#8 = s.tail q ↔ count s q = 255 := by
  rw [count]
  bv_omega

theorem full_eq_false_of_count_lt {s : State} {q : Link} (h : count s q < 255) : full s q = false :=
  beq_false_of_ne fun e => h.ne (succ_head_eq_tail_iff.1 e)

/-! The rest of the state. -/

/-- Replacing a queue's record touches nothing else. -/
theorem setQueue_frame (s : State) (q : Link) (v : Queue) :
    KeepsQueue q.other s (s.setQueue q v) ∧ KeepsFramer s (s.setQueue q v) ∧ KeepsFix s (s.setQueue q v) ∧
      KeepsLogs s (s.setQueue q v) ∧ KeepsModel s (s.setQueue q v) ∧ (s.setQueue q v).results = s.results ∧
      (s.setQueue q v).ports = s.ports :=
  ⟨keepsQueue_of_queue_eq (setQueue_queue_other s (other_ne q) v), ⟨rfl, fun _ => rfl⟩, ⟨rfl, rfl⟩, ⟨rfl, rfl⟩,
    setQueue_keepsModel .., rfl, rfl⟩

/-! Q.INIT. -/

/-- Q.INIT of a queue just initialised changes nothing (R131). -/
theorem qInit_idem (q : Link) (s : State) : qInit q (qInit q s) = qInit q s := by cases q <;> rfl

/-- Settles O9: the queue's record after Q.INIT is `qInit_queue_same`, and no other part of the state is touched. -/
theorem initEmptiesOneQueue : Obligations.InitEmptiesOneQueue := by
  intro q s
  have hqueue := qInit_queue_same q s
  have hhead : (qInit q s).head q = 0#8 := by rw [State.head, hqueue]
  have htail : (qInit q s).tail q = 0#8 := by rw [State.tail, hqueue]
  refine ⟨qInit q s, rfl, congrArg Host.Outcome.next (qInit_idem q s), hhead, htail, ?_, ?_, fun a => ?_, ?_, ?_, ?_,
    setQueue_frame ..⟩
  · rw [State.tailW, hqueue]
  · rw [State.headR, hqueue]
  · rw [State.qst, hqueue]
  · rw [empty, hhead, htail]; rfl
  · rw [full, hhead, htail]; rfl
  · rw [count, hhead, htail]; rfl

/-! Q.WRITE and P.ARRIVE. -/

/-- Byte `b` was stored in queue `q`: in the cell at `head`, which advances; in `exact` mode the views follow; the logs,
the parameters, the script and the turn are left, and what a producer's operation leaves (R133, R143). -/
def StoresByte (q : Link) (b : Byte) (s t : State) : Prop :=
  memRead (t.qst q) (s.head q).toNat = some b ∧ t.head q = s.head q + 1#8 ∧
    (s.cfg.syncMode = .exact → t.tailW q = s.tail q ∧ t.headR q = s.head q + 1#8) ∧
    ProducerFrame q s t ∧ KeepsLogs s t ∧ KeepsModel s t

/-- Where the producer sees room, Q.WRITE stores its byte and touches neither the results nor the pins (R133). -/
theorem qWrite_of_room {q : Link} {s : State} (hroom : s.head q + 1#8 ≠ s.tailW q) (b : Byte) :
    ∃ t, qWrite q b s = (true, t) ∧ StoresByte q b s t ∧ t.results = s.results ∧ t.ports = s.ports := by
  have hframe := qWrite_producerFrame q b s
  rcases qWrite_cases q b s with ⟨hfull, _⟩ | ⟨_, e⟩
  · exact absurd hfull hroom
  · rw [e] at hframe
    refine ⟨_, e, ⟨?_, ?_, fun hm => ?_, hframe, ⟨rfl, rfl⟩, setQueue_keepsModel ..⟩, rfl, rfl⟩
    · simp only [State.qst, setQueue_queue_same, settle_qst, memRead_memWrite_same]
    · simp only [State.head, setQueue_queue_same, settle_head]
    · simp only [State.tailW, State.headR, State.tail, setQueue_queue_same, hm, settle_exact, and_self]

/-- Where the producer sees none, Q.WRITE changes nothing (R133). -/
theorem qWrite_of_no_room {q : Link} {s : State} (hfull : s.head q + 1#8 = s.tailW q) (b : Byte) :
    qWrite q b s = (false, s) := by
  rcases qWrite_cases q b s with ⟨_, e⟩ | ⟨hroom, _⟩
  · exact e
  · exact absurd hfull hroom

/-- A stored byte is one more of a good queue. -/
theorem StoresByte.count_eq {q : Link} {b : Byte} {s t : State} (h : StoresByte q b s t)
    (hgood : QueueInv s.cfg.syncMode (s.queue q)) (hroom : s.head q + 1#8 ≠ s.tailW q) :
    count t q = count s q + 1 := by
  obtain ⟨_, hhead, _, ⟨_, htail, _⟩, _⟩ := h
  rw [count, hhead, htail]
  exact toNat_succ_sub (hgood.count_le_head_sub_tailW.trans_lt (toNat_sub_lt_of_succ_ne hroom))

theorem exec_write_eq {q : Link} {b : Byte} {i : Instr} (hi : i = .writeOk q b ∨ i = .writeFull q b) (s : State) :
    exec i s = .next (record (.wrote (qWrite q b s).1) (qWrite q b s).2) := by
  rcases hi with rfl | rfl <;> rfl

theorem exec_arrive_eq {q : Link} {b : Byte} {i : Instr}
    (hi : i = .arriveOk q b ∨ i = .arriveFull q b ∨ i = .portArrive q b) (s : State) :
    exec i s = .next (pArrive q b s) := by
  rcases hi with rfl | rfl | rfl <;> rfl

/-- Settles O10: both rows are the one operation Q.WRITE with its result recorded (log 5). -/
theorem writeStoresAndAdvancesOrRefuses : Obligations.WriteStoresAndAdvancesOrRefuses := by
  intro q b s i hi
  rw [exec_write_eq hi]
  refine ⟨fun hfull => ?_, fun hroom => ?_⟩
  · rw [qWrite_of_no_room hfull]
    rfl
  · obtain ⟨t, e, hstores, hresults, hports⟩ := qWrite_of_room hroom b
    have hcount := fun hgood => hstores.count_eq hgood hroom
    obtain ⟨hcell, hhead, hexact, ⟨hother, htail, hcells, hlagged, hframer, hfix⟩, hlogs, hmodel⟩ := hstores
    rw [e]
    exact ⟨_, rfl, hcell, hcells, hhead, htail, hlagged, hexact, by rw [record_results, hresults],
      fun hgood => ⟨hcount hgood, empty_eq_false_of_count_pos (s := t) (by rw [hcount hgood]; omega)⟩,
      hother, hframer, hfix, hlogs, hmodel, hports⟩

/-- Settles O14: P.ARRIVE is Q.WRITE, and `wr_ok` on the pins. -/
theorem arriveStoresTheByte : Obligations.ArriveStoresTheByte := by
  intro q b s i hi hroom
  obtain ⟨t, e, hstores, hresults, hports⟩ := qWrite_of_room hroom b
  obtain ⟨hcell, hhead, hexact, ⟨hother, htail, hcells, hlagged, hframer, hfix⟩, hlogs, hmodel⟩ := hstores
  rw [exec_arrive_eq hi, pArrive, e]
  exact ⟨_, rfl, hcell, hcells, hhead, htail, hlagged, hexact, by rw [driveArrive_ports, hports]; rfl,
    hother, hframer, hfix, hlogs, hmodel, hresults⟩

/-- Settles O15: a refused Q.WRITE changes nothing, and QueueFull logs its event and emits the link's line. -/
theorem arriveAtAFullQueueRaisesQueueFull : Obligations.ArriveAtAFullQueueRaisesQueueFull := by
  intro q b s i hi hfull
  have harrive : pArrive q b s = emit (qfullText q) (logEvent (.queueFull q b) (driveArrive q false s)) := by
    rw [pArrive, qWrite_of_no_room hfull]
    exact raise_queueFull ..
  rw [exec_arrive_eq hi, harrive]
  refine ⟨_, lineBytes (qfullText q), rfl, ?_, ?_, rfl, rfl, rfl, fun r => keepsQueue_of_queue_eq rfl,
    ⟨rfl, fun _ => rfl⟩, ⟨rfl, rfl⟩, ⟨rfl, rfl, rfl⟩, rfl⟩
  · rintro rfl
    rfl
  · rintro rfl
    rfl

/-- Settles O18: in `exact` mode the producer sees `tail` itself, so it sees no room exactly when the queue is full. -/
theorem exactWriteFailsExactlyWhenFull : Obligations.ExactWriteFailsExactlyWhenFull := by
  intro q b s i hi _ hgood
  obtain ⟨hview, _⟩ := hgood.views rfl
  rw [exec_write_eq hi]
  rcases qWrite_cases q b s with ⟨hfull, e⟩ | ⟨hroom, e⟩ <;> rw [e]
  · exact ⟨_, false, rfl, rfl, iff_of_true rfl (succ_head_eq_tail_iff.1 (hfull.trans hview))⟩
  · exact ⟨_, true, rfl, rfl, iff_of_false nofun fun hc => hroom ((succ_head_eq_tail_iff.2 hc).trans hview.symm)⟩

/-! Q.READ. -/

/-- A byte was taken from queue `q`: `tail` advances and no cell is cleared; in `exact` mode the views follow; the rest
of the state is left, but for the results and the pins (R136, R143). -/
def TakesByte (q : Link) (s t : State) : Prop :=
  t.tail q = s.tail q + 1#8 ∧ t.head q = s.head q ∧
    (s.cfg.syncMode = .lagged → t.tailW q = s.tailW q ∧ t.headR q = s.headR q) ∧
    (s.cfg.syncMode = .exact → t.tailW q = s.tail q + 1#8 ∧ t.headR q = s.head q) ∧
    (∀ a, memRead (t.qst q) a = memRead (s.qst q) a) ∧
    KeepsQueue q.other s t ∧ KeepsFramer s t ∧ KeepsFix s t ∧ KeepsLogs s t ∧ KeepsModel s t

/-- Where the consumer sees a byte, Q.READ takes the one at `tail` and touches neither the results nor the pins (R136). -/
theorem qRead_of_seen {q : Link} {s : State} {v : Byte} (hsome : s.headR q ≠ s.tail q)
    (hv : memRead (s.qst q) (s.tail q).toNat = some v) :
    ∃ t, qRead q s = .ok (some v, t) ∧ TakesByte q s t ∧ t.results = s.results ∧ t.ports = s.ports := by
  rcases qRead_cases q s with ⟨hnone, _⟩ | ⟨_, b, hb, e⟩ | ⟨_, hnone, _⟩
  · exact absurd hnone hsome
  · cases hb.symm.trans hv
    obtain ⟨hother, hframer, hfix, hlogs, hmodel, hrest⟩ := setQueue_frame s q (settle s.cfg.syncMode
      { prod := (s.queue q).prod, cons := { tail := s.tail q + 1#8, headR := s.headR q }, qst := s.qst q })
    refine ⟨_, e, ⟨?_, ?_, fun hm => ?_, fun hm => ?_, fun a => ?_, hother, hframer, hfix, hlogs, hmodel⟩, hrest⟩
    · simp only [State.tail, setQueue_queue_same, settle_tail]
    · simp only [State.head, setQueue_queue_same, settle_head]
    · simp only [State.tailW, State.headR, setQueue_queue_same, hm, settle_lagged, and_self]
    · simp only [State.tailW, State.headR, State.tail, State.head, setQueue_queue_same, hm, settle_exact, and_self]
    · simp only [State.qst, setQueue_queue_same, settle_qst]
  · exact absurd (hnone.symm.trans hv) nofun

/-- Where the consumer sees none, Q.READ changes nothing (R136). -/
theorem qRead_of_unseen {q : Link} {s : State} (hnone : s.headR q = s.tail q) : qRead q s = .ok (none, s) := by
  rcases qRead_cases q s with ⟨_, e⟩ | ⟨hsome, _⟩ | ⟨hsome, _⟩
  · exact e
  · exact absurd hnone hsome
  · exact absurd hnone hsome

/-- A byte taken is one less of a good queue. -/
theorem TakesByte.count_eq {q : Link} {s t : State} (h : TakesByte q s t)
    (hgood : QueueInv s.cfg.syncMode (s.queue q)) (hsome : s.headR q ≠ s.tail q) :
    count s q = count t q + 1 := by
  obtain ⟨htail, hhead, _⟩ := h
  have hone : 1 ≤ (s.head q - s.tail q).toNat := hgood.one_le_count hsome
  rw [count, count, hhead, htail, toNat_sub_succ hone, Nat.sub_add_cancel hone]

/-- Settles O11: both rows are the one operation Q.READ with its result recorded (log 5). -/
theorem readTakesTheOldestByteOrNone : Obligations.ReadTakesTheOldestByteOrNone := by
  intro q s i hi
  have hexec : exec i s = readWord q s := by rcases hi with rfl | rfl <;> rfl
  rw [hexec, readWord]
  refine ⟨fun hnone => ?_, fun v hsome hv => ?_⟩
  · rw [qRead_of_unseen hnone]
    rfl
  · obtain ⟨t, e, htakes, hresults, hports⟩ := qRead_of_seen hsome hv
    have hcount := fun hgood => htakes.count_eq hgood hsome
    obtain ⟨htail, hhead, hlagged, hexact, hcells, hother, hframer, hfix, hlogs, hmodel⟩ := htakes
    have hbound : count s q < 256 := (s.head q - s.tail q).isLt
    rw [e]
    exact ⟨_, rfl, htail, hhead, hlagged, hexact, hcells, by rw [record_results, hresults],
      fun hgood => ⟨hcount hgood, full_eq_false_of_count_lt (s := t) (by have := hcount hgood; omega)⟩,
      hother, hframer, hfix, hlogs, hmodel, hports⟩

/-! Q.SYNCW and Q.SYNCR. -/

/-- A legal partial move is made as chosen (R141, R142). -/
theorem moveBy_upTo {k d : Index} (h : k.toNat ≤ d.toNat) : moveBy (.upTo k) d = k := if_pos h

/-- Settles O16: the view moves by `moveBy`, and only the queue's record is replaced. -/
theorem syncwMovesOnlyTheProducersView : Obligations.SyncwMovesOnlyTheProducersView := by
  intro q mv s
  refine ⟨fun hm => congrArg Host.Outcome.next (qSync_exact hm q mv).1, fun hm => ⟨qSyncW q mv s, rfl, ?_⟩⟩
  rw [qSyncW_lagged hm]
  simp only [State.head, State.tail, State.tailW, State.headR, State.qst, setQueue_queue_same, implies_true, true_and]
  refine ⟨?_, ?_, setQueue_frame ..⟩
  · rintro k rfl hk
    rw [moveBy_upTo hk]
  · rintro rfl
    exact add_sub_cancel ..

/-- Settles O17: the view moves by `moveBy`, and only the queue's record is replaced. -/
theorem syncrMovesOnlyTheConsumersView : Obligations.SyncrMovesOnlyTheConsumersView := by
  intro q mv s
  refine ⟨fun hm => congrArg Host.Outcome.next (qSync_exact hm q mv).2, fun hm => ⟨qSyncR q mv s, rfl, ?_⟩⟩
  rw [qSyncR_lagged hm]
  simp only [State.head, State.tail, State.tailW, State.headR, State.qst, setQueue_queue_same, implies_true, true_and]
  refine ⟨?_, ?_, setQueue_frame ..⟩
  · rintro k rfl hk
    rw [moveBy_upTo hk]
  · rintro rfl
    exact add_sub_cancel ..

/-! The host-link queue. -/

theorem KeepsQueue.tail_eq {q : Link} {s t : State} (h : KeepsQueue q s t) : t.tail q = s.tail q := by
  obtain ⟨_, htail, _⟩ := h
  exact htail

/-- A producer's operation moves no `tail`. -/
theorem ProducerFrame.tail_eq {q : Link} {s t : State} (h : ProducerFrame q s t) (r : Link) : t.tail r = s.tail r := by
  obtain ⟨hother, htail, _⟩ := h
  by_cases hr : r = q
  · rw [hr, htail]
  · rw [Link.eq_of_ne_of_ne hr (other_ne q), hother.tail_eq]

/-- Replacing a queue's record by one with the same `tail` moves no `tail`. -/
theorem setQueue_tail_of_eq {s : State} {q : Link} {v : Queue} (h : v.cons.tail = s.tail q) (r : Link) :
    (s.setQueue q v).tail r = s.tail r := by
  by_cases hr : r = q
  · rw [hr, State.tail, setQueue_queue_same, h]
  · rw [State.tail, setQueue_queue_other s hr, State.tail]

theorem qSyncW_tail (q : Link) (mv : Move) (s : State) (r : Link) : (qSyncW q mv s).tail r = s.tail r := by
  cases hm : s.cfg.syncMode with
  | exact => rw [(qSync_exact hm q mv).1]
  | lagged =>
    rw [qSyncW_lagged hm]
    refine setQueue_tail_of_eq ?_ r
    rfl

theorem qSyncR_tail (q : Link) (mv : Move) (s : State) (r : Link) : (qSyncR q mv s).tail r = s.tail r := by
  cases hm : s.cfg.syncMode with
  | exact => rw [(qSync_exact hm q mv).2]
  | lagged =>
    rw [qSyncR_lagged hm]
    refine setQueue_tail_of_eq ?_ r
    rfl

/-- The consumer moves no `tail` of the host-link queue (R147). -/
theorem ConsumerFrame.tail_hostLink {s t : State} (h : ConsumerFrame s t) :
    t.tail s.cfg.hostLink = s.tail s.cfg.hostLink := by
  obtain ⟨_, hhost⟩ := h
  exact hhost.tail_eq

/-- A queue that is not the host-link queue is the GNSS queue (R10). -/
theorem eq_gnssLink_of_ne_hostLink {p : Params} {q : Link} (h : q ≠ p.hostLink) : q = p.gnssLink :=
  Link.eq_of_ne_of_ne h (other_ne p.gnssLink).symm

/-- The host-link queue's `tail` is as before. -/
def KeepsHostTail (s t : State) : Prop := t.tail s.cfg.hostLink = s.tail s.cfg.hostLink

/-- Settles O53: a producer moves no `tail`, the consumer that of the GNSS queue alone, a synchroniser a view alone. -/
theorem nothingDrainsTheHostQueue : Obligations.NothingDrainsTheHostQueue := by
  rintro i s t _ rfl hexec hreset hinit hreadSome hreadNone hport
  show KeepsHostTail s t
  cases i with
  | reset => exact absurd rfl hreset
  | portHqread => exact absurd rfl hport
  | init q =>
    have hq : s.cfg.hostLink ≠ q := fun e => hinit (congrArg Instr.init e.symm)
    exact next_elim hexec (keepsQueue_of_queue_eq (qInit_queue_other hq s)).tail_eq
  | arriveOk q b | arriveFull q b | portArrive q b | writeOk q b | writeFull q b =>
    exact (exec_producerFrame rfl hexec).tail_eq _
  | readSome q =>
    have hq : q = s.cfg.gnssLink := eq_gnssLink_of_ne_hostLink fun e => hreadSome (congrArg Instr.readSome e)
    exact (readWord_consumerFrame (hq ▸ hexec)).tail_hostLink
  | readNone q =>
    have hq : q = s.cfg.gnssLink := eq_gnssLink_of_ne_hostLink fun e => hreadNone (congrArg Instr.readNone e)
    exact (readWord_consumerFrame (hq ▸ hexec)).tail_hostLink
  | syncw q mv => exact next_elim hexec (qSyncW_tail q mv s _)
  | syncr q mv => exact next_elim hexec (qSyncR_tail q mv s _)
  | portIdle q d | portHqidle | oLine x => exact next_elim hexec rfl
  | stepByte | stepEmpty | feed b | feedData b | feedOvf b | feedTermCr | feedTermLf | handleFix x | handleEcho x
  | parseOk x | parseErr x | dec2f x | div100 x | neg x | fmt x n => exact (exec_consumerFrame rfl hexec).tail_hostLink
  | reserved9 x | reservedA x | reservedB x | reservedC x | reservedD x | reservedE x | reservedF x => cases hexec

end Sys2Proof.Machine
end

section
/-! PROOFS. The framer and the consumer step: F.FEED case by case, the bytes of one line, the run law and the residue law,
and the sentences an operation may log (41_framer R160 to R170). -/
namespace Sys2Proof.Machine

/-! F.FEED, one lemma per case beside `fFeed_of_data`. -/

theorem isTerm_eq_true_iff {b : Byte} : isTerm b = true ↔ b = 0x0D#8 ∨ b = 0x0A#8 := by
  simp [isTerm, chCR, chLF]

/-- F.FEED of a terminator with nothing accumulated (R161). -/
theorem fFeed_of_term_idle {b : Byte} {s : State} (hb : isTerm b = true) (hidle : s.cursor = 0#8) :
    fFeed b s = .next s := by
  simp only [fFeed, hb, fTerm, idle, hidle, beq_self_eq_true, if_true]

/-- F.FEED of a terminator that ends the sentence `x` (R161). -/
theorem fFeed_of_term {b : Byte} {s : State} {x : List Byte} (hb : isTerm b = true) (hcursor : s.cursor ≠ 0#8)
    (hx : memRun s.acc 0 s.cursor.toNat = some x) :
    fFeed b s = .next { dHandle x (logEvent (.sentence x) s) with cursor := 0#8 } := by
  have hbusy : idle s = false := beq_false_of_ne hcursor
  simp only [fFeed, hb, fTerm, hbusy, hx, if_true, Bool.false_eq_true, if_false]

/-- F.FEED of a DATA byte without room: SentenceOverflow (R163, R263). -/
theorem fFeed_of_full {b : Byte} {s : State} (hb : isTerm b = false) (hfull : s.cursor.toNat = Config.L - 1) :
    fFeed b s =
      .next (emit ovfText (driveErr 2#2 { logEvent (.sentenceOverflow b) s with cursor := 0#8 })) := by
  have hroom : accFull s = true := by simp only [accFull, hfull, lt_irrefl, decide_false, Bool.not_false]
  simp only [fFeed, hb, hroom, Bool.false_eq_true, if_false, if_true, fOvf, raise_sentenceOverflow]

/-- The rows of a DATA byte are the one operation F.FEED (log 5). -/
theorem exec_feed_eq {b : Byte} {i : Instr} (hi : i = .feedData b ∨ i = .feedOvf b ∨ i = .feed b) (s : State) :
    exec i s = fFeed b s := by
  rcases hi with rfl | rfl | rfl <;> rfl

/-- The rows of a terminator are F.FEED of it (R161). -/
theorem exec_term_eq {i : Instr} (hi : i = .feedTermCr ∨ i = .feedTermLf ∨ i = .feed 0x0D#8 ∨ i = .feed 0x0A#8)
    (s : State) : ∃ b, isTerm b = true ∧ exec i s = fFeed b s := by
  rcases hi with rfl | rfl | rfl | rfl
  · exact ⟨chCR, rfl, rfl⟩
  · exact ⟨chLF, rfl, rfl⟩
  · exact ⟨0x0D#8, rfl, rfl⟩
  · exact ⟨0x0A#8, rfl, rfl⟩

/-- Settles O22: whichever of its rows the routing test names, D.HANDLE is one operation (R103). -/
theorem terminatorEmitsTheSentenceOrIsIgnored : Obligations.TerminatorEmitsTheSentenceOrIsIgnored := by
  intro s i hi
  obtain ⟨b, hb, hexec⟩ := exec_term_eq hi s
  rw [hexec]
  refine ⟨fFeed_of_term_idle hb, fun x hcursor hx =>
    ⟨dHandle x (logEvent (.sentence x) s), ?_, fFeed_of_term hb hcursor hx⟩⟩
  split <;> rfl

/-- Settles O23: the row is F.FEED.DATA, which writes the one cell. -/
theorem dataByteIsStored : Obligations.DataByteIsStored := by
  intro s b i hi hCr hLf hroom
  rw [exec_feed_eq hi, fFeed_of_data (isTerm_eq_false_iff.2 ⟨hCr, hLf⟩) hroom]
  exact ⟨fData b s, rfl, memRead_memWrite_same .., fun a ha => memRead_memWrite_other _ ha b, fData_cursor_toNat hroom b,
    fun q => keepsQueue_of_queue_eq rfl, ⟨rfl, rfl⟩, ⟨rfl, rfl⟩, ⟨rfl, rfl, rfl⟩, rfl, rfl⟩

/-- Settles O24: the row is F.FEED.OVF, which writes no cell. -/
theorem fullAccumulatorOverflows : Obligations.FullAccumulatorOverflows := by
  intro s b i hi hCr hLf hfull
  rw [exec_feed_eq hi, fFeed_of_full (isTerm_eq_false_iff.2 ⟨hCr, hLf⟩) hfull]
  exact ⟨_, lineBytes ovfText, rfl, rfl, rfl, fun _ => rfl, rfl, rfl, rfl, fun q => keepsQueue_of_queue_eq rfl,
    ⟨rfl, rfl⟩, ⟨rfl, rfl, rfl⟩, rfl⟩

/-- Settles O30: C.STEP feeds the byte Q.READ returns, in the state Q.READ leaves; READ records it besides (log 6). -/
theorem stepFeedsOneByteOrNothing : Obligations.StepFeedsOneByteOrNothing := by
  rintro s i _ hi rfl
  have hexec : exec i s = cStep s := by rcases hi with rfl | rfl <;> rfl
  rw [hexec, cStep]
  refine ⟨fun hnone => ?_, fun b hsome hb => ?_⟩
  · rw [qRead_of_unseen hnone]
  · obtain ⟨t, hread, _, hresults, _⟩ := qRead_of_seen hsome hb
    have hword : exec (.readSome s.cfg.gnssLink) s = .next (record (.read (some b)) t) := by
      show readWord s.cfg.gnssLink s = _
      rw [readWord, hread]
    refine ⟨_, hword, ?_⟩
    rw [hread, ← hresults]
    rfl

/-! Runs of bytes. -/

/-- The operations of a run after those that went before. -/
theorem execAll_append {is : List Instr} {s t : State} (h : execAll is s = .next t) (js : List Instr) :
    execAll (is ++ js) s = execAll js t := by
  induction is generalizing s with
  | nil => cases h; rfl
  | cons i is ih =>
    cases hi : exec i s with
    | next u =>
      rw [execAll_cons hi] at h
      rw [List.cons_append, execAll_cons hi, ih h]
    | fault f => rw [execAll, hi] at h; cases h
    | refused r => rw [execAll, hi] at h; cases h

theorem feedOps_append (bs cs : List Byte) : feedOps (bs ++ cs) = feedOps bs ++ feedOps cs := List.map_append

theorem execAll_feedOps_cons {b : Byte} {s t : State} (h : fFeed b s = .next t) (bs : List Byte) :
    execAll (feedOps (b :: bs)) s = execAll (feedOps bs) t :=
  execAll_cons (i := .feed b) h (feedOps bs)

/-- Terminators with nothing accumulated, however many, are ignored (R161). -/
theorem execAll_feedOps_terms {bs : List Byte} (hbs : ∀ b ∈ bs, isTerm b = true) {s : State} (hidle : s.cursor = 0#8) :
    execAll (feedOps bs) s = .next s := by
  induction bs with
  | nil => rfl
  | cons b bs ih =>
    rw [execAll_feedOps_cons (fFeed_of_term_idle (hbs b List.mem_cons_self) hidle)]
    exact ih fun c hc => hbs c (List.mem_cons_of_mem b hc)

/-- A line of 1 to `L - 1` DATA bytes fed to an idle framer: the terminator finds just these bytes accumulated, and
nothing was logged before it (R26, R161, R162). -/
theorem execAll_feedOps_line {x : List Byte} {c : Byte} {s : State} (hidle : s.cursor = 0#8)
    (hdata : ∀ b ∈ x, isTerm b = false) (hne : x ≠ []) (hfit : x.length ≤ Config.L - 1) (hc : isTerm c = true) :
    ∃ u, execAll (feedOps (x ++ [c])) s = .next { dHandle x (logEvent (.sentence x) u) with cursor := 0#8 } ∧
      KeepsLogs s u := by
  have hcursor : s.cursor.toNat = 0 := by rw [hidle]; rfl
  obtain ⟨u, hu, hcount, hacc, hlogs⟩ :=
    execAll_feedOps hdata (x := []) (by rw [hcursor]; rfl) (by rwa [hcursor, Nat.zero_add])
  have hbusy : u.cursor ≠ 0#8 := by
    intro e
    have hpos := List.length_pos_iff.2 hne
    rw [e, hcursor, Nat.zero_add] at hcount
    exact hpos.ne hcount
  refine ⟨u, ?_, hlogs⟩
  rw [feedOps_append, execAll_append hu, execAll_feedOps_cons (fFeed_of_term hc hbusy hacc)]
  rfl

/-- Settles O25: `ABC` has no tag in front, so D.HANDLE echoes it; the terminator after it finds nothing accumulated. -/
theorem abcIsOneSentenceAndBlankLinesAreNone : Obligations.AbcIsOneSentenceAndBlankLinesAreNone := by
  intro s hidle
  obtain ⟨u, hu, hout, hev⟩ := execAll_feedOps_line (x := [0x41#8, 0x42#8, 0x43#8]) (c := chCR) hidle (by decide)
    (by decide) (by decide) rfl
  rw [dHandle_of_no_tag (by decide)] at hu
  have hrun := (execAll_append hu (feedOps [chLF])).trans (execAll_feedOps_terms (by decide) rfl)
  exact ⟨⟨_, hrun, congrArg (· ++ _) hev, congrArg (· ++ _) hout, rfl⟩, execAll_feedOps_terms (by decide) hidle⟩

/-! The run law. -/

/-- One DATA byte counts one further, modulo `L`, and overflows exactly where the count wraps (R162, R163, R165). -/
theorem fFeed_data_counts {b : Byte} (hb : isTerm b = false) (s : State) : ∃ t evs, fFeed b s = .next t ∧
    t.cursor.toNat = (s.cursor.toNat + 1) % 256 ∧ t.ev = s.ev ++ evs ∧ evs.length = (s.cursor.toNat + 1) / 256 ∧
    ∀ e ∈ evs, e = .sentenceOverflow b := by
  by_cases hroom : s.cursor.toNat < 255
  · have hlt : s.cursor.toNat + 1 < 256 := Nat.succ_lt_succ hroom
    exact ⟨fData b s, [], fFeed_of_data hb hroom, (fData_cursor_toNat hroom b).trans (Nat.mod_eq_of_lt hlt).symm,
      (List.append_nil _).symm, (Nat.div_eq_of_lt hlt).symm, nofun⟩
  · have hfull : s.cursor.toNat = 255 := Nat.le_antisymm (Nat.le_of_lt_succ s.cursor.isLt) (Nat.le_of_not_lt hroom)
    rw [hfull]
    exact ⟨_, [.sentenceOverflow b], fFeed_of_full hb hfull, rfl, rfl, rfl, fun _ => List.mem_singleton.1⟩

/-- Settles O27, by induction on the bytes, each of which counts one further. -/
theorem framerRunLaw : Obligations.FramerRunLaw := by
  intro s bs hbs
  induction bs generalizing s with
  | nil =>
    have hlt := s.cursor.isLt
    exact ⟨s, [], rfl, (Nat.mod_eq_of_lt hlt).symm, (List.append_nil _).symm, (Nat.div_eq_of_lt hlt).symm, nofun⟩
  | cons b bs ih =>
    obtain ⟨u, es, hu, hucursor, huev, hulen, hes⟩ :=
      fFeed_data_counts (isTerm_eq_false_iff.2 (hbs b List.mem_cons_self)) s
    obtain ⟨t, evs, ht, hcursor, hev, hlen, hevs⟩ := ih u fun c hc => hbs c (List.mem_cons_of_mem b hc)
    refine ⟨t, es ++ evs, (execAll_feedOps_cons hu bs).trans ht, ?_, ?_, ?_, fun e he => ?_⟩
    · rw [hcursor, hucursor, List.length_cons]; omega
    · rw [hev, huev, List.append_assoc]
    · rw [List.length_append, hulen, hlen, hucursor, List.length_cons]; omega
    · rcases List.mem_append.1 he with he | he
      · exact ⟨b, List.mem_cons_self, hes e he⟩
      · obtain ⟨c, hc, hec⟩ := hevs e he
        exact ⟨c, List.mem_cons_of_mem b hc, hec⟩

/-! The operations that log no Sentence. -/

/-- The log grows by events none of which is a Sentence. -/
def LogsNoSentence (s t : State) : Prop := ∃ more, t.ev = s.ev ++ more ∧ ∀ e ∈ more, ∀ x, e ≠ .sentence x

namespace LogsNoSentence

variable {s t : State}

theorem of_ev_eq (h : t.ev = s.ev) : LogsNoSentence s t := ⟨[], by rw [h, List.append_nil], nofun⟩

theorem of_one_event {e : Event} (h : t.ev = s.ev ++ [e]) (he : ∀ x, e ≠ .sentence x) : LogsNoSentence s t :=
  ⟨[e], h, fun _ hd => (List.mem_singleton.1 hd) ▸ he⟩

theorem mem (h : LogsNoSentence s t) {x : List Byte} (hx : .sentence x ∈ t.ev) : .sentence x ∈ s.ev := by
  obtain ⟨more, hev, hmore⟩ := h
  rw [hev] at hx
  exact (List.mem_append.1 hx).resolve_right fun hx => hmore _ hx x rfl

theorem xParse (x : List Byte) (s : State) : LogsNoSentence s (xParse x s).2 := by
  rcases xParse_cases x s with ⟨r, _, e⟩ | ⟨_, e⟩ <;> rw [e]
  · exact of_one_event rfl nofun
  · exact of_one_event rfl nofun

/-- D.HANDLE logs what X.PARSE logs; the Sentence itself is F.FEED's (R161, R180). -/
theorem dHandle (x : List Byte) (s : State) : LogsNoSentence s (dHandle x s) := by
  rcases dHandle_cases x s with ⟨_, e⟩ | ⟨_, r, _, e⟩ | ⟨_, _, e⟩ <;> rw [e]
  · exact of_ev_eq rfl
  · exact of_one_event rfl nofun
  · exact of_one_event rfl nofun

theorem pArrive (q : Link) (b : Byte) (s : State) : LogsNoSentence s (pArrive q b s) := by
  rcases pArrive_cases q b s with ⟨_, e⟩ | ⟨_, e⟩ <;> rw [e]
  · exact of_one_event rfl nofun
  · exact of_ev_eq rfl

theorem writeWord (q : Link) (b : Byte) (s : State) : LogsNoSentence s (writeWord q b s) := by
  rw [writeWord_eq]
  rcases qWrite_cases q b s with ⟨_, e⟩ | ⟨_, e⟩ <;> rw [e] <;> exact of_ev_eq rfl

theorem qRead {q : Link} {r : Option Byte} (h : qRead q s = .ok (r, t)) : LogsNoSentence s t := by
  rcases qRead_cases q s with ⟨_, e⟩ | ⟨_, b, _, e⟩ | ⟨_, _, e⟩ <;> rw [e] at h <;> cases h <;> exact of_ev_eq rfl

theorem readWord {q : Link} (h : readWord q s = .next t) : LogsNoSentence s t := by
  obtain ⟨r, u, hu, rfl⟩ := readWord_next h
  exact qRead (t := u) hu

theorem execPortHqread (h : execPortHqread s = .next t) : LogsNoSentence s t := by
  obtain ⟨r, u, hu, rfl⟩ := execPortHqread_next h
  exact qRead (t := u) hu

theorem qSyncW (q : Link) (mv : Move) (s : State) : LogsNoSentence s (qSyncW q mv s) := by
  cases hm : s.cfg.syncMode with
  | exact => rw [(qSync_exact hm q mv).1]; exact of_ev_eq rfl
  | lagged => rw [qSyncW_lagged hm]; exact of_ev_eq rfl

theorem qSyncR (q : Link) (mv : Move) (s : State) : LogsNoSentence s (qSyncR q mv s) := by
  cases hm : s.cfg.syncMode with
  | exact => rw [(qSync_exact hm q mv).2]; exact of_ev_eq rfl
  | lagged => rw [qSyncR_lagged hm]; exact of_ev_eq rfl

end LogsNoSentence

/-! The residue law. -/

/-- A whole number of times `L` DATA bytes, from idle: the framer is idle again (R167). -/
theorem execAll_feedOps_laps {bs : List Byte} {s : State} (hidle : s.cursor = 0#8)
    (hbs : ∀ b ∈ bs, b ≠ 0x0D#8 ∧ b ≠ 0x0A#8) (hlaps : bs.length % 256 = 0) :
    ∃ t evs, execAll (feedOps bs) s = .next t ∧ t.cursor = 0#8 ∧ t.ev = s.ev ++ evs ∧ evs.length = bs.length / 256 ∧
      ∀ e ∈ evs, ∃ b, e = .sentenceOverflow b := by
  have hzero : s.cursor.toNat = 0 := by rw [hidle]; rfl
  obtain ⟨t, evs, ht, hcursor, hev, hlen, hevs⟩ := framerRunLaw s bs hbs
  rw [hzero, Nat.zero_add] at hcursor hlen
  exact ⟨t, evs, ht, BitVec.eq_of_toNat_eq (hcursor.trans hlaps), hev, hlen,
    fun e he => (hevs e he).imp fun _ ⟨_, heq⟩ => heq⟩

/-- Fewer than `L` DATA bytes and a terminator, from idle: the Sentence of the bytes and what D.HANDLE logs, or nothing if
there are no bytes (R161). -/
theorem execAll_feedOps_short {x : List Byte} {c : Byte} {s : State} (hidle : s.cursor = 0#8)
    (hdata : ∀ b ∈ x, isTerm b = false) (hfit : x.length ≤ Config.L - 1) (hc : isTerm c = true) :
    ∃ t rest, execAll (feedOps (x ++ [c])) s = .next t ∧ t.cursor = 0#8 ∧ t.ev = s.ev ++ rest ∧ (x = [] → rest = []) ∧
      (x ≠ [] → ∃ more, rest = .sentence x :: more ∧ ∀ e ∈ more, ∀ y, e ≠ .sentence y) := by
  by_cases hne : x = []
  · subst hne
    have hrun := execAll_feedOps_terms (bs := [c]) (fun _ hb => List.mem_singleton.1 hb ▸ hc) hidle
    exact ⟨s, [], hrun, hidle, (List.append_nil _).symm, fun _ => rfl, fun h => absurd rfl h⟩
  · obtain ⟨u, hu, _, hev⟩ := execAll_feedOps_line hidle hdata hne hfit hc
    obtain ⟨more, hmore, hnone⟩ := LogsNoSentence.dHandle x (logEvent (.sentence x) u)
    refine ⟨_, .sentence x :: more, hu, rfl, ?_, fun h => absurd h hne, fun _ => ⟨more, rfl, hnone⟩⟩
    rw [← hev]
    exact hmore.trans (List.append_cons ..).symm

/-- Settles O28: up to its last `n mod L` bytes the line is a run that ends idle, and those are a line of their own. -/
theorem framerResidueLaw : Obligations.FramerResidueLaw := by
  intro s bs c hidle hbs _ hc
  obtain ⟨k, hk⟩ : ∃ k, k = bs.length - bs.length % 256 := ⟨_, rfl⟩
  have htake : (bs.take k).length = k := List.length_take_of_le (by omega)
  have hdrop : (bs.drop k).length = bs.length % 256 := by rw [List.length_drop]; omega
  have hempty : bs.drop k = [] ↔ bs.length % 256 = 0 := by rw [← hdrop, List.length_eq_zero_iff]
  obtain ⟨t, overflows, ht, htIdle, htEv, hlen, hkind⟩ := execAll_feedOps_laps (bs := bs.take k) hidle
    (fun b hb => hbs b (List.mem_of_mem_take hb)) (by omega)
  obtain ⟨u, rest, hu, huIdle, huEv, hnil, hcons⟩ := execAll_feedOps_short (x := bs.drop k) htIdle
    (fun b hb => isTerm_eq_false_iff.2 (hbs b (List.mem_of_mem_drop hb))) (by simp only [Config.L]; omega)
    (isTerm_eq_true_iff.2 hc)
  have hrun : execAll (feedOps (bs ++ [c])) s = .next u := by
    rw [← List.take_append_drop k bs, List.append_assoc, feedOps_append, execAll_append ht, hu]
  rw [← hk]
  exact ⟨u, overflows, rest, hrun, huIdle, by rw [huEv, htEv], hlen.trans (by omega), hkind, hnil ∘ hempty.2,
    hcons ∘ mt hempty.1⟩

/-! The sentences an operation may log. -/

/-- R170's condition, as the statements spell it. -/
theorem isSentence_iff {x : List Byte} : isSentence x = true ↔
    1 ≤ x.length ∧ x.length ≤ 255 ∧ 0x0D#8 ∉ x ∧ 0x0A#8 ∉ x := by
  simp only [isSentence, Config.L, Bool.and_eq_true, decide_eq_true_eq, List.all_eq_true, Bool.not_eq_true',
    isTerm_eq_false_iff, forall₂_and, ne_eq, List.forall_mem_ne', and_assoc, Nat.reduceSub]

/-- What a good framer has accumulated is a sentence, unless it is nothing (R26, R170). -/
theorem FramerInv.isSentence {s : State} (h : FramerInv s) (hcursor : s.cursor ≠ 0#8) {x : List Byte}
    (hx : memRun s.acc 0 s.cursor.toNat = some x) : isSentence x = true := by
  obtain ⟨y, hy, hdata⟩ := h.collected
  cases hx.symm.trans hy
  have hlen := memRun_length hx
  have hpos : s.cursor.toNat ≠ 0 := fun e => hcursor (BitVec.eq_of_toNat_eq e)
  have hlt := s.cursor.isLt
  rw [isSentence_iff, hlen]
  exact ⟨Nat.pos_of_ne_zero hpos, Nat.le_of_lt_succ hlt, fun hc => absurd (hdata _ hc) (by decide),
    fun hc => absurd (hdata _ hc) (by decide)⟩

/-- Every Sentence the operation adds to the log is one that F.FEED can emit (R170). -/
def LogsSentences (s t : State) : Prop := ∀ x, .sentence x ∈ t.ev → .sentence x ∈ s.ev ∨ isSentence x = true

namespace LogsSentences

variable {s t : State}

theorem of_none (h : LogsNoSentence s t) : LogsSentences s t := fun _ hx => .inl (h.mem hx)

theorem fFeed (h : FramerInv s) {b : Byte} (hf : fFeed b s = .next t) : LogsSentences s t := by
  rcases fFeed_cases b s with ⟨_, _, e⟩ | ⟨_, hcursor, x, hx, e⟩ | ⟨_, _, _, e⟩ | ⟨_, _, e⟩ | ⟨_, _, e⟩ <;>
    rw [e] at hf <;> cases hf
  · exact of_none (.of_ev_eq rfl)
  · intro y hy
    have hlogged := (LogsNoSentence.dHandle x (logEvent (.sentence x) s)).mem hy
    rcases List.mem_append.1 hlogged with hy | hy
    · exact .inl hy
    · cases List.mem_singleton.1 hy
      exact .inr (h.isSentence hcursor hx)
  · exact of_none (.of_ev_eq rfl)
  · exact of_none (.of_one_event rfl nofun)

/-- Q.READ leaves the framer and the log (R140). -/
theorem cStep (h : FramerInv s) (hc : cStep s = .next t) : LogsSentences s t := by
  rcases cStep_cases s with ⟨_, e⟩ | ⟨_, b, _, e⟩ | ⟨_, _, e⟩ <;> rw [e] at hc
  · exact next_elim hc (of_none (.of_ev_eq rfl))
  · exact fFeed (s := s.setQueue _ _) ⟨h.collected, h.cells⟩ hc
  · cases hc

/-- Only F.FEED logs a Sentence; RESET empties the log. -/
theorem exec (h : FramerInv s) {i : Instr} (hx : exec i s = .next t) : LogsSentences s t := by
  cases i with
  | reset =>
    obtain ⟨tx, e⟩ := bootReset_eq s
    refine next_elim hx fun x hmem => ?_
    rw [e] at hmem
    exact absurd hmem List.not_mem_nil
  | arriveOk q b | arriveFull q b | portArrive q b => exact next_elim hx (of_none (.pArrive q b s))
  | writeOk q b | writeFull q b => exact next_elim hx (of_none (.writeWord q b s))
  | readSome q | readNone q => exact of_none (.readWord hx)
  | portHqread => exact of_none (.execPortHqread hx)
  | syncw q mv => exact next_elim hx (of_none (.qSyncW q mv s))
  | syncr q mv => exact next_elim hx (of_none (.qSyncR q mv s))
  | stepByte | stepEmpty => exact cStep h hx
  | feed b | feedData b | feedOvf b => exact fFeed h hx
  | feedTermCr => exact fFeed (b := chCR) h hx
  | feedTermLf => exact fFeed (b := chLF) h hx
  | handleFix x | handleEcho x => exact next_elim hx (of_none (.dHandle x s))
  | parseOk x | parseErr x => exact next_elim hx (of_none (.xParse x s))
  | init q | portIdle q d | portHqidle | oLine x | dec2f x | div100 x | neg x | fmt x n =>
    exact next_elim hx (of_none (.of_ev_eq rfl))
  | reserved9 x | reservedA x | reservedB x | reservedC x | reservedD x | reservedE x | reservedF x => cases hx

end LogsSentences

/-- Settles O29: of all the operations F.FEED alone logs a Sentence, the bytes a good framer has accumulated. -/
theorem sentencesHaveOneTo255DataBytes : Obligations.SentencesHaveOneTo255DataBytes :=
  fun _ _ _ h hx x hmem => (LogsSentences.exec h.framer hx x hmem).imp_right isSentence_iff.1

end Sys2Proof.Machine
end

section
/-! PROOFS. A sentence with the tag in front is echoed, parsed and answered (42_dispatcher R180, R183; 43_fixparser R207,
R209), and a line goes out whole (R184). -/
namespace Sys2Proof.Machine

/-- D.HANDLE where the first six bytes are the tag and X.PARSE returns `Ok` (R180, R207, R208). -/
theorem dHandle_of_parsed {x : List Byte} {s : State} {r : PositionFix} (htag : x.take 6 = Config.TAG)
    (hr : parseFix s.cfg.fmt x = some r) :
    dHandle x s = emit (fixText s.cfg.fmt r) (commitFix r (emit x s)) := by
  rcases dHandle_cases x s with ⟨hroute, _⟩ | ⟨_, v, hv, e⟩ | ⟨_, hnone, _⟩
  · exact absurd htag (ne_of_beq_false hroute)
  · cases hr.symm.trans hv
    exact e
  · exact absurd (hr.symm.trans hnone) nofun

/-- D.HANDLE where the first six bytes are the tag and X.PARSE returns `Err` (R180, R208, R209). -/
theorem dHandle_of_unparsed {x : List Byte} {s : State} (htag : x.take 6 = Config.TAG)
    (hnone : parseFix s.cfg.fmt x = none) :
    dHandle x s = emit badfixText (driveErr 3#2 (logEvent (.parseError x) (emit x s))) := by
  rcases dHandle_cases x s with ⟨hroute, _⟩ | ⟨_, v, hv, _⟩ | ⟨_, _, e⟩
  · exact absurd htag (ne_of_beq_false hroute)
  · exact absurd (hv.symm.trans hnone) nofun
  · exact e

theorem dHandle_keepsFramer (x : List Byte) (s : State) : KeepsFramer s (dHandle x s) := by
  rcases dHandle_cases x s with ⟨_, e⟩ | ⟨_, r, _, e⟩ | ⟨_, _, e⟩ <;> rw [e] <;> exact ⟨rfl, fun _ => rfl⟩

theorem dHandle_results (x : List Byte) (s : State) : (dHandle x s).results = s.results := by
  rcases dHandle_cases x s with ⟨_, e⟩ | ⟨_, r, _, e⟩ | ⟨_, _, e⟩ <;> rw [e] <;> rfl

/-- D.HANDLE leaves the queues, the framer, the parameters and the results (R180). -/
theorem dHandle_frame (x : List Byte) (s : State) :
    (∀ q, KeepsQueue q s (dHandle x s)) ∧ KeepsFramer s (dHandle x s) ∧ KeepsModel s (dHandle x s) ∧
      (dHandle x s).results = s.results :=
  ⟨fun q => keepsQueue_of_queue_eq (congrArg (Pair.get · q) (dHandle_queues x s)), dHandle_keepsFramer x s,
    dHandle_keepsModel x s, dHandle_results x s⟩

/-- Both rows are the one operation D.HANDLE (log 5). -/
theorem exec_handle {x : List Byte} {i : Instr} (hi : i = .handleFix x ∨ i = .handleEcho x) (s : State) :
    exec i s = .next (dHandle x s) := by
  rcases hi with rfl | rfl
  · rfl
  · rfl

/-- Settles O33: D.HANDLE is the ECHO line, the commit, and the FIX line of the record just committed. -/
theorem parsedSentenceIsCommittedAndPrinted : Obligations.ParsedSentenceIsCommittedAndPrinted := by
  intro x s i r hi htag hr
  have hexec := exec_handle hi s
  have hframe := dHandle_frame x s
  rw [dHandle_of_parsed htag hr, emit_eq x s] at hexec hframe
  exact ⟨_, lineBytes (fixText s.cfg.fmt r), hexec, rfl, rfl, rfl, rfl, rfl, rfl, hframe⟩

/-- Settles O34: D.HANDLE is the ECHO line, ParseError, and the BADFIX line; the record is not written. -/
theorem badSentenceLeavesTheRecord : Obligations.BadSentenceLeavesTheRecord := by
  intro x s i hi htag hnone
  have hexec := exec_handle hi s
  have hframe := dHandle_frame x s
  rw [dHandle_of_unparsed htag hnone, emit_eq x s] at hexec hframe
  exact ⟨_, lineBytes badfixText, hexec, rfl, rfl, ⟨rfl, rfl⟩, rfl, rfl, hframe⟩

/-- Settles O39: O.LINE is `emit` alone. -/
theorem lineGoesOutWhole : Obligations.LineGoesOutWhole :=
  fun x s => congrArg Host.Outcome.next (emit_eq x s)

end Sys2Proof.Machine
end

section
/-! PROOFS. No field of a sentence overflows in binary64: the digits of a field of `k` bytes are below `10^k`, and
`10^255` is below `2^1020` (43_fixparser R206; 44_numerics R234). -/
namespace Sys2Proof.Machine

/-- Each digit read multiplies the bound by ten (R99). -/
theorem readDigits_lt {ds : List Byte} (hds : ∀ b ∈ ds, IsDigitByte b) (v : Nat) :
    readDigits ds v < (v + 1) * 10 ^ ds.length := by
  induction ds generalizing v with
  | nil => simp [readDigits]
  | cons b ds ih =>
    obtain ⟨⟨_, hb⟩, htail⟩ := List.forall_mem_cons.1 hds
    calc readDigits (b :: ds) v = readDigits ds (10 * v + (b.toNat - 0x30)) := rfl
      _ < (10 * v + (b.toNat - 0x30) + 1) * 10 ^ ds.length := ih htail _
      _ ≤ 10 * (v + 1) * 10 ^ ds.length := Nat.mul_le_mul_right _ (by omega)
      _ = (v + 1) * 10 ^ (b :: ds).length := by rw [List.length_cons, Nat.pow_succ]; ring

/-- A field has no more digits than bytes (R99). -/
theorem length_digits_le_of_numShape {neg : Bool} {whole frac t : List Byte} (h : NumShape neg whole frac t) :
    (whole ++ frac).length ≤ t.length := by
  obtain ⟨_, _, _, rfl⟩ := numShape_iff.1 h
  have hfrac : frac.length ≤ (fractionPart frac).length := by
    rw [fractionPart]
    split
    · next hnil => rw [hnil]
    · exact Nat.le_succ _
  simp only [List.length_append]
  omega

/-- The digits of a field of `k` bytes are below `10^k` (R99). -/
theorem parseNum_digits_lt {t : List Byte} {n : Numeral} (h : parseNum t = some n) : n.digits < 10 ^ t.length := by
  obtain ⟨whole, frac, hshape, hdigits, _⟩ := (numeralsAreReadByTheirShape t n).1 h
  have ⟨_, hds, _⟩ := hshape
  calc n.digits = readDigits (whole ++ frac) 0 := hdigits
    _ < (0 + 1) * 10 ^ (whole ++ frac).length := readDigits_lt hds 0
    _ ≤ 10 ^ t.length := by
      rw [Nat.zero_add, Nat.one_mul]
      exact Nat.pow_le_pow_right (by decide) (length_digits_le_of_numShape hshape)

/-- A numeral whose digits are below `2^emax` does not overflow, wherever its point stands (R234). -/
theorem dec2fNumeral_of_digits_lt {f : Fmt} {n : Numeral} (h : n.digits < 2 ^ emax f) :
    ∃ x, dec2fNumeral f n = some x := by
  have hfit : overflows f n.magnitude = false := overflows_eq_false_iff.2 <| calc
    n.digits < 2 ^ emax f := h
    _ ≤ overflowBound f := two_pow_emax_le_overflowBound f
    _ ≤ 10 ^ n.scale * overflowBound f := Nat.le_mul_of_pos_left _ (Nat.pow_pos (by decide))
  rw [dec2fNumeral, hfit]
  exact ⟨_, rfl⟩

/-- A decimal digit takes less than four bits. -/
theorem ten_pow_le_two_pow (k : Nat) : 10 ^ k ≤ 2 ^ (4 * k) := by
  rw [Nat.pow_mul]
  exact Nat.pow_le_pow_left (by decide) k

/-- Settles O44: 255 digits make less than `10^255`, so less than `2^1020`, and the threshold is above `2^1023`. -/
theorem binary64FieldsNeverOverflow : Obligations.Binary64FieldsNeverOverflow := by
  intro t n hn hlen
  have hbits : 4 * t.length ≤ emax .binary64 := by
    rw [emax]
    omega
  rw [dec2f_of_parseNum hn]
  exact dec2fNumeral_of_digits_lt <| calc
    n.digits < 10 ^ t.length := parseNum_digits_lt hn
    _ ≤ 2 ^ (4 * t.length) := ten_pow_le_two_pow _
    _ ≤ 2 ^ emax .binary64 := Nat.pow_le_pow_right (by decide) hbits

end Sys2Proof.Machine
end

section
/-! PROOFS. The one rounding on rationals: the nearest integer, the binary logarithm, and the significand and exponent
of a rounded magnitude (44_numerics R230, R232). -/
namespace Sys2Proof.Machine

/-! The nearest integer. -/

/-- Rounding is to within a half (R232). -/
theorem abs_roundEven_sub_le {n d : Nat} (hd : 0 < d) : |(roundEven n d : ℚ) - n / d| ≤ 1 / 2 := by
  obtain ⟨hle, hge, -⟩ := roundEven_spec n d hd
  have hd' : (0 : ℚ) < d := by exact_mod_cast hd
  have hle' : 2 * ((roundEven n d : ℚ) * d) ≤ 2 * n + d := by exact_mod_cast hle
  have hge' : 2 * (n : ℚ) ≤ 2 * (roundEven n d * d) + d := by exact_mod_cast hge
  rw [sub_div' hd'.ne', abs_div, abs_of_pos hd', div_le_iff₀ hd', abs_le]
  constructor <;> linarith

/-- Rounding from exactly a half away is to the even integer (R232). -/
theorem roundEven_even_of_tie {n d : Nat} (hd : 0 < d) (h : |(roundEven n d : ℚ) - n / d| = 1 / 2) :
    roundEven n d % 2 = 0 := by
  obtain ⟨-, -, heven⟩ := roundEven_spec n d hd
  have hd' : (0 : ℚ) < d := by exact_mod_cast hd
  rw [sub_div' hd'.ne', abs_div, abs_of_pos hd', div_eq_iff hd'.ne', abs_eq (by positivity)] at h
  refine heven (h.imp (fun h => ?_) fun h => ?_)
  · exact_mod_cast (by linarith : 2 * ((roundEven n d : ℚ) * d) = 2 * n + d)
  · exact_mod_cast (by linarith : 2 * (n : ℚ) = 2 * (roundEven n d * d) + d)

/-- Any other integer is at least as far as the rest of a unit. -/
theorem one_sub_abs_sub_le {m k : ℤ} (hne : k ≠ m) (q : ℚ) : 1 - |(m : ℚ) - q| ≤ |(k : ℚ) - q| := by
  have hone : (1 : ℚ) ≤ |(k : ℚ) - m| := by exact_mod_cast Int.one_le_abs (sub_ne_zero.2 hne)
  have htri := abs_sub_le (k : ℚ) q m
  rw [abs_sub_comm q] at htri
  linarith

/-- No integer is nearer than the rounded one (R232). -/
theorem roundEven_nearest {n d : Nat} (hd : 0 < d) (k : ℤ) : |(roundEven n d : ℚ) - n / d| ≤ |(k : ℚ) - n / d| := by
  by_cases hk : k = roundEven n d
  · rw [hk, Int.cast_natCast]
  · have hhalf := abs_roundEven_sub_le (n := n) hd
    have hrest := one_sub_abs_sub_le hk ((n : ℚ) / d)
    rw [Int.cast_natCast] at hrest
    linarith

/-- Where another integer is as near, the rounded one is even (R232). -/
theorem roundEven_even_of_equally_near {n d : Nat} (hd : 0 < d) {k : ℤ} (hk : k ≠ roundEven n d)
    (h : |(roundEven n d : ℚ) - n / d| = |(k : ℚ) - n / d|) : roundEven n d % 2 = 0 := by
  have hhalf := abs_roundEven_sub_le (n := n) hd
  have hrest := one_sub_abs_sub_le hk ((n : ℚ) / d)
  rw [Int.cast_natCast] at hrest
  exact roundEven_even_of_tie hd (by linarith)

/-- An integer bound from above is kept by the rounding. -/
theorem roundEven_le {n d k : Nat} (hd : 0 < d) (h : (n : ℚ) / d ≤ k) : roundEven n d ≤ k := by
  have hhalf := (abs_le.1 (abs_roundEven_sub_le (n := n) hd)).2
  have hlt : (roundEven n d : ℚ) < (k + 1 : Nat) := by push_cast; linarith
  exact Nat.le_of_lt_succ (by exact_mod_cast hlt)

/-- An integer bound from below is kept by the rounding. -/
theorem le_roundEven {n d k : Nat} (hd : 0 < d) (h : (k : ℚ) ≤ n / d) : k ≤ roundEven n d := by
  have hhalf := (abs_le.1 (abs_roundEven_sub_le (n := n) hd)).1
  have hlt : (k : ℚ) < (roundEven n d + 1 : Nat) := by push_cast; linarith
  exact Nat.le_of_lt_succ (by exact_mod_cast hlt)

/-! The binary logarithm. -/

/-- A power of two with its sign taken out of the exponent. -/
theorem two_zpow_eq (k : ℤ) : (2 : ℚ) ^ k = if 0 ≤ k then (2 : ℚ) ^ k.toNat else ((2 : ℚ) ^ (-k).toNat)⁻¹ := by
  split
  · next h => rw [← zpow_natCast, Int.toNat_of_nonneg h]
  · next h => rw [← zpow_natCast, Int.toNat_of_nonneg (by omega), zpow_neg, inv_inv]

/-- `powLe` compares a power of two with a fraction. -/
theorem powLe_iff {a : Frac} (hden : 0 < a.den) (e : ℤ) : powLe e a = true ↔ (2 : ℚ) ^ e ≤ a.toRat := by
  have hd : (0 : ℚ) < a.den := by exact_mod_cast hden
  rw [powLe, two_zpow_eq, Frac.toRat, le_div_iff₀ hd]
  split
  · rw [decide_eq_true_iff, mul_comm]
    exact_mod_cast Iff.rfl
  · rw [decide_eq_true_iff, inv_mul_le_iff₀ (by positivity), mul_comm]
    exact_mod_cast Iff.rfl

/-- A fraction is at least the power of two that `floorLog2` names (R232). -/
theorem two_zpow_floorLog2_le {a : Frac} (hden : 0 < a.den) (hnum : a.num ≠ 0) : (2 : ℚ) ^ floorLog2 a ≤ a.toRat :=
  (powLe_iff hden _).1 (powLe_floorLog2 hnum)

/-- A fraction is below the next power of two (R232). -/
theorem lt_two_zpow_floorLog2_succ {a : Frac} (hden : 0 < a.den) : a.toRat < (2 : ℚ) ^ (floorLog2 a + 1) := by
  have hd : (0 : ℚ) < a.den := by exact_mod_cast hden
  rw [floorLog2]
  split
  · have hn : (a.num : ℚ) < 2 ^ (Nat.log2 a.num + 1) := by exact_mod_cast Nat.lt_log2_self
    have hlog : (2 : ℚ) ^ Nat.log2 a.den ≤ a.den := by exact_mod_cast Nat.log2_self_le hden.ne'
    have hexp : ((Nat.log2 a.num : ℤ) - Nat.log2 a.den + 1) = (Nat.log2 a.num + 1 : Nat) - (Nat.log2 a.den : Nat) := by
      push_cast; ring
    rw [hexp, zpow_sub₀ two_ne_zero, zpow_natCast, zpow_natCast, Frac.toRat]
    exact div_lt_div₀ hn hlog (by positivity) (by positivity)
  · next h =>
    rw [sub_add_cancel]
    exact lt_of_not_ge fun hle => h ((powLe_iff hden _).2 hle)

/-! The significand and the exponent of a rounded magnitude. -/

/-- The exponent of the unit a magnitude is rounded to, `u = 2^(e - p + 1)` (R232). -/
def roundUnitExp (f : Fmt) (a : Frac) : ℤ := roundExp f a - prec f + 1

/-- The significand is the magnitude in units, rounded (R232). -/
theorem roundSig_eq_roundEven {f : Fmt} {a : Frac} (hden : 0 < a.den) :
    ∃ n d, 0 < d ∧ roundSig f a = roundEven n d ∧ (n : ℚ) / d = a.toRat / 2 ^ roundUnitExp f a := by
  rw [roundUnitExp, two_zpow_eq, Frac.toRat]
  simp only [roundSig]
  split
  · exact ⟨_, _, by positivity, rfl, by push_cast; rw [div_div]⟩
  · exact ⟨_, _, hden, rfl, by push_cast; rw [div_inv_eq_mul, div_mul_eq_mul_div]⟩

/-- The magnitude is below `2^p` units (R232). -/
theorem magnitude_lt_units {f : Fmt} {a : Frac} (hden : 0 < a.den) :
    a.toRat / 2 ^ roundUnitExp f a < (2 ^ prec f : Nat) := by
  have hexp : (prec f : ℤ) + roundUnitExp f a = roundExp f a + 1 := by rw [roundUnitExp]; ring
  rw [div_lt_iff₀ (by positivity), Nat.cast_pow, Nat.cast_ofNat, ← zpow_natCast, ← zpow_add₀ two_ne_zero, hexp]
  exact (lt_two_zpow_floorLog2_succ hden).trans_le
    (zpow_le_zpow_right₀ one_le_two (Int.add_le_add_right (le_max_left ..) 1))

/-- Above the least exponent the magnitude is at least `2^(p-1)` units (R232). -/
theorem units_le_magnitude {f : Fmt} {a : Frac} (hden : 0 < a.den) (hnum : a.num ≠ 0) (he : roundExp f a ≠ emin f) :
    ((2 ^ (prec f - 1) : Nat) : ℚ) ≤ a.toRat / 2 ^ roundUnitExp f a := by
  have hp := two_le_prec f
  have hlog : roundExp f a = floorLog2 a := (max_choice _ _).resolve_right he
  have hexp : ((prec f - 1 : Nat) : ℤ) + roundUnitExp f a = floorLog2 a := by rw [roundUnitExp, hlog]; omega
  rw [le_div_iff₀ (by positivity), Nat.cast_pow, Nat.cast_ofNat, ← zpow_natCast, ← zpow_add₀ two_ne_zero, hexp]
  exact two_zpow_floorLog2_le hden hnum

/-- A significand and an exponent as R232 makes them: what `packMag` expects. -/
structure IsRounding (f : Fmt) (m : Nat) (e : ℤ) : Prop where
  emin_le : emin f ≤ e
  le_emax : e ≤ emax f
  sig_le : m ≤ 2 ^ prec f
  /-- Only at the least exponent is a significand shorter than `p` bits. -/
  subnormal : m < 2 ^ (prec f - 1) → e = emin f
  /-- At the largest exponent nothing rounds up to the next power of two. -/
  top : e = emax f → m < 2 ^ prec f

/-- The rounding of a magnitude that does not overflow has that form (R232, R234). -/
theorem isRounding_roundSig {f : Fmt} {a : Frac} (hden : 0 < a.den) (hnum : a.num ≠ 0) (hfit : overflows f a = false) :
    IsRounding f (roundSig f a) (roundExp f a) := by
  obtain ⟨n, d, hd, hsig, hq⟩ := roundSig_eq_roundEven (f := f) hden
  refine ⟨le_max_right .., roundExp_le hnum hfit, ?_, fun hlt => ?_, roundSig_lt hden hfit⟩
  · rw [hsig]
    exact roundEven_le hd (hq ▸ (magnitude_lt_units hden).le)
  · by_contra he
    rw [hsig] at hlt
    exact hlt.not_ge (le_roundEven hd (hq ▸ units_le_magnitude hden hnum he))

end Sys2Proof.Machine
end

section
/-! PROOFS. Patterns and their values: the fields of a packed and of a negated pattern, its value, and how near it is to
the magnitude it was rounded from (44_numerics R230, R232, R233, R234, R236, R237). -/
namespace Sys2Proof.Machine

/-! The value of a pattern. -/

/-- The factor of a sign: `-1` for a minus (R230). -/
def signFactor (neg : Bool) : ℚ := if neg then -1 else 1

@[simp] theorem abs_signFactor (neg : Bool) : |signFactor neg| = 1 := by cases neg <;> simp [signFactor]
theorem signFactor_not (neg : Bool) : signFactor (!neg) = -signFactor neg := by cases neg <;> simp [signFactor]
theorem signFactor_mul_self (neg : Bool) : signFactor neg * signFactor neg = 1 := by cases neg <;> simp [signFactor]
theorem signFactor_eq_intCast (neg : Bool) : signFactor neg = ((if neg then -1 else 1 : ℤ) : ℚ) := by
  cases neg <;> simp [signFactor]

/-- A distance does not change with the sign of both numbers. -/
theorem abs_sub_signFactor_mul (neg : Bool) (v a : ℚ) : |v - signFactor neg * a| = |signFactor neg * v - a| := by
  rw [← one_mul |v - _|, ← abs_signFactor neg, ← abs_mul, mul_sub, ← mul_assoc, signFactor_mul_self, one_mul]

/-- The value of a pattern, by its sign, its significand and its unit (R230). -/
theorem valueOf_eq (f : Fmt) (x : Fp) : valueOf f x = signFactor (signBit f x) * (significand f x * ulp f x) := rfl

theorem ulp_pos (f : Fmt) (x : Fp) : 0 < ulp f x := by
  rw [ulp]
  positivity

theorem abs_valueOf (f : Fmt) (x : Fp) : |valueOf f x| = significand f x * ulp f x := by
  have hulp := ulp_pos f x
  rw [valueOf_eq, abs_mul, abs_signFactor, one_mul, abs_of_nonneg (by positivity)]

/-- The magnitude the model computes with is the magnitude of the value (R230). -/
theorem toRat_magnitude (f : Fmt) (x : Fp) : (magnitude f x).toRat = |valueOf f x| := by
  rw [abs_valueOf, ulp, two_zpow_eq, magnitude, scale2]
  split
  · simp [Frac.toRat]
  · simp [Frac.toRat, div_eq_mul_inv]

/-- The zeros are the patterns of value zero (R230). -/
theorem isZero_iff {f : Fmt} {x : Fp} : isZero f x = true ↔ valueOf f x = 0 := by
  have hpos : 0 < 2 ^ (prec f - 1) := Nat.two_pow_pos _
  rw [← abs_eq_zero, abs_valueOf, mul_eq_zero, or_iff_left (ulp_pos f x).ne', Nat.cast_eq_zero, significand, isZero,
    Bool.and_eq_true, beq_iff_eq, beq_iff_eq]
  split <;> omega

/-- No unit is finer than that of the subnormals (R230). -/
theorem emin_le_unitExp (f : Fmt) (x : Fp) : emin f - prec f + 1 ≤ unitExp f x := by
  simp only [unitExp, emin]
  split <;> omega

/-! A pattern with a sign in front. -/

section withSign
variable {f : Fmt} {mag : Nat} (h : mag < allOnes f * 2 ^ (prec f - 1)) (neg : Bool)
include h

theorem lt_signBit_of_finite : mag < 2 ^ (width f - 1) := by
  rw [two_pow_signBit, two_pow_width_sub_prec, Nat.mul_comm]
  exact h.trans_le (Nat.mul_le_mul_right _ (Nat.le_succ _))

theorem toNat_withSign : (withSign f neg mag).toNat = (if neg then 2 ^ (width f - 1) else 0) + mag := by
  have hmag := lt_signBit_of_finite h
  have hp := two_le_prec f
  have hw := prec_le_width f
  have hW : 2 ^ width f = 2 * 2 ^ (width f - 1) := by rw [← pow_succ']; congr 1; omega
  rw [withSign, BitVec.toNat_ofNat]
  refine Nat.mod_eq_of_lt (lt_of_lt_of_le ?_ (Nat.pow_le_pow_right Nat.two_pos (width_le f)))
  split <;> omega

theorem signBit_withSign : signBit f (withSign f neg mag) = neg := by
  have hmag := lt_signBit_of_finite h
  rw [signBit, BitVec.getLsbD, toNat_withSign h neg]
  cases neg with
  | true => simp only [if_true, Nat.testBit_two_pow_add_eq, Nat.testBit_lt_two_pow hmag, Bool.not_false]
  | false => simp only [Bool.false_eq_true, if_false, Nat.zero_add, Nat.testBit_lt_two_pow hmag]

theorem expField_withSign : expField f (withSign f neg mag) = mag / 2 ^ (prec f - 1) := by
  have hE : mag / 2 ^ (prec f - 1) < 2 ^ (width f - prec f) :=
    Nat.div_lt_of_lt_mul (two_pow_signBit f ▸ lt_signBit_of_finite h)
  rw [expField, toNat_withSign h neg]
  split
  · rw [two_pow_signBit, Nat.mul_add_div (Nat.two_pow_pos _), Nat.add_mod_left, Nat.mod_eq_of_lt hE]
  · rw [Nat.zero_add, Nat.mod_eq_of_lt hE]

theorem fracField_withSign : fracField f (withSign f neg mag) = mag % 2 ^ (prec f - 1) := by
  rw [fracField, toNat_withSign h neg]
  split
  · rw [two_pow_signBit, Nat.mul_add_mod]
  · rw [Nat.zero_add]

end withSign

/-! A packed pattern. -/

/-- The significand and the unit of a pattern with the exponent field `E` and the fraction field `F` (R230). -/
theorem fields_withSign {f : Fmt} {E F : Nat} (hF : F < 2 ^ (prec f - 1))
    (h : E * 2 ^ (prec f - 1) + F < allOnes f * 2 ^ (prec f - 1)) (neg : Bool) :
    significand f (withSign f neg (E * 2 ^ (prec f - 1) + F)) = (if E = 0 then F else 2 ^ (prec f - 1) + F) ∧
      unitExp f (withSign f neg (E * 2 ^ (prec f - 1) + F)) =
        (if E = 0 then emin f else (E : ℤ) - emax f) - ((prec f : ℤ) - 1) := by
  have hE : (E * 2 ^ (prec f - 1) + F) / 2 ^ (prec f - 1) = E := by
    rw [Nat.mul_comm, Nat.mul_add_div (Nat.two_pow_pos _), Nat.div_eq_of_lt hF, Nat.add_zero]
  have hrest : (E * 2 ^ (prec f - 1) + F) % 2 ^ (prec f - 1) = F := by
    rw [Nat.mul_comm, Nat.mul_add_mod, Nat.mod_eq_of_lt hF]
  rw [significand, unitExp, expField_withSign h, fracField_withSign h, hE, hrest]
  exact ⟨rfl, rfl⟩

/-- The significand and the unit of a packed pattern: `2^p` units are `2^(p-1)` of the next unit (R230, R232). -/
theorem packMag_fields {f : Fmt} {m : Nat} {e : ℤ} (h : IsRounding f m e) (neg : Bool) :
    significand f (withSign f neg (packMag f m e)) = (if m < 2 ^ prec f then m else 2 ^ (prec f - 1)) ∧
      unitExp f (withSign f neg (packMag f m e)) = e - prec f + 1 + (if m < 2 ^ prec f then 0 else 1) := by
  have hlt := packMag_lt h.emin_le h.le_emax h.top
  have hmin : 1 - (emax f : ℤ) ≤ e := h.emin_le
  have hp := two_le_prec f
  have hH : 2 ^ prec f = 2 * 2 ^ (prec f - 1) := by rw [← pow_succ']; congr 1; omega
  by_cases hshort : m < 2 ^ (prec f - 1)
  · have hpack : packMag f m e = 0 * 2 ^ (prec f - 1) + m := by rw [packMag, if_pos hshort, Nat.zero_mul, Nat.zero_add]
    rw [hpack] at hlt ⊢
    obtain ⟨hsig, hunit⟩ := fields_withSign hshort hlt neg
    rw [hsig, hunit, h.subnormal hshort, if_pos rfl, if_pos rfl, if_pos (by omega), if_pos (by omega)]
    exact ⟨rfl, by omega⟩
  · by_cases hfull : m < 2 ^ prec f
    · have hpack : packMag f m e = (e + emax f).toNat * 2 ^ (prec f - 1) + (m - 2 ^ (prec f - 1)) := by
        rw [packMag, if_neg hshort, if_pos hfull]
      have hE : (e + emax f).toNat ≠ 0 := by omega
      rw [hpack] at hlt ⊢
      obtain ⟨hsig, hunit⟩ := fields_withSign (by omega) hlt neg
      rw [hsig, hunit, if_neg hE, if_neg hE, if_pos hfull, if_pos hfull]
      exact ⟨by omega, by omega⟩
    · have hpack : packMag f m e = (e + 1 + emax f).toNat * 2 ^ (prec f - 1) + 0 := by
        rw [packMag, if_neg hshort, if_neg hfull, Nat.add_zero]
      have hE : (e + 1 + emax f).toNat ≠ 0 := by omega
      rw [hpack] at hlt ⊢
      obtain ⟨hsig, hunit⟩ := fields_withSign (Nat.two_pow_pos _) hlt neg
      rw [hsig, hunit, if_neg hE, if_neg hE, if_neg hfull, if_neg hfull]
      exact ⟨rfl, by omega⟩

/-- The value of a packed pattern is its significand in units (R230, R232). -/
theorem valueOf_packMag {f : Fmt} {m : Nat} {e : ℤ} (h : IsRounding f m e) (neg : Bool) :
    valueOf f (withSign f neg (packMag f m e)) = signFactor neg * (m * 2 ^ (e - prec f + 1)) := by
  obtain ⟨hsig, hunit⟩ := packMag_fields h neg
  have hp := two_le_prec f
  have hH : 2 ^ prec f = 2 ^ (prec f - 1) * 2 := by rw [← pow_succ]; congr 1; omega
  rw [valueOf_eq, signBit_withSign (packMag_lt h.emin_le h.le_emax h.top), ulp, hsig, hunit]
  split
  · rw [add_zero]
  · next hm =>
    have hm : m = 2 ^ (prec f - 1) * 2 := hH ▸ le_antisymm h.sig_le (not_lt.1 hm)
    rw [zpow_add_one₀ two_ne_zero, hm]
    push_cast
    ring

/-- An even rounded significand is packed as an even significand (R232). -/
theorem significand_packMag_even {f : Fmt} {m : Nat} {e : ℤ} (h : IsRounding f m e) (neg : Bool) (heven : m % 2 = 0) :
    significand f (withSign f neg (packMag f m e)) % 2 = 0 := by
  have hp := two_le_prec f
  rw [(packMag_fields h neg).1]
  split
  · exact heven
  · exact Nat.mod_eq_zero_of_dvd (dvd_pow_self 2 (by omega))

/-- The unit of a packed pattern is not finer than the unit of the rounding (R232). -/
theorem unit_le_ulp_packMag {f : Fmt} {m : Nat} {e : ℤ} (h : IsRounding f m e) (neg : Bool) :
    (2 : ℚ) ^ (e - prec f + 1) ≤ ulp f (withSign f neg (packMag f m e)) := by
  rw [ulp, (packMag_fields h neg).2]
  refine zpow_le_zpow_right₀ one_le_two ?_
  split <;> omega

end Sys2Proof.Machine
end

section
/-! PROOFS. How near a rounded magnitude is, and N.DEC2F and N.DIV100 (44_numerics R232, R233, R234, R236). -/
namespace Sys2Proof.Machine

/-! The rounded significand. -/

/-- Distances in units (R232). -/
theorem abs_sub_eq_units (f : Fmt) (a : Frac) (r : ℚ) : |r * 2 ^ roundUnitExp f a - a.toRat| =
    |r - a.toRat / 2 ^ roundUnitExp f a| * 2 ^ roundUnitExp f a := by
  have hu : (0 : ℚ) < 2 ^ roundUnitExp f a := by positivity
  rw [← abs_of_pos hu, ← abs_mul, abs_of_pos hu, sub_mul, div_mul_cancel₀ _ hu.ne']

/-- The rounding is to within half a unit (R232). -/
theorem abs_roundSig_sub_le {f : Fmt} {a : Frac} (hden : 0 < a.den) :
    |roundSig f a * 2 ^ roundUnitExp f a - a.toRat| ≤ 2 ^ roundUnitExp f a / 2 := by
  obtain ⟨n, d, hd, hsig, hq⟩ := roundSig_eq_roundEven (f := f) hden
  have hu : (0 : ℚ) < 2 ^ roundUnitExp f a := by positivity
  rw [abs_sub_eq_units, hsig, ← hq]
  exact (mul_le_mul_of_nonneg_right (abs_roundEven_sub_le hd) hu.le).trans_eq (one_div_mul_eq_div 2 _)

/-- A value the rounding competes with: a whole number of units, or one below the first power of two under the
magnitude, where the values lie closer (R230, R232). -/
def OnGrid (f : Fmt) (a : Frac) (w : ℚ) : Prop :=
  (∃ k : ℤ, w = k * 2 ^ roundUnitExp f a) ∨
    roundExp f a ≠ emin f ∧ w < (2 ^ (prec f - 1) : Nat) * 2 ^ roundUnitExp f a

/-- Every value of the format is such a value, with either sign (R230). -/
theorem onGrid_valueOf (f : Fmt) (a : Frac) (neg : Bool) (y : Fp) : OnGrid f a (signFactor neg * valueOf f y) := by
  by_cases hunit : roundUnitExp f a ≤ unitExp f y
  · obtain ⟨j, hj⟩ := Int.eq_ofNat_of_zero_le (sub_nonneg.2 hunit)
    refine .inl ⟨(if neg then -1 else 1) * ((if signBit f y then -1 else 1) * (significand f y * 2 ^ j)), ?_⟩
    rw [valueOf_eq, signFactor_eq_intCast, signFactor_eq_intCast, ulp, eq_add_of_sub_eq' hj, zpow_add₀ two_ne_zero,
      zpow_natCast]
    push_cast
    ring
  · have hp := two_le_prec f
    have hmin := emin_le_unitExp f y
    have hsig : (significand f y : ℚ) < (2 ^ prec f : Nat) := by exact_mod_cast significand_lt f y
    have hexp : (prec f : ℤ) + unitExp f y ≤ (prec f - 1 : Nat) + roundUnitExp f a := by omega
    refine .inr ⟨fun he => hunit (by rw [roundUnitExp, he]; exact hmin), ?_⟩
    calc signFactor neg * valueOf f y ≤ |signFactor neg * valueOf f y| := le_abs_self _
      _ = significand f y * ulp f y := by rw [abs_mul, abs_signFactor, one_mul, abs_valueOf]
      _ < (2 ^ prec f : Nat) * ulp f y := mul_lt_mul_of_pos_right hsig (ulp_pos f y)
      _ = 2 ^ ((prec f : ℤ) + unitExp f y) := by
        rw [ulp, Nat.cast_pow, Nat.cast_ofNat, zpow_add₀ two_ne_zero, zpow_natCast]
      _ ≤ 2 ^ (((prec f - 1 : Nat) : ℤ) + roundUnitExp f a) := zpow_le_zpow_right₀ one_le_two hexp
      _ = (2 ^ (prec f - 1) : Nat) * 2 ^ roundUnitExp f a := by
        rw [Nat.cast_pow, Nat.cast_ofNat, zpow_add₀ two_ne_zero, zpow_natCast]

/-- Below the first power of two under the magnitude every value is farther away (R232). -/
theorem roundSig_nearer_than_fine {f : Fmt} {a : Frac} (hden : 0 < a.den) (hnum : a.num ≠ 0)
    (he : roundExp f a ≠ emin f) {w : ℚ} (hw : w < (2 ^ (prec f - 1) : Nat) * 2 ^ roundUnitExp f a) :
    |roundSig f a * 2 ^ roundUnitExp f a - a.toRat| < |w - a.toRat| := by
  obtain ⟨n, d, hd, hsig, hq⟩ := roundSig_eq_roundEven (f := f) hden
  have hu : (0 : ℚ) < 2 ^ roundUnitExp f a := by positivity
  have hle : ((2 ^ (prec f - 1) : Nat) : ℚ) * 2 ^ roundUnitExp f a ≤ a.toRat :=
    (le_div_iff₀ hu).1 (units_le_magnitude hden hnum he)
  have hnear := roundEven_nearest (n := n) hd (2 ^ (prec f - 1) : Nat)
  rw [Int.cast_natCast, ← hsig, hq] at hnear
  calc |roundSig f a * 2 ^ roundUnitExp f a - a.toRat|
      ≤ |(2 ^ (prec f - 1) : Nat) * 2 ^ roundUnitExp f a - a.toRat| := by
        rw [abs_sub_eq_units, abs_sub_eq_units]
        exact mul_le_mul_of_nonneg_right hnear hu.le
    _ = a.toRat - (2 ^ (prec f - 1) : Nat) * 2 ^ roundUnitExp f a := by
        rw [abs_sub_comm, abs_of_nonneg (sub_nonneg.2 hle)]
    _ < a.toRat - w := sub_lt_sub_left hw _
    _ ≤ |w - a.toRat| := by rw [abs_sub_comm]; exact le_abs_self _

/-- No value of the format is nearer to the magnitude (R232). -/
theorem roundSig_nearest {f : Fmt} {a : Frac} (hden : 0 < a.den) (hnum : a.num ≠ 0) {w : ℚ} (hw : OnGrid f a w) :
    |roundSig f a * 2 ^ roundUnitExp f a - a.toRat| ≤ |w - a.toRat| := by
  rcases hw with ⟨k, rfl⟩ | ⟨he, hw⟩
  · obtain ⟨n, d, hd, hsig, hq⟩ := roundSig_eq_roundEven (f := f) hden
    rw [abs_sub_eq_units, abs_sub_eq_units, hsig, ← hq]
    exact mul_le_mul_of_nonneg_right (roundEven_nearest hd k) (by positivity)
  · exact (roundSig_nearer_than_fine hden hnum he hw).le

/-- Where another value of the format is as near, the significand is even (R232). -/
theorem roundSig_even_of_equally_near {f : Fmt} {a : Frac} (hden : 0 < a.den) (hnum : a.num ≠ 0) {w : ℚ}
    (hw : OnGrid f a w) (hne : w ≠ roundSig f a * 2 ^ roundUnitExp f a)
    (hnear : |roundSig f a * 2 ^ roundUnitExp f a - a.toRat| = |w - a.toRat|) : roundSig f a % 2 = 0 := by
  rcases hw with ⟨k, rfl⟩ | ⟨he, hw⟩
  · obtain ⟨n, d, hd, hsig, hq⟩ := roundSig_eq_roundEven (f := f) hden
    have hu : (0 : ℚ) < 2 ^ roundUnitExp f a := by positivity
    rw [abs_sub_eq_units, abs_sub_eq_units, mul_left_inj' hu.ne', hsig, ← hq] at hnear
    rw [hsig] at hne ⊢
    refine roundEven_even_of_equally_near hd (fun hk => hne ?_) hnear
    rw [hk, Int.cast_natCast]
  · exact absurd hnear (roundSig_nearer_than_fine hden hnum he hw).ne

/-! The rounded pattern. -/

section rounded
variable {f : Fmt} {a : Frac} (hden : 0 < a.den) (hnum : a.num ≠ 0) (hfit : overflows f a = false) (neg : Bool)
include hden hnum hfit

/-- The value of a rounded magnitude with a sign (R232). -/
theorem valueOf_roundMag :
    valueOf f (withSign f neg (roundMag f a)) = signFactor neg * (roundSig f a * 2 ^ roundUnitExp f a) := by
  rw [roundMag, if_neg hnum]
  exact valueOf_packMag (isRounding_roundSig hden hnum hfit) neg

theorem abs_valueOf_roundMag_sub : |valueOf f (withSign f neg (roundMag f a)) - signFactor neg * a.toRat| =
    |roundSig f a * 2 ^ roundUnitExp f a - a.toRat| := by
  rw [valueOf_roundMag hden hnum hfit, ← mul_sub, abs_mul, abs_signFactor, one_mul]

/-- A rounded magnitude is within half a unit of its last place (R232). -/
theorem abs_valueOf_roundMag_sub_le : |valueOf f (withSign f neg (roundMag f a)) - signFactor neg * a.toRat| ≤
    ulp f (withSign f neg (roundMag f a)) / 2 := by
  have hulp := unit_le_ulp_packMag (isRounding_roundSig hden hnum hfit) neg
  have hround : roundMag f a = packMag f (roundSig f a) (roundExp f a) := if_neg hnum
  rw [abs_valueOf_roundMag_sub hden hnum hfit, hround]
  exact (abs_roundSig_sub_le hden).trans (div_le_div_of_nonneg_right hulp zero_le_two)

/-- No value of the format is nearer than a rounded magnitude (R232). -/
theorem roundMag_nearest (y : Fp) : |valueOf f (withSign f neg (roundMag f a)) - signFactor neg * a.toRat| ≤
    |valueOf f y - signFactor neg * a.toRat| := by
  rw [abs_valueOf_roundMag_sub hden hnum hfit, abs_sub_signFactor_mul]
  exact roundSig_nearest hden hnum (onGrid_valueOf f a neg y)

/-- Where another value of the format is as near, the significand of a rounded magnitude is even (R232). -/
theorem significand_roundMag_even {y : Fp} (hne : valueOf f y ≠ valueOf f (withSign f neg (roundMag f a)))
    (hnear : |valueOf f (withSign f neg (roundMag f a)) - signFactor neg * a.toRat| =
      |valueOf f y - signFactor neg * a.toRat|) : significand f (withSign f neg (roundMag f a)) % 2 = 0 := by
  rw [valueOf_roundMag hden hnum hfit] at hne
  rw [abs_valueOf_roundMag_sub hden hnum hfit, abs_sub_signFactor_mul] at hnear
  rw [roundMag, if_neg hnum]
  refine significand_packMag_even (isRounding_roundSig hden hnum hfit) neg
    (roundSig_even_of_equally_near hden hnum (onGrid_valueOf f a neg y) (fun hw => hne ?_) hnear)
  rw [← hw, ← mul_assoc, signFactor_mul_self, one_mul]

end rounded

/-- A magnitude of zero is rounded to the zero with its sign (R232, R233). -/
theorem valueOf_roundMag_zero {f : Fmt} {a : Frac} (hnum : a.num = 0) (neg : Bool) :
    valueOf f (withSign f neg (roundMag f a)) = 0 := by
  have hpos : 0 < allOnes f * 2 ^ (prec f - 1) := Nat.mul_pos (by simp [allOnes]) (Nat.two_pow_pos _)
  rw [roundMag, if_pos hnum, ← isZero_iff, isZero, expField_withSign hpos, fracField_withSign hpos, Nat.zero_div,
    Nat.zero_mod]
  rfl

/-! N.DEC2F. -/

theorem numeral_den_pos (n : Numeral) : 0 < n.magnitude.den := Nat.pow_pos (by decide)

/-- `val(t)` by its sign and its magnitude (R99). -/
theorem numeral_value_eq (n : Numeral) : n.value = signFactor n.neg * n.magnitude.toRat := by
  simp only [Numeral.value, signFactor, Frac.toRat, Numeral.magnitude, Nat.cast_pow, Nat.cast_ofNat]

theorem abs_numeral_value (n : Numeral) : |n.value| = n.magnitude.toRat := by
  have hnonneg : 0 ≤ n.magnitude.toRat := div_nonneg (Nat.cast_nonneg _) (Nat.cast_nonneg _)
  rw [numeral_value_eq, abs_mul, abs_signFactor, one_mul, abs_of_nonneg hnonneg]

/-- N.DEC2F is OVERFLOW where the magnitude overflows (R234). -/
theorem dec2fNumeral_eq_none_iff {f : Fmt} {n : Numeral} :
    dec2fNumeral f n = none ↔ overflows f n.magnitude = true := by
  simp [dec2fNumeral]

/-- N.DEC2F of a numeral that does not overflow is its rounded magnitude with its sign (R233, R234). -/
theorem dec2fNumeral_eq_some_iff {f : Fmt} {n : Numeral} {x : Fp} : dec2fNumeral f n = some x ↔
    overflows f n.magnitude = false ∧ withSign f n.neg (roundMag f n.magnitude) = x := by
  simp [dec2fNumeral]

/-- Settles O42: every value of the format is on the grid the magnitude is rounded to, or below the power of two under
the magnitude and so farther away. -/
theorem dec2fIsTheNearestValue : Obligations.Dec2fIsTheNearestValue := by
  intro f t n x hn hx
  rw [dec2f_of_parseNum hn] at hx
  have hvalue := dec2fNumeral_isValue hx
  obtain ⟨hfit, rfl⟩ := dec2fNumeral_eq_some_iff.1 hx
  have hden := numeral_den_pos n
  refine ⟨hvalue, signBit_withSign (roundMag_lt hden hfit) n.neg, ?_⟩
  rw [numeral_value_eq]
  by_cases hnum : n.magnitude.num = 0
  · have hzero : n.magnitude.toRat = 0 := by rw [Frac.toRat, hnum, Nat.cast_zero, zero_div]
    rw [valueOf_roundMag_zero hnum, hzero, mul_zero, sub_zero, abs_zero]
    refine ⟨fun y _ => abs_nonneg _, fun y _ hne hnear => absurd ?_ hne⟩
    rwa [sub_zero, eq_comm, abs_eq_zero] at hnear
  · exact ⟨fun y _ => roundMag_nearest hden hnum hfit n.neg y,
      fun y _ => significand_roundMag_even hden hnum hfit n.neg⟩

/-- The bound of R234 as a rational. -/
theorem overflowBound_cast (f : Fmt) :
    (overflowBound f : ℚ) = (2 - (2 : ℚ) ^ (-(prec f : ℤ))) * (2 : ℚ) ^ emax f := by
  have hp := prec_le_emax f
  have hsplit : (2 : ℚ) ^ emax f = 2 ^ prec f * 2 ^ (emax f - prec f) := by rw [← pow_add]; congr 1; omega
  rw [overflowBound, Nat.cast_mul, Nat.cast_sub Nat.one_le_two_pow, hsplit, zpow_neg, zpow_natCast]
  push_cast
  field_simp
  ring

/-- OVERFLOW compares the magnitude with the bound of R234. -/
theorem overflows_iff {f : Fmt} {a : Frac} (hden : 0 < a.den) :
    overflows f a = true ↔ (overflowBound f : ℚ) ≤ a.toRat := by
  have hd : (0 : ℚ) < a.den := by exact_mod_cast hden
  rw [← Bool.not_eq_false, overflows_eq_false_iff, not_lt, Frac.toRat, le_div_iff₀ hd, mul_comm]
  exact_mod_cast Iff.rfl

/-- Settles O43: the test of N.DEC2F is the comparison of the magnitude with the bound. -/
theorem dec2fOverflowsExactlyFromTheThreshold : Obligations.Dec2fOverflowsExactlyFromTheThreshold := by
  intro f t n hn
  rw [dec2f_of_parseNum hn, dec2fNumeral_eq_none_iff, overflows_iff (numeral_den_pos n), overflowBound_cast,
    abs_numeral_value]

/-! N.DIV100. -/

/-- The magnitude of the exact quotient by 100 (R236). -/
def quotientBy100 (f : Fmt) (x : Fp) : Frac := { num := (magnitude f x).num, den := (magnitude f x).den * 100 }

theorem quotientBy100_den_pos (f : Fmt) (x : Fp) : 0 < (quotientBy100 f x).den :=
  Nat.mul_pos (magnitude_den_pos f x) (by decide)

theorem quotientBy100_toRat (f : Fmt) (x : Fp) : (quotientBy100 f x).toRat = |valueOf f x| / 100 := by
  rw [← toRat_magnitude, Frac.toRat, Frac.toRat, quotientBy100, Nat.cast_mul, div_div, Nat.cast_ofNat]

/-- The exact quotient by 100, by its sign and its magnitude (R236). -/
theorem valueOf_div_100 (f : Fmt) (x : Fp) :
    valueOf f x / 100 = signFactor (signBit f x) * (quotientBy100 f x).toRat := by
  rw [quotientBy100_toRat, abs_valueOf, valueOf_eq, mul_div_assoc]

theorem quotientBy100_num_ne_zero {f : Fmt} {x : Fp} (h : valueOf f x ≠ 0) : (quotientBy100 f x).num ≠ 0 := by
  intro hnum
  have hzero := quotientBy100_toRat f x
  rw [Frac.toRat, hnum, Nat.cast_zero, zero_div, eq_comm, div_eq_zero_iff, abs_eq_zero] at hzero
  exact h (hzero.resolve_right (by norm_num))

/-- Settles O45: the rounding is to within half a unit of the exact quotient, and a zero is returned as it is. -/
theorem div100IsWithinHalfAnUlp : Obligations.Div100IsWithinHalfAnUlp := by
  intro f x hx
  refine ⟨div100_isValue hx, ?_⟩
  by_cases hzero : valueOf f x = 0
  · have hulp := ulp_pos f x
    rw [div100_zero hx (isZero_iff.2 hzero), hzero, zero_div, sub_zero, abs_zero]
    exact ⟨rfl, by positivity, fun _ => rfl⟩
  · have hdiv : div100 f x = withSign f (signBit f x) (roundMag f (quotientBy100 f x)) :=
      div100_value hx (Bool.eq_false_iff.2 (mt isZero_iff.1 hzero))
    have hden := quotientBy100_den_pos f x
    have hfit : overflows f (quotientBy100 f x) = false := overflows_div100 hx
    rw [hdiv, valueOf_div_100]
    exact ⟨signBit_withSign (roundMag_lt hden hfit) _,
      abs_valueOf_roundMag_sub_le hden (quotientBy100_num_ne_zero hzero) hfit _, fun h => absurd h hzero⟩

end Sys2Proof.Machine
end

section
/-! PROOFS. N.NEG inverts the sign bit alone (44_numerics R230, R237). -/
namespace Sys2Proof.Machine

theorem toNat_signMask (f : Fmt) : ((1#64 : Fp) <<< (width f - 1)).toNat = 2 ^ (width f - 1) := by cases f <;> rfl

theorem toNat_negate (f : Fmt) (x : Fp) : (negate f x).toNat = x.toNat ^^^ 2 ^ (width f - 1) := by
  rw [negate, BitVec.toNat_xor, toNat_signMask]

@[simp] theorem negate_negate (f : Fmt) (x : Fp) : negate f (negate f x) = x := by
  rw [negate, negate, BitVec.xor_assoc, BitVec.xor_self, BitVec.xor_zero]

@[simp] theorem signBit_negate (f : Fmt) (x : Fp) : signBit f (negate f x) = !signBit f x := by
  rw [signBit, BitVec.getLsbD, toNat_negate, Nat.testBit_xor, Nat.testBit_two_pow_self, Bool.xor_true]
  rfl

/-- The sign bit stands above the exponent field (R230). -/
@[simp] theorem expField_negate (f : Fmt) (x : Fp) : expField f (negate f x) = expField f x := by
  rw [expField, expField, toNat_negate, Nat.xor_div_two_pow, Nat.xor_mod_two_pow, two_pow_signBit,
    Nat.mul_div_cancel_left _ (Nat.two_pow_pos _), Nat.mod_self, Nat.xor_zero]

/-- The sign bit stands above the fraction field (R230). -/
@[simp] theorem fracField_negate (f : Fmt) (x : Fp) : fracField f (negate f x) = fracField f x := by
  rw [fracField, fracField, toNat_negate, Nat.xor_mod_two_pow, two_pow_signBit, Nat.mul_mod_right, Nat.xor_zero]

/-- The significand and the unit are made of the fields N.NEG keeps (R230, R237). -/
@[simp] theorem valueOf_negate (f : Fmt) (x : Fp) : valueOf f (negate f x) = -valueOf f x := by
  rw [valueOf_eq, valueOf_eq, signBit_negate, signFactor_not, neg_mul, ulp, ulp, significand, significand, unitExp,
    unitExp, expField_negate, fracField_negate]

/-- Settles O41: the sign bit is above the other fields, and the value is made of them and the sign. -/
theorem negateChangesTheSignAlone : Obligations.NegateChangesTheSignAlone := fun f x =>
  ⟨negate_negate f x, signBit_negate f x, expField_negate f x, fracField_negate f x, valueOf_negate f x⟩

end Sys2Proof.Machine
end

section
/-! PROOFS. N.FMT: the digits of the rounded magnitude (44_numerics R239). -/
namespace Sys2Proof.Machine

/-! The integer digits. -/

/-- The first of `k + 1` digits is the digit of weight `10^k`. -/
theorem head?_decFixed_succ (k v : Nat) :
    (decFixed (k + 1) v).head? = some (BitVec.ofNat 8 (0x30 + v / 10 ^ k % 10)) := by
  induction k generalizing v with
  | zero => rw [pow_zero, Nat.div_one]; rfl
  | succ k ih => rw [decFixed, List.head?_append, ih, Nat.div_div_eq_div_mul, ← Nat.pow_succ']; rfl

/-- `decDigits` counts no more digits than a number has. -/
theorem exists_decDigits_eq_succ (fuel : Nat) {v : Nat} (hv : v ≠ 0) : ∃ k, decDigits fuel v = k + 1 ∧ 10 ^ k ≤ v := by
  induction fuel generalizing v with
  | zero => exact ⟨0, rfl, Nat.one_le_iff_ne_zero.2 hv⟩
  | succ fuel ih =>
    rw [decDigits]
    split
    · exact ⟨0, rfl, Nat.one_le_iff_ne_zero.2 hv⟩
    · obtain ⟨k, hk, hle⟩ := ih (v := v / 10) (by omega)
      exact ⟨k + 1, by rw [hk], by rw [Nat.pow_succ]; omega⟩

/-- `dec` has as many digits as the number needs (R239). -/
theorem exists_decText_eq {v : Nat} (hv : v ≠ 0) :
    ∃ k, decText v = decFixed (k + 1) v ∧ 10 ^ k ≤ v ∧ v < 10 ^ (k + 1) := by
  obtain ⟨k, hk, hle⟩ := exists_decDigits_eq_succ (Nat.log2 v + 1) hv
  have hfuel : v < 10 ^ (Nat.log2 v + 1) := Nat.lt_log2_self.trans_le (Nat.pow_le_pow_left (by decide) _)
  exact ⟨k, by rw [decText, hk], hle, hk ▸ lt_pow_decDigits hfuel⟩

/-- `dec` of a number other than zero starts with a digit from 1 to 9 (R239). -/
theorem head?_decText {v : Nat} (hv : v ≠ 0) :
    ∃ c, (decText v).head? = some (BitVec.ofNat 8 (0x30 + c)) ∧ 0 < c ∧ c < 10 := by
  obtain ⟨k, htext, hle, hlt⟩ := exists_decText_eq hv
  have hc : v / 10 ^ k < 10 := Nat.div_lt_of_lt_mul (Nat.pow_succ .. ▸ hlt)
  exact ⟨v / 10 ^ k, by rw [htext, head?_decFixed_succ, Nat.mod_eq_of_lt hc],
    Nat.div_pos hle (Nat.pow_pos (by decide)), hc⟩

theorem decText_zero : decText 0 = [0x30#8] := by decide

theorem decText_ne_nil (v : Nat) : decText v ≠ [] := by
  by_cases hv : v = 0
  · rw [hv, decText_zero]
    nofun
  · obtain ⟨c, hhead, _⟩ := head?_decText hv
    intro hnil
    rw [hnil] at hhead
    cases hhead

/-- `dec` has no leading zero (R239). -/
theorem decText_eq_zero_of_head? {v : Nat} (h : (decText v).head? = some 0x30#8) : decText v = [0x30#8] := by
  by_cases hv : v = 0
  · rw [hv, decText_zero]
  · obtain ⟨c, hhead, hpos, hlt⟩ := head?_decText hv
    have hbyte := congrArg BitVec.toNat (Option.some.inj (hhead.symm.trans h))
    simp only [BitVec.toNat_ofNat] at hbyte
    omega

/-- The digits before and after the point read as the rounded integer (R239). -/
theorem readDigits_decText_append_decFixed (m n : Nat) :
    readDigits (decText (m / 10 ^ n) ++ decFixed n (m % 10 ^ n)) 0 = m := by
  rw [readDigits_append, readDigits_decText, readDigits_decFixed, Nat.mod_mod, Nat.div_add_mod']

/-! The rounded integer. -/

/-- The exact magnitude in units of the last digit (R239). -/
theorem scaled_magnitude (f : Fmt) (x : Fp) (n : Nat) :
    (((magnitude f x).num * 10 ^ n : Nat) : ℚ) / (magnitude f x).den = |valueOf f x| * 10 ^ n := by
  rw [← toRat_magnitude, Frac.toRat]
  push_cast
  rw [div_mul_eq_mul_div]

/-- Settles O46: the text is the sign, `dec` and `dec_n` of the rounded integer, which is the nearest one. -/
theorem decimalTextIsCorrectlyRounded : Obligations.DecimalTextIsCorrectlyRounded := by
  intro f x n hx
  have hden := magnitude_den_pos f x
  refine ⟨_, _, fmtText_value hx n, decText_ne_nil _, fun b hb => ?_, decFixed_length _ _, decText_eq_zero_of_head?, ?_⟩
  · rcases List.mem_append.1 hb with hb | hb
    · exact decFixed_digits hb
    · exact decFixed_digits hb
  · rw [readDigits_decText_append_decFixed, scaledInt, ← scaled_magnitude]
    exact ⟨abs_roundEven_sub_le hden, roundEven_even_of_tie hden⟩

end Sys2Proof.Machine
end

section
/-! PROOFS. The log only grows, and one operation raises at most one exception: the queue operations, the parser and the
dispatcher log at most one event, and before D.HANDLE the framer logs a Sentence, which is none (10_state R41;
60_exceptions R268). -/
namespace Sys2Proof.Machine

/-! The events of the queue operations (R133, R136, R139, R141, R142). -/

/-- An exception is recorded as one event, last in the log (R41, R260). -/
@[simp] theorem raiseExc_ev (e : Exc) (s : State) : (raiseExc e s).ev = s.ev ++ [e.event] := by cases e <;> rfl

@[simp] theorem writeWord_ev (q : Link) (b : Byte) (s : State) : (writeWord q b s).ev = s.ev := by
  rw [writeWord_eq]
  rcases qWrite_cases q b s with ⟨_, e⟩ | ⟨_, e⟩ <;> rw [e] <;> rfl

theorem qRead_ev {q : Link} {s t : State} {r : Option Byte} (h : qRead q s = .ok (r, t)) : t.ev = s.ev := by
  rcases qRead_cases q s with ⟨_, e⟩ | ⟨_, b, _, e⟩ | ⟨_, _, e⟩ <;> rw [e] at h <;> cases h <;> rfl

theorem readWord_ev {q : Link} {s t : State} (h : readWord q s = .next t) : t.ev = s.ev := by
  obtain ⟨r, u, hu, rfl⟩ := readWord_next h
  exact (record_ev _ u).trans (qRead_ev hu)

theorem execPortHqread_ev {s t : State} (h : execPortHqread s = .next t) : t.ev = s.ev := by
  obtain ⟨r, u, hu, rfl⟩ := execPortHqread_next h
  exact (driveHq_ev r u).trans (qRead_ev hu)

@[simp] theorem qSyncW_ev (q : Link) (mv : Move) (s : State) : (qSyncW q mv s).ev = s.ev := by
  cases hm : s.cfg.syncMode with
  | exact => rw [(qSync_exact hm q mv).1]
  | lagged => rw [qSyncW_lagged hm, setQueue_ev]

@[simp] theorem qSyncR_ev (q : Link) (mv : Move) (s : State) : (qSyncR q mv s).ev = s.ev := by
  cases hm : s.cfg.syncMode with
  | exact => rw [(qSync_exact hm q mv).2]
  | lagged => rw [qSyncR_lagged hm, setQueue_ev]

/-! The exceptions among the events. -/

/-- The events that record an exception (R41, R260). -/
def isException : Event → Bool
  | .queueFull _ _ | .sentenceOverflow _ | .parseError _ => true
  | .sentence _ | .fixUpdate _ => false

/-- The log grows by events of which at most one is an exception (R268). -/
def RaisesAtMostOne (s t : State) : Prop := ∃ evs, t.ev = s.ev ++ evs ∧ (evs.filter isException).length ≤ 1

namespace RaisesAtMostOne

variable {s t u : State}

theorem of_ev_eq (h : t.ev = s.ev) : RaisesAtMostOne s t := ⟨[], by rw [h, List.append_nil], Nat.zero_le 1⟩

theorem of_one_event {e : Event} (h : t.ev = s.ev ++ [e]) : RaisesAtMostOne s t :=
  ⟨[e], h, List.length_filter_le isException [e]⟩

/-- What was logged before counts for nothing if it holds no exception. -/
theorem after_events {es : List Event} (hev : u.ev = s.ev ++ es) (hes : es.filter isException = [])
    (h : RaisesAtMostOne u t) : RaisesAtMostOne s t := by
  obtain ⟨evs, ht, hlen⟩ := h
  exact ⟨es ++ evs, by rw [ht, hev, List.append_assoc], by rwa [List.filter_append, hes, List.nil_append]⟩

theorem pArrive (q : Link) (b : Byte) (s : State) : RaisesAtMostOne s (pArrive q b s) := by
  rcases pArrive_cases q b s with ⟨_, e⟩ | ⟨_, e⟩ <;> rw [e]
  · exact of_one_event (raiseExc_ev _ _)
  · exact of_ev_eq rfl

/-- X.PARSE commits or raises, not both (R207, R209, R210). -/
theorem xParse (x : List Byte) (s : State) : RaisesAtMostOne s (xParse x s).2 := by
  rcases xParse_cases x s with ⟨r, _, e⟩ | ⟨_, e⟩ <;> rw [e]
  · exact of_one_event (commitFix_ev r s)
  · exact of_one_event rfl

theorem dHandle (x : List Byte) (s : State) : RaisesAtMostOne s (dHandle x s) := by
  rcases dHandle_cases x s with ⟨_, e⟩ | ⟨_, r, _, e⟩ | ⟨_, _, e⟩ <;> rw [e]
  · exact of_ev_eq rfl
  · exact of_one_event rfl
  · exact of_one_event rfl

/-- SentenceOverflow occurs on a DATA byte alone, ParseError on a TERM byte alone, behind its Sentence (R160, R268). -/
theorem fFeed {b : Byte} (h : fFeed b s = .next t) : RaisesAtMostOne s t := by
  rcases fFeed_cases b s with ⟨_, _, e⟩ | ⟨_, _, x, _, e⟩ | ⟨_, _, _, e⟩ | ⟨_, _, e⟩ | ⟨_, _, e⟩ <;> rw [e] at h <;>
    cases h
  · exact of_ev_eq rfl
  · exact after_events (logEvent_ev (.sentence x) s) rfl (dHandle x _)
  · exact of_ev_eq rfl
  · exact of_one_event (raiseExc_ev _ s)

/-- Q.READ leaves the log, and the byte it takes is fed once (R166). -/
theorem cStep (h : cStep s = .next t) : RaisesAtMostOne s t := by
  rcases cStep_cases s with ⟨_, e⟩ | ⟨_, b, _, e⟩ | ⟨_, _, e⟩ <;> rw [e] at h
  · exact next_elim h (of_ev_eq rfl)
  · exact after_events (u := s.setQueue _ _) (List.append_nil _).symm rfl (fFeed h)
  · cases h

/-- RESET alone empties the log. The rows of one operation share one case (log 5). -/
theorem exec {i : Instr} (hreset : i ≠ .reset) (h : exec i s = .next t) : RaisesAtMostOne s t := by
  cases i with
  | reset => exact absurd rfl hreset
  | arriveOk q b | arriveFull q b | portArrive q b => exact next_elim h (pArrive q b s)
  | writeOk q b | writeFull q b => exact next_elim h (of_ev_eq (writeWord_ev q b s))
  | readSome q | readNone q => exact of_ev_eq (readWord_ev h)
  | portHqread => exact of_ev_eq (execPortHqread_ev h)
  | syncw q mv => exact next_elim h (of_ev_eq (qSyncW_ev q mv s))
  | syncr q mv => exact next_elim h (of_ev_eq (qSyncR_ev q mv s))
  | stepByte | stepEmpty => exact cStep h
  | feed b | feedData b | feedOvf b => exact fFeed h
  | feedTermCr => exact fFeed (b := chCR) h
  | feedTermLf => exact fFeed (b := chLF) h
  | handleFix x | handleEcho x => exact next_elim h (dHandle x s)
  | parseOk x | parseErr x => exact next_elim h (xParse x s)
  | init q | portIdle q d | portHqidle | oLine x | dec2f x | div100 x | neg x | fmt x n =>
    exact next_elim h (of_ev_eq rfl)
  | reserved9 x | reservedA x | reservedB x | reservedC x | reservedD x | reservedE x | reservedF x => cases h

end RaisesAtMostOne

/-- Settles O55: of all the operations only a TERM byte logs more than one event, a Sentence before what D.HANDLE logs. -/
theorem atMostOneExceptionPerOperation : Obligations.AtMostOneExceptionPerOperation := by
  intro i s t hreset h
  obtain ⟨evs, hev, hlen⟩ := RaisesAtMostOne.exec hreset h
  refine ⟨evs, hev, (congrArg List.length (List.filter_congr fun e _ => ?_)).trans_le hlen⟩
  cases e <;> rfl

end Sys2Proof.Machine
end

section
/-! PROOFS. RESET leaves the values of the reset table, and the cells as they were (10_state R44; 70_reset_and_hazards
R300). -/
namespace Sys2Proof.Machine

/-- Each queue is fresh again but for its cells, which RESET does not write (R44, R300). -/
theorem bootReset_queue (s : State) (q : Link) : (bootReset s).queue q = { Queue.fresh with qst := s.qst q } := by
  obtain ⟨tx, e⟩ := bootReset_eq s
  rw [e]
  cases q <;> rfl

/-- Settles O8: the two queues are `bootReset_queue`, the parameters, script and turn `bootReset_keepsModel`, and every
other field stands in `bootReset_eq`. -/
theorem resetLeavesTheSpecValues : Obligations.ResetLeavesTheSpecValues := by
  intro s
  obtain ⟨tx, e⟩ := bootReset_eq s
  have hout : (bootReset s).out = bannerBytes s.cfg.banner := by rw [e]
  refine ⟨bootReset s, rfl, fun q => ?queues, by rw [e], fun a => by rw [e], by rw [e]; rfl, by rw [e], by rw [e],
    fun hnone => ?noBanner, fun text hsome => ?banner, by rw [e], bootReset_keepsModel s⟩
  case queues =>
    simp only [State.head, State.tail, State.tailW, State.headR, State.qst, bootReset_queue, Queue.fresh, and_self,
      implies_true]
  case noBanner => rw [hout, hnone]; rfl
  case banner => rw [hout, hsome]; rfl

end Sys2Proof.Machine
end

section
/-! PROOFS. No step from a good state faults: the cells an operation reads are written (20_memory R68; 70_reset_and_hazards
R302; log 2). -/
namespace Sys2Proof.Machine

/-- An operation that goes on does not fault. -/
theorem ne_fault_of_next {o : Out} {t : State} (h : o = .next t) (f : Fault) : o ≠ .fault f := by
  rw [h]
  exact nofun

/-- Q.READ of a good queue completes: a byte seen is a byte written (R68). -/
theorem QueueInv.qRead_completes {q : Link} {s : State} (h : QueueInv s.cfg.syncMode (s.queue q)) :
    ∃ r t, qRead q s = .ok (r, t) := by
  obtain ⟨x, hx⟩ := h.written
  have hholds : QueueHolds q s x := ⟨h, hx⟩
  obtain ⟨r, t, _, hread, _⟩ := hholds.qRead
  exact ⟨r, t, hread⟩

namespace Inv

variable {s : State}

theorem takeStim (h : Inv s) (rest : List Stim) : Inv (s.takeStim rest) := h.congr rfl rfl rfl rfl rfl rfl

theorem takeTurn (h : Inv s) : Inv s.takeTurn := h.congr rfl rfl rfl rfl rfl rfl

/-- No operation faults in a good state: only Q.READ and F.FEED read cells, and these complete. -/
theorem exec_ne_fault (h : Inv s) (i : Instr) (f : Fault) : Machine.exec i s ≠ .fault f := by
  cases i with
  | readSome q | readNone q =>
    obtain ⟨r, t, hread⟩ := (h.queues q).qRead_completes
    have hword : Machine.readWord q s = .next (Machine.record (.read r) t) := by rw [Machine.readWord, hread]
    exact ne_fault_of_next hword f
  | portHqread =>
    obtain ⟨r, t, hread⟩ := (h.queues s.cfg.hostLink).qRead_completes
    have hport : execPortHqread s = .next (driveHq r t) := by rw [execPortHqread, hread]
    exact ne_fault_of_next hport f
  | stepByte | stepEmpty =>
    obtain ⟨t, ht, _⟩ := cStep_completes h
    exact ne_fault_of_next ht f
  | feed b | feedData b | feedOvf b =>
    obtain ⟨t, ht⟩ := h.framer.fFeed_completes b
    exact ne_fault_of_next ht f
  | feedTermCr =>
    obtain ⟨t, ht⟩ := h.framer.fFeed_completes chCR
    exact ne_fault_of_next ht f
  | feedTermLf =>
    obtain ⟨t, ht⟩ := h.framer.fFeed_completes chLF
    exact ne_fault_of_next ht f
  | reset | init q | arriveOk q b | arriveFull q b | portArrive q b | writeOk q b | writeFull q b | syncw q mv
  | syncr q mv | portIdle q d | portHqidle | handleFix x | handleEcho x | parseOk x | parseErr x | oLine x | dec2f x
  | div100 x | neg x | fmt x n => exact ne_fault_of_next rfl f
  | reserved9 x | reservedA x | reservedB x | reservedC x | reservedD x | reservedE x | reservedF x => exact nofun

end Inv

/-- Settles O49: a step is a refusal or one operation, from a state that differs in script, turn and pins only. -/
theorem noStepFromAGoodStateFaults : Obligations.NoStepFromAGoodStateFaults := by
  intro s f h
  cases hs : s.script with
  | nil =>
    rw [step_turn hs]
    exact h.takeTurn.exec_ne_fault _ f
  | cons x rest =>
    cases hd : decode x with
    | ok i =>
      rw [step_stim hs hd]
      exact (h.takeStim rest).exec_ne_fault i f
    | error e =>
      rw [step_illFormed hs hd]
      exact nofun

end Sys2Proof.Machine
end

section
/-! PROOFS. With no stimulus pending the GNSS queue drains: the turns bring a Q.SYNCR of it and then a C.STEP, and no turn
undoes what they do (70_reset_and_hazards R322; 20_memory R77; log 4). -/
namespace Sys2Proof.Machine

/-! The count and the consumer's view under the operations of the turns. -/

/-- Replacing a queue's record by one with the same indices changes no count. -/
theorem setQueue_count_of_eq {s : State} {q : Link} {v : Queue} (hhead : v.prod.head = s.head q)
    (htail : v.cons.tail = s.tail q) (r : Link) : count (s.setQueue q v) r = count s r := by
  by_cases hr : r = q
  · subst hr
    simp only [count, State.head, State.tail, setQueue_queue_same, hhead, htail]
  · simp only [count, State.head, State.tail, setQueue_queue_other s hr]

theorem qSyncW_count (q : Link) (mv : Move) (s : State) (r : Link) : count (qSyncW q mv s) r = count s r := by
  cases hm : s.cfg.syncMode with
  | exact => rw [(qSync_exact hm q mv).1]
  | lagged =>
    rw [qSyncW_lagged hm]
    refine setQueue_count_of_eq ?_ ?_ r
    · rfl
    · rfl

theorem qSyncR_count (q : Link) (mv : Move) (s : State) (r : Link) : count (qSyncR q mv s) r = count s r := by
  cases hm : s.cfg.syncMode with
  | exact => rw [(qSync_exact hm q mv).2]
  | lagged =>
    rw [qSyncR_lagged hm]
    refine setQueue_count_of_eq ?_ ?_ r
    · rfl
    · rfl

/-- C.STEP puts nothing into the GNSS queue (R166). -/
theorem cStep_count_le {s t : State} (h : Inv s) (hc : cStep s = .next t) :
    count t s.cfg.gnssLink ≤ count s s.cfg.gnssLink := by
  rcases cStep_cases s with ⟨_, e⟩ | ⟨hsome, b, _, e⟩ | ⟨_, _, e⟩ <;> rw [e] at hc
  · cases hc
    exact Nat.le_refl _
  · have hone : 1 ≤ (s.head s.cfg.gnssLink - s.tail s.cfg.gnssLink).toNat :=
      (h.queues s.cfg.gnssLink).one_le_count hsome
    simp only [count, State.head, State.tail, State.queue, fFeed_queues hc, setQueue_queues, Pair.get_set_same,
      settle_head, settle_tail]
    exact (toNat_sub_succ hone).trans_le (Nat.sub_le _ _)
  · cases hc

/-- Replacing a queue's record leaves the GNSS queue seen in full where the new record, if it is that queue's, is. -/
theorem SeenInFull.setQueue {s : State} (h : SeenInFull s) {q : Link} {v : Queue}
    (hv : s.cfg.gnssLink = q → v.cons.headR = v.prod.head) : SeenInFull (s.setQueue q v) := by
  by_cases hq : s.cfg.gnssLink = q
  · simp only [SeenInFull, State.headR, State.head, setQueue_cfg, hq, setQueue_queue_same, hv hq]
  · simp only [SeenInFull, State.headR, State.head, setQueue_cfg, setQueue_queue_other s hq]
    exact h

/-- Q.SYNCW moves nothing the consumer's view speaks of (R141). -/
theorem SeenInFull.qSyncW {s : State} (h : SeenInFull s) (q : Link) (mv : Move) : SeenInFull (qSyncW q mv s) := by
  cases hm : s.cfg.syncMode with
  | exact => rwa [(qSync_exact hm q mv).1]
  | lagged =>
    rw [qSyncW_lagged hm]
    refine h.setQueue fun hq => ?_
    subst hq
    exact h

/-- A full Q.SYNCR of the GNSS queue shows all of it (R142). -/
theorem seenInFull_qSyncR_gnssLink {s : State} (h : Inv s) : SeenInFull (qSyncR s.cfg.gnssLink .full s) := by
  obtain ⟨hcfg, _, _⟩ := qSyncR_keepsModel s.cfg.gnssLink .full s
  obtain ⟨hview, _, _⟩ := qSyncR_full_views (h.queues s.cfg.gnssLink)
  rw [SeenInFull, hcfg, hview]

/-- A full Q.SYNCR of either queue leaves what is seen in full so (R142). -/
theorem SeenInFull.qSyncR {s : State} (h : SeenInFull s) (hgood : Inv s) (q : Link) :
    SeenInFull (qSyncR q .full s) := by
  by_cases hq : s.cfg.gnssLink = q
  · subst hq
    exact seenInFull_qSyncR_gnssLink hgood
  · cases hm : s.cfg.syncMode with
    | exact => rwa [(qSync_exact hm q .full).2]
    | lagged =>
      rw [qSyncR_lagged hm]
      exact h.setQueue fun e => absurd e hq

/-! How far the turns have come. -/

/-- The GNSS queue on its way to one byte less: nothing done yet; all of it seen; a byte taken. -/
inductive DrainStage where
  | waiting
  | seen
  | taken

namespace DrainStage

/-- What a stage says of a state, where the queue held at most `n` bytes at first. -/
def Holds (n : Nat) (s : State) : DrainStage → Prop
  | waiting => count s s.cfg.gnssLink ≤ n
  | seen => SeenInFull s ∧ count s s.cfg.gnssLink ≤ n
  | taken => count s s.cfg.gnssLink ≤ n - 1

/-- The stage after a full Q.SYNCR of queue `r`, where `q` is the GNSS queue. -/
def afterSyncR (q r : Link) : DrainStage → DrainStage
  | waiting => if r = q then seen else waiting
  | seen => seen
  | taken => taken

/-- The stage after a C.STEP. -/
def afterStep : DrainStage → DrainStage
  | waiting => waiting
  | seen => taken
  | taken => taken

/-- The stage after the operation of a turn. -/
def afterTurn (q : Link) (st : DrainStage) : Turn → DrainStage
  | .cons => st.afterStep
  | .syncW0 => st
  | .syncR0 => st.afterSyncR q .link0
  | .syncW1 => st
  | .syncR1 => st.afterSyncR q .link1

/-- The stage after `k` turns. -/
def afterTurns (q : Link) : Nat → DrainStage → Turn → DrainStage
  | 0, st, _ => st
  | k + 1, st, turn => afterTurns q k (st.afterTurn q turn) turn.after

/-- Two rounds bring a Q.SYNCR of the GNSS queue and a C.STEP behind it, whichever turn is first. -/
theorem afterTurns_ten (q : Link) (turn : Turn) : afterTurns q 10 waiting turn = taken := by
  cases q <;> cases turn <;> rfl

variable {n : Nat} {s t : State} {st : DrainStage}

theorem Holds.qSyncW (h : st.Holds n s) (q : Link) (mv : Move) : st.Holds n (qSyncW q mv s) := by
  obtain ⟨hcfg, _, _⟩ := qSyncW_keepsModel q mv s
  have hcount := qSyncW_count q mv s s.cfg.gnssLink
  cases st with
  | waiting => rwa [Holds, hcfg, hcount]
  | seen =>
    obtain ⟨hseen, hle⟩ := h
    exact ⟨hseen.qSyncW q mv, by rwa [hcfg, hcount]⟩
  | taken => rwa [Holds, hcfg, hcount]

theorem Holds.qSyncR (h : st.Holds n s) (hgood : Inv s) (q : Link) :
    (st.afterSyncR s.cfg.gnssLink q).Holds n (qSyncR q .full s) := by
  obtain ⟨hcfg, _, _⟩ := qSyncR_keepsModel q .full s
  have hcount := qSyncR_count q .full s s.cfg.gnssLink
  cases st with
  | waiting =>
    have hle : count (Machine.qSyncR q .full s) (Machine.qSyncR q .full s).cfg.gnssLink ≤ n := by
      rw [hcfg, hcount]
      exact h
    rw [afterSyncR]
    split
    · next hq =>
      subst hq
      exact ⟨seenInFull_qSyncR_gnssLink hgood, hle⟩
    · exact hle
  | seen =>
    obtain ⟨hseen, hle⟩ := h
    exact ⟨hseen.qSyncR hgood q, by rwa [hcfg, hcount]⟩
  | taken => rwa [afterSyncR, Holds, hcfg, hcount]

/-- Where all of the queue is seen, C.STEP takes a byte, unless it is empty (R166). -/
theorem Holds.cStep (h : st.Holds n s) (hgood : Inv s) (hc : cStep s = .next t) : st.afterStep.Holds n t := by
  obtain ⟨hcfg, _, _⟩ := cStep_keepsModel hc
  have hle : count t t.cfg.gnssLink ≤ count s s.cfg.gnssLink := by
    rw [hcfg]
    exact cStep_count_le hgood hc
  cases st with
  | waiting => exact hle.trans h
  | taken => exact hle.trans h
  | seen =>
    obtain ⟨hseen, hbound⟩ := h
    cases hcount : count s s.cfg.gnssLink with
    | zero =>
      exact hle.trans (hcount.trans_le (Nat.zero_le _))
    | succ k =>
      obtain ⟨u, hu, _, _, hcountU, _⟩ := cStep_takes_one hgood hseen hcount
      cases hu.symm.trans hc
      exact hcountU.trans_le (Nat.le_sub_one_of_lt (hcount.symm.trans_le hbound))

/-- The operation of a turn completes in a good state and brings the stage forward (R322). -/
theorem Holds.exec_turn (h : st.Holds n s) (hgood : Inv s) (turn : Turn) :
    ∃ t, exec turn.op s = .next t ∧ (st.afterTurn s.cfg.gnssLink turn).Holds n t := by
  cases turn with
  | cons =>
    obtain ⟨t, ht, _⟩ := cStep_completes hgood
    exact ⟨t, ht, h.cStep hgood ht⟩
  | syncW0 => exact ⟨_, rfl, h.qSyncW .link0 .full⟩
  | syncR0 => exact ⟨_, rfl, h.qSyncR hgood .link0⟩
  | syncW1 => exact ⟨_, rfl, h.qSyncW .link1 .full⟩
  | syncR1 => exact ⟨_, rfl, h.qSyncR hgood .link1⟩

theorem Holds.takeTurn (h : st.Holds n s) : st.Holds n s.takeTurn := by
  cases st <;> exact h

/-- A run with no stimulus pending is a run of turns, each from a good state (R322). -/
theorem Holds.run (k : Nat) (h : st.Holds n s) (hgood : Inv s) (hscript : s.script = []) :
    ∃ t, Host.Core.run core k s = .next t ∧ t.cfg = s.cfg ∧ (st.afterTurns s.cfg.gnssLink k s.turn).Holds n t := by
  induction k generalizing s st with
  | zero => exact ⟨s, rfl, rfl, h⟩
  | succ k ih =>
    obtain ⟨u, hu, hholds⟩ := h.takeTurn.exec_turn hgood.takeTurn s.turn
    obtain ⟨hcfg, hscriptU, hturn⟩ := exec_keepsModel hu
    obtain ⟨t, ht, hcfgT, hT⟩ := ih hholds (hgood.takeTurn.exec hu) (hscriptU.trans hscript)
    have hstep : core.step s = .next u := (step_turn hscript).trans hu
    rw [hcfg, hturn] at hT
    exact ⟨t, by simp only [Host.Core.run, hstep]; exact ht, hcfgT.trans hcfg, hT⟩

end DrainStage

/-- Settles O59: ten turns are two rounds, after which a byte has been taken. -/
theorem backgroundTurnsDrainTheGnssQueue : Obligations.BackgroundTurnsDrainTheGnssQueue := by
  intro s h hscript hsome
  have hstart : DrainStage.waiting.Holds (count s s.cfg.gnssLink) s := Nat.le_refl _
  have hpos : 1 ≤ count s s.cfg.gnssLink := one_le_toNat_sub hsome
  obtain ⟨t, ht, hcfg, htaken⟩ := hstart.run 10 h hscript
  rw [DrainStage.afterTurns_ten] at htaken
  have hless : count t t.cfg.gnssLink ≤ count s s.cfg.gnssLink - 1 := htaken
  rw [hcfg] at hless
  exact ⟨t, ht, hless.trans_lt (Nat.sub_one_lt_of_lt hpos)⟩

end Sys2Proof.Machine
end

section
/-! PROOFS. What an operation reports: the events it logs, the bytes it puts out, and the pins it drives. The output is the
lines of the log (42_dispatcher R185, R186), and the pins show what was logged and put out (30_encoding R95; 60_exceptions
R261). -/
namespace Sys2Proof.Machine

/-! Lines and pins of events. -/

/-- One line per event, in order (R186). -/
def linesOf (f : Fmt) (evs : List Event) : List Byte := evs.flatMap fun e => lineBytes (lineOf f e)

@[simp] theorem linesOf_nil (f : Fmt) : linesOf f [] = [] := rfl

@[simp] theorem linesOf_cons (f : Fmt) (e : Event) (evs : List Event) :
    linesOf f (e :: evs) = lineBytes (lineOf f e) ++ linesOf f evs := rfl

/-- The output of a longer log has the new events' lines behind. -/
theorem outOf_append (p : Params) (evs more : List Event) : outOf p (evs ++ more) = outOf p evs ++ linesOf p.fmt more := by
  rw [outOf, outOf, List.flatMap_append, List.append_assoc, linesOf]

/-- The events that pulse `fix_strobe` (R95). -/
def isFixUpdate : Event → Bool
  | .fixUpdate _ => true
  | _ => false

/-- `err_strobe` and `err_code` after an event, from what they were (R95, R261). -/
def errPinsAfter (pins : Bool × BitVec 2) : Event → Bool × BitVec 2
  | .sentenceOverflow _ => (true, 2#2)
  | .parseError _ => (true, 3#2)
  | _ => pins

/-- `err_strobe` and `err_code`. -/
def State.errPins (s : State) : Bool × BitVec 2 := (s.ports.errStrobe, s.ports.errCode)

/-! What an operation reports. -/

/-- From `s` to `t` the events `evs` were logged and the bytes `text` put out, on the transmit pins too, and the other
report pins were driven as the events say. -/
structure Reports (s t : State) (evs : List Event) (text : List Byte) : Prop where
  ev : t.ev = s.ev ++ evs
  out : t.out = s.out ++ text
  tx : t.ports.tx = s.ports.tx ++ text
  fixStrobe : t.ports.fixStrobe = (s.ports.fixStrobe || evs.any isFixUpdate)
  errPins : t.errPins = evs.foldl errPinsAfter s.errPins

namespace Reports

variable {s t u : State} {es evs : List Event} {x y : List Byte}

/-- Where all that a report speaks of is as before, nothing is reported. -/
theorem silent (hev : t.ev = s.ev) (hout : t.out = s.out) (htx : t.ports.tx = s.ports.tx)
    (hfix : t.ports.fixStrobe = s.ports.fixStrobe) (herr : t.errPins = s.errPins) : Reports s t [] [] :=
  ⟨by rw [hev, List.append_nil], by rw [hout, List.append_nil], by rw [htx, List.append_nil],
    by rw [hfix, List.any_nil, Bool.or_false], herr⟩

/-- One report after another. -/
theorem trans (h : Reports s u es x) (k : Reports u t evs y) : Reports s t (es ++ evs) (x ++ y) :=
  ⟨by rw [k.ev, h.ev, List.append_assoc], by rw [k.out, h.out, List.append_assoc],
    by rw [k.tx, h.tx, List.append_assoc], by rw [k.fixStrobe, h.fixStrobe, List.any_append, Bool.or_assoc],
    by rw [k.errPins, h.errPins, List.foldl_append]⟩

theorem emit (x : List Byte) (s : State) : Reports s (emit x s) [] (lineBytes x) :=
  ⟨(List.append_nil _).symm, rfl, rfl, (Bool.or_false _).symm, rfl⟩

theorem logSentence (x : List Byte) (s : State) : Reports s (logEvent (.sentence x) s) [.sentence x] [] :=
  ⟨rfl, (List.append_nil _).symm, (List.append_nil _).symm, (Bool.or_false _).symm, rfl⟩

end Reports

/-- The report of an operation of the block: its text is the lines of its events. -/
def ReportsLines (s t : State) : Prop := ∃ evs, Reports s t evs (linesOf s.cfg.fmt evs)

namespace ReportsLines

variable {s t : State}

theorem silent (hev : t.ev = s.ev) (hout : t.out = s.out) (htx : t.ports.tx = s.ports.tx)
    (hfix : t.ports.fixStrobe = s.ports.fixStrobe) (herr : t.errPins = s.errPins) : ReportsLines s t :=
  ⟨[], .silent hev hout htx hfix herr⟩

/-- QueueFull and its line (R262). -/
theorem pArrive (q : Link) (b : Byte) (s : State) : ReportsLines s (pArrive q b s) := by
  rcases pArrive_cases q b s with ⟨_, e⟩ | ⟨_, e⟩ <;> rw [e]
  · exact ⟨[.queueFull q b], rfl, by simp [lineOf, raise_queueFull], by simp [lineOf, raise_queueFull],
      (Bool.or_false _).symm, rfl⟩
  · exact silent rfl rfl rfl rfl rfl

theorem writeWord (q : Link) (b : Byte) (s : State) : ReportsLines s (writeWord q b s) := by
  rw [writeWord_eq]
  rcases qWrite_cases q b s with ⟨_, e⟩ | ⟨_, e⟩ <;> rw [e] <;> exact silent rfl rfl rfl rfl rfl

theorem readWord {q : Link} (h : readWord q s = .next t) : ReportsLines s t := by
  obtain ⟨r, u, hu, rfl⟩ := readWord_next h
  rcases qRead_cases q s with ⟨_, e⟩ | ⟨_, b, _, e⟩ | ⟨_, _, e⟩ <;> rw [e] at hu <;> cases hu <;>
    exact silent rfl rfl rfl rfl rfl

theorem execPortHqread (h : execPortHqread s = .next t) : ReportsLines s t := by
  obtain ⟨r, u, hu, rfl⟩ := execPortHqread_next h
  rcases qRead_cases s.cfg.hostLink s with ⟨_, e⟩ | ⟨_, b, _, e⟩ | ⟨_, _, e⟩ <;> rw [e] at hu <;> cases hu <;>
    exact silent rfl rfl rfl rfl rfl

theorem qSyncW (q : Link) (mv : Move) (s : State) : ReportsLines s (qSyncW q mv s) := by
  cases hm : s.cfg.syncMode with
  | exact => rw [(qSync_exact hm q mv).1]; exact silent rfl rfl rfl rfl rfl
  | lagged => rw [qSyncW_lagged hm]; exact silent rfl rfl rfl rfl rfl

theorem qSyncR (q : Link) (mv : Move) (s : State) : ReportsLines s (qSyncR q mv s) := by
  cases hm : s.cfg.syncMode with
  | exact => rw [(qSync_exact hm q mv).2]; exact silent rfl rfl rfl rfl rfl
  | lagged => rw [qSyncR_lagged hm]; exact silent rfl rfl rfl rfl rfl

end ReportsLines

/-! The parser and the dispatcher. -/

/-- X.PARSE reports one event and no line: that is D.HANDLE's (R207, R209, C9). -/
theorem xParse_reports (x : List Byte) (s : State) : ∃ e, Reports s (xParse x s).2 [e] [] ∧
    lineOf s.cfg.fmt e = diagText s.cfg.fmt (xParse x s).1 := by
  rcases xParse_cases x s with ⟨r, _, e⟩ | ⟨_, e⟩ <;> rw [e]
  · exact ⟨.fixUpdate r, ⟨rfl, (List.append_nil _).symm, (List.append_nil _).symm, (Bool.or_true _).symm, rfl⟩, rfl⟩
  · exact ⟨.parseError x, ⟨rfl, (List.append_nil _).symm, (List.append_nil _).symm, (Bool.or_false _).symm, rfl⟩, rfl⟩

/-- D.HANDLE reports the ECHO line, whose event is F.FEED's, and the lines of its own events (R180, R186). -/
theorem dHandle_reports (x : List Byte) (s : State) :
    ∃ evs, Reports s (dHandle x s) evs (lineBytes x ++ linesOf s.cfg.fmt evs) := by
  have hecho := Reports.emit x s
  rw [dHandle]
  split
  · obtain ⟨e, hparse, hline⟩ := xParse_reports x (emit x s)
    have hdiag := Reports.emit (diagText s.cfg.fmt (xParse x (emit x s)).1) (xParse x (emit x s)).2
    rw [emit_cfg] at hline
    exact ⟨[e], by simpa [hline] using (hecho.trans hparse).trans hdiag⟩
  · exact ⟨[], by simpa using hecho⟩

/-! The framer. -/

namespace ReportsLines

variable {s t : State}

/-- The Sentence brings the line that D.HANDLE echoes (R161, R186). -/
theorem fFeed {b : Byte} (h : fFeed b s = .next t) : ReportsLines s t := by
  rcases fFeed_cases b s with ⟨_, _, e⟩ | ⟨_, _, x, _, e⟩ | ⟨_, _, _, e⟩ | ⟨_, _, e⟩ | ⟨_, _, e⟩ <;> rw [e] at h <;>
    cases h
  · exact silent rfl rfl rfl rfl rfl
  · obtain ⟨evs, hevs⟩ := dHandle_reports x (logEvent (.sentence x) s)
    obtain ⟨hev, hout, htx, hfix, herr⟩ := (Reports.logSentence x s).trans hevs
    exact ⟨.sentence x :: evs, hev, hout, htx, hfix, herr⟩
  · exact silent rfl rfl rfl rfl rfl
  · exact ⟨[.sentenceOverflow b], rfl, by simp [lineOf, fOvf, raise_sentenceOverflow],
      by simp [lineOf, fOvf, raise_sentenceOverflow], (Bool.or_false _).symm, rfl⟩

/-- Q.READ reports nothing (R136, R166). -/
theorem cStep (h : cStep s = .next t) : ReportsLines s t := by
  rcases cStep_cases s with ⟨_, e⟩ | ⟨_, b, _, e⟩ | ⟨_, _, e⟩ <;> rw [e] at h
  · cases h
    exact silent rfl rfl rfl rfl rfl
  · obtain ⟨evs, hev, hout, htx, hfix, herr⟩ := fFeed h
    exact ⟨evs, hev, hout, htx, hfix, herr⟩
  · cases h

/-- RESET alone empties the log and the output. The rows of one operation share one case (log 5). -/
theorem exec {i : Instr} (hblock : isBlockOp i = true) (hreset : i ≠ .reset) (h : exec i s = .next t) :
    ReportsLines s t := by
  cases i with
  | reset => exact absurd rfl hreset
  | arriveOk q b | arriveFull q b | portArrive q b => exact next_elim h (pArrive q b s)
  | writeOk q b | writeFull q b => exact next_elim h (writeWord q b s)
  | readSome q | readNone q => exact readWord h
  | portHqread => exact execPortHqread h
  | syncw q mv => exact next_elim h (qSyncW q mv s)
  | syncr q mv => exact next_elim h (qSyncR q mv s)
  | stepByte | stepEmpty => exact cStep h
  | feed b | feedData b | feedOvf b => exact fFeed h
  | feedTermCr => exact fFeed (b := chCR) h
  | feedTermLf => exact fFeed (b := chLF) h
  | handleFix x | handleEcho x | parseOk x | parseErr x | oLine x => cases hblock
  | init q | portIdle q d | portHqidle | dec2f x | div100 x | neg x | fmt x n =>
    exact next_elim h (silent rfl rfl rfl rfl rfl)
  | reserved9 x | reservedA x | reservedB x | reservedC x | reservedD x | reservedE x | reservedF x => cases h

end ReportsLines

/-- Settles O57: the operation adds the lines of the events it adds; RESET starts over with the banner line. -/
theorem outputIsTheLinesOfTheLog : Obligations.OutputIsTheLinesOfTheLog := by
  intro i s t hblock hout h
  obtain ⟨hcfg, _, _⟩ := exec_keepsModel h
  by_cases hreset : i = .reset
  · subst hreset
    obtain ⟨tx, e⟩ := bootReset_eq s
    have ht : bootReset s = t := Host.Outcome.next.inj h
    rw [hcfg, ← ht, e]
    exact (List.append_nil _).symm
  · obtain ⟨evs, hreport⟩ := ReportsLines.exec hblock hreset h
    rw [hreport.out, hreport.ev, hcfg, outOf_append, hout]

/-! The pins. -/

/-- Every operation but RESET reports events and a text, the inner functions applied alone (log 16) too. -/
theorem exec_reports {i : Instr} {s t : State} (hreset : i ≠ .reset) (h : exec i s = .next t) :
    ∃ evs text, Reports s t evs text := by
  cases hblock : isBlockOp i with
  | true =>
    obtain ⟨evs, hreport⟩ := ReportsLines.exec hblock hreset h
    exact ⟨evs, _, hreport⟩
  | false =>
    cases i with
    | handleFix x | handleEcho x =>
      cases h
      obtain ⟨evs, hreport⟩ := dHandle_reports x s
      exact ⟨evs, _, hreport⟩
    | parseOk x | parseErr x =>
      cases h
      obtain ⟨e, ⟨hev, hout, htx, hfix, herr⟩, _⟩ := xParse_reports x s
      exact ⟨[e], [], hev, hout, htx, hfix, herr⟩
    | oLine x =>
      cases h
      exact ⟨[], _, .emit x s⟩
    | _ => cases hblock

/-- The events that pulse `fix_strobe` are the commits (R95). -/
theorem any_isFixUpdate_iff {evs : List Event} : evs.any isFixUpdate = true ↔ ∃ r, .fixUpdate r ∈ evs := by
  rw [List.any_eq_true]
  refine ⟨fun ⟨e, he, hfix⟩ => ?_, fun ⟨r, hr⟩ => ⟨_, hr, rfl⟩⟩
  cases e with
  | fixUpdate r => exact ⟨r, he⟩
  | _ => cases hfix

/-- Only exceptions drive `err_strobe` and `err_code` (R261). -/
theorem foldl_errPinsAfter_filter (pins : Bool × BitVec 2) (evs : List Event) :
    (evs.filter isException).foldl errPinsAfter pins = evs.foldl errPinsAfter pins := by
  rw [List.foldl_filter]
  congr 1
  funext pins e
  cases e <;> rfl

/-- What `err_strobe` and `err_code` show, from idle, after events of which at most one is an exception (R261, R268). -/
theorem errPins_of_one_exception {evs : List Event} (h : (evs.filter isException).length ≤ 1) {strobe : Bool}
    {code : BitVec 2} (hpins : (strobe, code) = evs.foldl errPinsAfter (false, 0#2)) :
    (strobe = true ↔ (∃ b, .sentenceOverflow b ∈ evs) ∨ ∃ x, .parseError x ∈ evs) ∧
      (code = 2#2 ↔ ∃ b, .sentenceOverflow b ∈ evs) ∧ (code = 3#2 ↔ ∃ x, .parseError x ∈ evs) := by
  have hovf (b : Byte) : .sentenceOverflow b ∈ evs ↔ .sentenceOverflow b ∈ evs.filter isException := by
    simp [isException]
  have herr (x : List Byte) : .parseError x ∈ evs ↔ .parseError x ∈ evs.filter isException := by
    simp [isException]
  simp only [hovf, herr]
  rw [← foldl_errPinsAfter_filter] at hpins
  rcases hexc : evs.filter isException with _ | ⟨e, rest⟩
  · rw [hexc] at hpins
    cases hpins
    simp
  · rw [hexc] at h hpins
    obtain rfl : rest = [] := List.length_eq_zero_iff.1 (by simpa using h)
    cases e <;> cases hpins <;> simp

/-- Settles O56: the report from idle pins, with at most one exception in it. -/
theorem thePinsReportTheOperation : Obligations.ThePinsReportTheOperation := by
  intro i s t hreset hidle h
  obtain ⟨evs, text, hev, hout, htx, hfix, herr⟩ := exec_reports hreset h
  obtain ⟨evs', hev', hone⟩ := RaisesAtMostOne.exec hreset h
  obtain rfl : evs = evs' := List.append_cancel_left (hev.symm.trans hev')
  rw [State.errPins, State.errPins, hidle] at herr
  rw [hidle] at htx hfix
  refine ⟨by rw [hout, htx]; rfl, evs, hev, ?_, errPins_of_one_exception hone herr⟩
  rw [hfix]
  exact any_isFixUpdate_iff

/-- Settles O58: the QueueFull line is logged last, behind the second line, and may have gone out before it. -/
theorem aProducerLineMayFallBetween : Obligations.AProducerLineMayFallBetween := by
  intro s t evs d q b hd hev hfull h
  obtain ⟨u, _, hu, _, _, _, huev, _, _, _, _, ⟨hcfg, _, _⟩, _⟩ :=
    arriveAtAFullQueueRaisesQueueFull q b s _ (.inr (.inl rfl)) hfull
  cases hu.symm.trans h
  have hlogged : Placed t.ev (evs ++ [d, .queueFull q b]) := by
    have e : t.ev = evs ++ [d, .queueFull q b] := by rw [huev, hev, List.append_assoc]; rfl
    exact e ▸ .asLogged
  exact ⟨⟨_, hlogged, by rw [hcfg]⟩, _, .between evs [] d (.queueFull q b) hd rfl hlogged, by rw [hcfg]⟩

end Sys2Proof.Machine
end

section
/-! PROOFS. What a step runs (00_scope R6; 70_reset_and_hazards R322), the host-queue read port (30_encoding R95), the reads
of unwritten cells (log 2), and the parser and the numeric functions applied alone (log 6). -/
namespace Sys2Proof.Machine

/-! The step. -/

/-- Settles O6: whichever row the state selects, it is the operation decoded. -/
theorem stepRunsTheDecodedOperation : Obligations.StepRunsTheDecodedOperation :=
  fun _ _ _ _ hscript hdecode => step_stim hscript hdecode

/-- A step of the agent whose turn it is (log 4). -/
theorem step_of_turn {s : State} (hscript : s.script = []) {turn : Turn} (hturn : s.turn = turn) :
    step s = exec turn.op { s with turn := turn.after, ports := Ports.idle } := by
  subst hturn
  exact step_turn hscript

/-- Settles O7: the turns' operations and their order are `Turn.op` and `Turn.after`. -/
theorem stepWithoutStimulusTakesTheTurn : Obligations.StepWithoutStimulusTakesTheTurn := fun _ hscript =>
  ⟨step_of_turn hscript, step_of_turn hscript, step_of_turn hscript, step_of_turn hscript, step_of_turn hscript⟩

/-! The host-queue read port. -/

/-- Settles O12: the port is Q.READ of the host-link queue, and its result on the pins. -/
theorem hostPortReadsTheHostQueue : Obligations.HostPortReadsTheHostQueue := by
  rintro s _ rfl
  have hport : exec .portHqread s = execPortHqread s := rfl
  rw [hport, execPortHqread]
  refine ⟨fun hnone => ?_, fun v hsome hv => ?_, rfl, fun q d => rfl⟩
  · rw [qRead_of_unseen hnone]
    rfl
  · obtain ⟨t, hread, ⟨htail, hhead, hlagged, hexact, hcells, hother, hframer, hfix, hlogs, hmodel⟩, hresults, hports⟩ :=
      qRead_of_seen hsome hv
    rw [hread]
    exact ⟨driveHq (some v) t, rfl, htail, hhead, hcells, by rw [driveHq_ports, hports], hresults, hlagged, hexact,
      hother, hframer, hfix, hlogs, hmodel⟩

/-! Unwritten cells. -/

/-- Where the consumer sees a byte whose cell was never written, Q.READ faults (log 2). -/
theorem qRead_of_unwritten {q : Link} {s : State} (hsome : s.headR q ≠ s.tail q)
    (hnone : memRead (s.qst q) (s.tail q).toNat = none) : qRead q s = .error (.unwrittenQueueCell q (s.tail q)) := by
  rcases qRead_cases q s with ⟨hempty, _⟩ | ⟨_, b, hb, _⟩ | ⟨_, _, e⟩
  · exact absurd hempty hsome
  · exact absurd (hnone.symm.trans hb) nofun
  · exact e

/-- F.FEED of a terminator behind bytes one of which was never written faults (log 2). -/
theorem fFeed_of_term_unwritten {b : Byte} {s : State} (hb : isTerm b = true) (hcursor : s.cursor ≠ 0#8)
    (hnone : ∃ a < s.cursor.toNat, memRead s.acc a = none) : fFeed b s = .fault .unwrittenAccCell := by
  rcases fFeed_cases b s with ⟨_, hidle, _⟩ | ⟨_, _, x, hx, _⟩ | ⟨_, _, _, e⟩ | ⟨hdata, _⟩ | ⟨hdata, _⟩
  · exact absurd hidle hcursor
  · obtain ⟨a, ha, hcell⟩ := hnone
    obtain ⟨v, hv⟩ := memRun_some_iff.1 ⟨x, hx⟩ a ha
    rw [Nat.zero_add] at hv
    exact absurd (hcell.symm.trans hv) nofun
  · exact e
  · exact absurd (hb.symm.trans hdata) nofun
  · exact absurd (hb.symm.trans hdata) nofun

/-- Settles O13: READ, the read port and C.STEP read through Q.READ, and the terminators are F.FEED (log 5). -/
theorem unwrittenCellsFault : Obligations.UnwrittenCellsFault := by
  intro s
  refine ⟨fun q hsome hnone => ?_, fun hcursor hnone => ?_⟩
  · have hread := qRead_of_unwritten hsome hnone
    have hword : readWord q s = .fault (.unwrittenQueueCell q (s.tail q)) := by rw [readWord, hread]
    refine ⟨hword, hword, ?_, ?_⟩
    · rintro rfl
      show execPortHqread s = _
      rw [execPortHqread, hread]
    · rintro rfl
      have hstep : cStep s = .fault (.unwrittenQueueCell s.cfg.gnssLink (s.tail s.cfg.gnssLink)) := by
        rw [cStep, hread]
      exact ⟨hstep, hstep⟩
  · have hcr := fFeed_of_term_unwritten (b := chCR) rfl hcursor hnone
    have hlf := fFeed_of_term_unwritten (b := chLF) rfl hcursor hnone
    exact ⟨hcr, hlf, hcr, hlf⟩

/-! The functions applied alone. -/

/-- Settles O35: both rows are X.PARSE with its result recorded (log 5). -/
theorem parseCommitsOrRaisesParseError : Obligations.ParseCommitsOrRaisesParseError := by
  intro x s i hi
  have hexec : exec i s = .next (record (.parsed (xParse x s).1) (xParse x s).2) := by rcases hi with rfl | rfl <;> rfl
  rw [hexec, xParse]
  refine ⟨fun r hr => ?_, fun hnone => ?_⟩
  · rw [hr]
    rfl
  · rw [hnone]
    rfl

/-- Settles O40: each function is `record` of its value; the mask of N.NEG is bit `W - 1` of the format (R237). -/
theorem numericFunctionsOnlyRecordTheirValue : Obligations.NumericFunctionsOnlyRecordTheirValue := by
  intro s t x n
  have hneg : exec (.neg x) s = .next (record (.number (some (negate s.cfg.fmt x))) s) := rfl
  refine ⟨rfl, rfl, fun hfmt => ?_, fun hfmt => ?_, rfl⟩
  · rw [hneg, hfmt]
    rfl
  · rw [hneg, hfmt]
    rfl

end Sys2Proof.Machine
end
